-- ==== Sys2Proof/Word.lean ====
section
/-! DEFINITION. The widths of spec/00_scope.md R6 and R10: bytes, 16-bit words, nibbles, 12-bit addresses and register numbers. Every value of this machine is unsigned (R10). -/

namespace Sys2Proof

/-- `u8` (R10): a general register, a timer, a byte of memory, the immediate NN. -/
abbrev Byte := BitVec 8

/-- `u16` (R10): I, PC, a stack entry, an opcode. -/
abbrev Word := BitVec 16

/-- `u4` (R10): the row count N, a key code the host reports, an ignored nibble of an opcode. -/
abbrev Nibble := BitVec 4

/-- The 12-bit address operand NNN (R11). -/
abbrev Addr12 := BitVec 12

/-- The number of a general register, X or Y (10_state.md R21). -/
abbrev Reg := Fin 16

/-- VF, the last general register, which is also the carry, borrow and collision flag (10_state.md R22). -/
abbrev VF : Reg := 15

/-- MEM_SIZE (R6). -/
abbrev memSize : Nat := 4096

/-- FONT_BASE (R6). -/
abbrev fontBase : Nat := 0x050

/-- PROG_BASE, the reset PC and the address a program is loaded at (R6). -/
abbrev progBase : Nat := 0x200

end Sys2Proof
end

