-- ==== Sys2Proof/Syntax.lean ====
section
/-! DEFINITION. The 34 instructions of spec/30_encoding.md R95, one constructor per row of spec/opcode_table.json. X and Y are register numbers, NN a byte, NNN a 12-bit address, N a row count (R91, R92). The nibbles the decoder ignores (R97) are operands too, so that a word and its instruction determine each other. -/

namespace Sys2Proof

inductive Instr where
  /-- 00E0 CLS; `bc` is the ignored byte op[11:4] -/
  | cls (bc : Byte)
  /-- 00EE RET; `bc` is the ignored byte op[11:4] -/
  | ret (bc : Byte)
  /-- 1NNN JP addr -/
  | jp (nnn : Addr12)
  /-- 2NNN CALL addr -/
  | call (nnn : Addr12)
  /-- 3XNN SE Vx, byte -/
  | seByte (x : Reg) (nn : Byte)
  /-- 4XNN SNE Vx, byte -/
  | sneByte (x : Reg) (nn : Byte)
  /-- 5XY0 SE Vx, Vy -/
  | seReg (x y : Reg)
  /-- 6XNN LD Vx, byte -/
  | ldByte (x : Reg) (nn : Byte)
  /-- 7XNN ADD Vx, byte -/
  | addByte (x : Reg) (nn : Byte)
  /-- 8XY0 LD Vx, Vy -/
  | ldReg (x y : Reg)
  /-- 8XY1 OR Vx, Vy -/
  | orReg (x y : Reg)
  /-- 8XY2 AND Vx, Vy -/
  | andReg (x y : Reg)
  /-- 8XY3 XOR Vx, Vy -/
  | xorReg (x y : Reg)
  /-- 8XY4 ADD Vx, Vy -/
  | addReg (x y : Reg)
  /-- 8XY5 SUB Vx, Vy -/
  | sub (x y : Reg)
  /-- 8XY6 SHR Vx, Vy -/
  | shr (x y : Reg)
  /-- 8XY7 SUBN Vx, Vy -/
  | subn (x y : Reg)
  /-- 8XYE SHL Vx, Vy -/
  | shl (x y : Reg)
  /-- 9XY0 SNE Vx, Vy -/
  | sneReg (x y : Reg)
  /-- ANNN LD I, addr -/
  | ldI (nnn : Addr12)
  /-- BNNN JP V0, addr -/
  | jpV0 (nnn : Addr12)
  /-- CXNN RND Vx, byte -/
  | rnd (x : Reg) (nn : Byte)
  /-- DXYN DRW Vx, Vy, nibble -/
  | drw (x y : Reg) (n : Nibble)
  /-- EX9E SKP Vx; `d` is the ignored nibble op[3:0] -/
  | skp (x : Reg) (d : Nibble)
  /-- EXA1 SKNP Vx; `d` is the ignored nibble op[3:0] -/
  | sknp (x : Reg) (d : Nibble)
  /-- FX07 LD Vx, DT -/
  | ldRegDt (x : Reg)
  /-- FX0A LD Vx, K -/
  | ldRegKey (x : Reg)
  /-- FX15 LD DT, Vx -/
  | ldDtReg (x : Reg)
  /-- FX18 LD ST, Vx -/
  | ldStReg (x : Reg)
  /-- FX1E ADD I, Vx -/
  | addI (x : Reg)
  /-- FX29 LD F, Vx -/
  | ldFont (x : Reg)
  /-- FX33 LD B, Vx -/
  | ldBcd (x : Reg)
  /-- FX55 LD [I], Vx -/
  | storeRegs (x : Reg)
  /-- FX65 LD Vx, [I] -/
  | loadRegs (x : Reg)
  deriving DecidableEq, Repr

end Sys2Proof
end

