-- ==== Sys2Proof/WellFormed.lean ====
section
/-! DEFINITION. Checks on instructions and programs. An operand's range (spec/30_encoding.md R91, R92) is its type, so no term of `Instr` has an operand outside its field; what is left to check is what the spec itself offers as a premise of a claim: no alias word (92 D7), no 8FY6 or 8FYE (92 D8, 93 U10), no DXYN through VF (92 D11, 93 U11); and that a program fits (10_state.md R52). -/

namespace Sys2Proof

/-- The instruction is spelled by its conventional word: 00E0, 00EE, EX9E, EXA1 and not one of their aliases (R97). -/
def Instr.conventional : Instr → Bool
  | .cls bc => bc == 0x0E#8
  | .ret bc => bc == 0x0E#8
  | .skp _ d => d == 0xE#4
  | .sknp _ d => d == 0x1#4
  | .jp _ | .call _ | .seByte _ _ | .sneByte _ _ | .seReg _ _ | .ldByte _ _ | .addByte _ _
  | .ldReg _ _ | .orReg _ _ | .andReg _ _ | .xorReg _ _ | .addReg _ _ | .sub _ _ | .shr _ _
  | .subn _ _ | .shl _ _ | .sneReg _ _ | .ldI _ | .jpV0 _ | .rnd _ _ | .drw _ _ _ | .ldRegDt _
  | .ldRegKey _ | .ldDtReg _ | .ldStReg _ | .addI _ | .ldFont _ | .ldBcd _ | .storeRegs _
  | .loadRegs _ => true

/-- The instruction is no shift into VF, whose two effects fall on one register (90_conflicts.md C4, 92 D8). -/
def Instr.shiftsOutsideVF : Instr → Bool
  | .shr x _ | .shl x _ => x != VF
  | .cls _ | .ret _ | .jp _ | .call _ | .seByte _ _ | .sneByte _ _ | .seReg _ _ | .ldByte _ _
  | .addByte _ _ | .ldReg _ _ | .orReg _ _ | .andReg _ _ | .xorReg _ _ | .addReg _ _ | .sub _ _
  | .subn _ _ | .sneReg _ _ | .ldI _ | .jpV0 _ | .rnd _ _ | .drw _ _ _ | .skp _ _ | .sknp _ _
  | .ldRegDt _ | .ldRegKey _ | .ldDtReg _ | .ldStReg _ | .addI _ | .ldFont _ | .ldBcd _
  | .storeRegs _ | .loadRegs _ => true

/-- The instruction is no draw whose coordinate register is VF, which the draw itself writes (92 D11). -/
def Instr.drawsOutsideVF : Instr → Bool
  | .drw x y _ => x != VF && y != VF
  | .cls _ | .ret _ | .jp _ | .call _ | .seByte _ _ | .sneByte _ _ | .seReg _ _ | .ldByte _ _
  | .addByte _ _ | .ldReg _ _ | .orReg _ _ | .andReg _ _ | .xorReg _ _ | .addReg _ _ | .sub _ _
  | .shr _ _ | .subn _ _ | .shl _ _ | .sneReg _ _ | .ldI _ | .jpV0 _ | .rnd _ _ | .skp _ _
  | .sknp _ _ | .ldRegDt _ | .ldRegKey _ | .ldDtReg _ | .ldStReg _ | .addI _ | .ldFont _
  | .ldBcd _ | .storeRegs _ | .loadRegs _ => true

/-- An instruction whose meaning rests on none of the spec's decisions D7, D8 and D11. -/
def Instr.wf (i : Instr) : Bool :=
  i.conventional && i.shiftsOutsideVF && i.drawsOutsideVF

/-- A program the host can load: 0x200 + len ≤ 4096 (R52). -/
def romFits (bytes : List Byte) : Bool :=
  decide (progBase + bytes.length ≤ memSize)

end Sys2Proof
end

