-- ==== Sys2Proof/Decode.lean ====
section
/-! DEFINITION. The decoder of spec/30_encoding.md R94, total on any bytes and rejecting by name, and after it the encoder, written from the same rows (R93, R95). -/

namespace Sys2Proof

/-- Why bytes are no instruction: fewer than two of them, or a word that matches no row (R96). -/
inductive DecodeError where
  | truncated
  | invalidOpcode (op : Word)
  deriving DecidableEq, Repr

/-! ### The fields of an opcode (R91) -/

/-- a, the class, op[15:12]. -/
def fieldA (op : Word) : Nibble := op.extractLsb' 12 4

/-- X, op[11:8]. -/
def fieldX (op : Word) : Reg := (op.extractLsb' 8 4).toFin

/-- Y, op[7:4]. -/
def fieldY (op : Word) : Reg := (op.extractLsb' 4 4).toFin

/-- c, op[7:4], as a selector. -/
def fieldC (op : Word) : Nibble := op.extractLsb' 4 4

/-- d = N, op[3:0]. -/
def fieldD (op : Word) : Nibble := op.extractLsb' 0 4

/-- NN, op[7:0]. -/
def fieldNN (op : Word) : Byte := op.extractLsb' 0 8

/-- NNN, op[11:0]. -/
def fieldNNN (op : Word) : Addr12 := op.extractLsb' 0 12

/-- bc, op[11:4]: the two nibbles class 0 ignores (R97). -/
def fieldBC (op : Word) : Byte := op.extractLsb' 4 8

/-! ### The two-level dispatch (R94) -/

/-- Class 8: the arithmetic selector d. -/
def decodeClass8 (op : Word) : Except DecodeError Instr :=
  match (fieldD op).toNat with
  | 0x0 => .ok (.ldReg (fieldX op) (fieldY op))
  | 0x1 => .ok (.orReg (fieldX op) (fieldY op))
  | 0x2 => .ok (.andReg (fieldX op) (fieldY op))
  | 0x3 => .ok (.xorReg (fieldX op) (fieldY op))
  | 0x4 => .ok (.addReg (fieldX op) (fieldY op))
  | 0x5 => .ok (.sub (fieldX op) (fieldY op))
  | 0x6 => .ok (.shr (fieldX op) (fieldY op))
  | 0x7 => .ok (.subn (fieldX op) (fieldY op))
  | 0xE => .ok (.shl (fieldX op) (fieldY op))
  | _ => .error (.invalidOpcode op)

/-- Class F: the selector byte NN. -/
def decodeClassF (op : Word) : Except DecodeError Instr :=
  match (fieldNN op).toNat with
  | 0x07 => .ok (.ldRegDt (fieldX op))
  | 0x0A => .ok (.ldRegKey (fieldX op))
  | 0x15 => .ok (.ldDtReg (fieldX op))
  | 0x18 => .ok (.ldStReg (fieldX op))
  | 0x1E => .ok (.addI (fieldX op))
  | 0x29 => .ok (.ldFont (fieldX op))
  | 0x33 => .ok (.ldBcd (fieldX op))
  | 0x55 => .ok (.storeRegs (fieldX op))
  | 0x65 => .ok (.loadRegs (fieldX op))
  | _ => .error (.invalidOpcode op)

/-- `decode(op)` of R94. Exactly the selectors the table names are tested (92 D7). -/
def decodeWord (op : Word) : Except DecodeError Instr :=
  match (fieldA op).toNat with
  | 0x0 =>
    match (fieldD op).toNat with
    | 0x0 => .ok (.cls (fieldBC op))
    | 0xE => .ok (.ret (fieldBC op))
    | _ => .error (.invalidOpcode op)
  | 0x1 => .ok (.jp (fieldNNN op))
  | 0x2 => .ok (.call (fieldNNN op))
  | 0x3 => .ok (.seByte (fieldX op) (fieldNN op))
  | 0x4 => .ok (.sneByte (fieldX op) (fieldNN op))
  | 0x5 =>
    match (fieldD op).toNat with
    | 0x0 => .ok (.seReg (fieldX op) (fieldY op))
    | _ => .error (.invalidOpcode op)
  | 0x6 => .ok (.ldByte (fieldX op) (fieldNN op))
  | 0x7 => .ok (.addByte (fieldX op) (fieldNN op))
  | 0x8 => decodeClass8 op
  | 0x9 =>
    match (fieldD op).toNat with
    | 0x0 => .ok (.sneReg (fieldX op) (fieldY op))
    | _ => .error (.invalidOpcode op)
  | 0xA => .ok (.ldI (fieldNNN op))
  | 0xB => .ok (.jpV0 (fieldNNN op))
  | 0xC => .ok (.rnd (fieldX op) (fieldNN op))
  | 0xD => .ok (.drw (fieldX op) (fieldY op) (fieldD op))
  | 0xE =>
    match (fieldC op).toNat with
    | 0x9 => .ok (.skp (fieldX op) (fieldD op))
    | 0xA => .ok (.sknp (fieldX op) (fieldD op))
    | _ => .error (.invalidOpcode op)
  | 0xF => decodeClassF op
  | _ => .error (.invalidOpcode op)

/-- The opcode two bytes in memory form: the byte at the lower address is op[15:8] (20_memory.md R64). -/
def wordOfBytes (hi lo : Byte) : Word := hi ++ lo

/-- The two bytes of a word in the order memory holds them (R64, R90). -/
def bytesOfWord (op : Word) : List Byte := [op.extractLsb' 8 8, op.extractLsb' 0 8]

/-- Decoding of any bytes: the first instruction and the bytes after it (R90: one length, two bytes). -/
def decodeBytes : List Byte → Except DecodeError (Instr × List Byte)
  | hi :: lo :: rest =>
    match decodeWord (wordOfBytes hi lo) with
    | .ok i => .ok (i, rest)
    | .error e => .error e
  | _ => .error .truncated

/-- The host's view of the decoder: the instruction read from the opcode-table bits `w` (bit 0 the least significant bit of the word), `nbits` of them given. -/
def decodeTableWord (nbits w : Nat) : Option Instr :=
  match decodeBytes (bytesOfWord (BitVec.ofNat 16 (w % 2 ^ nbits))) with
  | .ok (i, _) => some i
  | .error _ => none

/-! ### The encoder (R93, R95) -/

/-- Layout L0: class, two ignored nibbles, selector d. -/
def packL0 (bc : Byte) (d : Nibble) : Word := 0x0#4 ++ bc ++ d

/-- Layout LA: class and NNN. -/
def packLA (a : Nibble) (nnn : Addr12) : Word := a ++ nnn

/-- Layouts LI and LF: class, X, and the byte NN (an immediate or a selector). -/
def packLI (a : Nibble) (x : Reg) (nn : Byte) : Word := a ++ BitVec.ofFin (w := 4) x ++ nn

/-- Layouts LR and LD: class, X, Y, and the nibble d (a selector or N). -/
def packLR (a : Nibble) (x y : Reg) (d : Nibble) : Word :=
  a ++ BitVec.ofFin (w := 4) x ++ BitVec.ofFin (w := 4) y ++ d

/-- Layout LE: class E, X, selector c, an ignored nibble. -/
def packLE (x : Reg) (c d : Nibble) : Word := 0xE#4 ++ BitVec.ofFin (w := 4) x ++ c ++ d

/-- The opcode of an instruction. -/
def encode : Instr → Word
  | .cls bc => packL0 bc 0x0#4
  | .ret bc => packL0 bc 0xE#4
  | .jp nnn => packLA 0x1#4 nnn
  | .call nnn => packLA 0x2#4 nnn
  | .seByte x nn => packLI 0x3#4 x nn
  | .sneByte x nn => packLI 0x4#4 x nn
  | .seReg x y => packLR 0x5#4 x y 0x0#4
  | .ldByte x nn => packLI 0x6#4 x nn
  | .addByte x nn => packLI 0x7#4 x nn
  | .ldReg x y => packLR 0x8#4 x y 0x0#4
  | .orReg x y => packLR 0x8#4 x y 0x1#4
  | .andReg x y => packLR 0x8#4 x y 0x2#4
  | .xorReg x y => packLR 0x8#4 x y 0x3#4
  | .addReg x y => packLR 0x8#4 x y 0x4#4
  | .sub x y => packLR 0x8#4 x y 0x5#4
  | .shr x y => packLR 0x8#4 x y 0x6#4
  | .subn x y => packLR 0x8#4 x y 0x7#4
  | .shl x y => packLR 0x8#4 x y 0xE#4
  | .sneReg x y => packLR 0x9#4 x y 0x0#4
  | .ldI nnn => packLA 0xA#4 nnn
  | .jpV0 nnn => packLA 0xB#4 nnn
  | .rnd x nn => packLI 0xC#4 x nn
  | .drw x y n => packLR 0xD#4 x y n
  | .skp x d => packLE x 0x9#4 d
  | .sknp x d => packLE x 0xA#4 d
  | .ldRegDt x => packLI 0xF#4 x 0x07#8
  | .ldRegKey x => packLI 0xF#4 x 0x0A#8
  | .ldDtReg x => packLI 0xF#4 x 0x15#8
  | .ldStReg x => packLI 0xF#4 x 0x18#8
  | .addI x => packLI 0xF#4 x 0x1E#8
  | .ldFont x => packLI 0xF#4 x 0x29#8
  | .ldBcd x => packLI 0xF#4 x 0x33#8
  | .storeRegs x => packLI 0xF#4 x 0x55#8
  | .loadRegs x => packLI 0xF#4 x 0x65#8

/-- The bytes of an instruction as memory holds them. -/
def encodeBytes (i : Instr) : List Byte := bytesOfWord (encode i)

/-! ### The opcode map as data (R95) -/

/-- `mask` of the instruction's row in R95. -/
def Instr.rowMask : Instr → Word
  | .cls _ | .ret _ | .seReg _ _ | .ldReg _ _ | .orReg _ _ | .andReg _ _ | .xorReg _ _
  | .addReg _ _ | .sub _ _ | .shr _ _ | .subn _ _ | .shl _ _ | .sneReg _ _ => 0xF00F#16
  | .jp _ | .call _ | .seByte _ _ | .sneByte _ _ | .ldByte _ _ | .addByte _ _ | .ldI _ | .jpV0 _
  | .rnd _ _ | .drw _ _ _ => 0xF000#16
  | .skp _ _ | .sknp _ _ => 0xF0F0#16
  | .ldRegDt _ | .ldRegKey _ | .ldDtReg _ | .ldStReg _ | .addI _ | .ldFont _ | .ldBcd _
  | .storeRegs _ | .loadRegs _ => 0xF0FF#16

/-- `match` of the instruction's row in R95. -/
def Instr.rowMatch : Instr → Word
  | .cls _ => 0x0000#16
  | .ret _ => 0x000E#16
  | .jp _ => 0x1000#16
  | .call _ => 0x2000#16
  | .seByte _ _ => 0x3000#16
  | .sneByte _ _ => 0x4000#16
  | .seReg _ _ => 0x5000#16
  | .ldByte _ _ => 0x6000#16
  | .addByte _ _ => 0x7000#16
  | .ldReg _ _ => 0x8000#16
  | .orReg _ _ => 0x8001#16
  | .andReg _ _ => 0x8002#16
  | .xorReg _ _ => 0x8003#16
  | .addReg _ _ => 0x8004#16
  | .sub _ _ => 0x8005#16
  | .shr _ _ => 0x8006#16
  | .subn _ _ => 0x8007#16
  | .shl _ _ => 0x800E#16
  | .sneReg _ _ => 0x9000#16
  | .ldI _ => 0xA000#16
  | .jpV0 _ => 0xB000#16
  | .rnd _ _ => 0xC000#16
  | .drw _ _ _ => 0xD000#16
  | .skp _ _ => 0xE090#16
  | .sknp _ _ => 0xE0A0#16
  | .ldRegDt _ => 0xF007#16
  | .ldRegKey _ => 0xF00A#16
  | .ldDtReg _ => 0xF015#16
  | .ldStReg _ => 0xF018#16
  | .addI _ => 0xF01E#16
  | .ldFont _ => 0xF029#16
  | .ldBcd _ => 0xF033#16
  | .storeRegs _ => 0xF055#16
  | .loadRegs _ => 0xF065#16

/-- The (mask, match) pairs of R95, in the table's order. -/
def opcodeMap : List (Word × Word) :=
  [(0xF00F#16, 0x0000#16), (0xF00F#16, 0x000E#16), (0xF000#16, 0x1000#16), (0xF000#16, 0x2000#16),
   (0xF000#16, 0x3000#16), (0xF000#16, 0x4000#16), (0xF00F#16, 0x5000#16), (0xF000#16, 0x6000#16),
   (0xF000#16, 0x7000#16)] ++
  [(0xF00F#16, 0x8000#16), (0xF00F#16, 0x8001#16), (0xF00F#16, 0x8002#16), (0xF00F#16, 0x8003#16),
   (0xF00F#16, 0x8004#16), (0xF00F#16, 0x8005#16), (0xF00F#16, 0x8006#16), (0xF00F#16, 0x8007#16),
   (0xF00F#16, 0x800E#16), (0xF00F#16, 0x9000#16)] ++
  [(0xF000#16, 0xA000#16), (0xF000#16, 0xB000#16), (0xF000#16, 0xC000#16), (0xF000#16, 0xD000#16),
   (0xF0F0#16, 0xE090#16), (0xF0F0#16, 0xE0A0#16)] ++
  [(0xF0FF#16, 0xF007#16), (0xF0FF#16, 0xF00A#16), (0xF0FF#16, 0xF015#16), (0xF0FF#16, 0xF018#16),
   (0xF0FF#16, 0xF01E#16), (0xF0FF#16, 0xF029#16), (0xF0FF#16, 0xF033#16), (0xF0FF#16, 0xF055#16),
   (0xF0FF#16, 0xF065#16)]

end Sys2Proof
end

