-- ==== Sys2Proof/Config.lean ====
section
/-! DEFINITION. What is fixed for a machine but left open by the spec: the parameters of spec/00_scope.md R8, the shape of a Step's input sample (R9), and the free values, each a constant without a body. -/

namespace Sys2Proof

/-- SHIFT_SOURCE (R8, 92 D9): the register 8XY6 and 8XYE shift. -/
inductive ShiftSource where
  | vx
  | vy
  deriving DecidableEq, Repr, Inhabited

/-- SPRITE_Y (R8, 44_display.md R212): what happens to sprite rows below the screen. -/
inductive SpriteY where
  | wrap
  | clip
  deriving DecidableEq, Repr, Inhabited

/-- The parameters of one machine (R8, R42). INIT_MEM is the fourth one; it stands below as `Config.initMem`. -/
structure Config where
  shiftSource : ShiftSource
  spriteY : SpriteY
  font : Vector Byte 80
  deriving DecidableEq, Repr

/-- The input sample the host gives one Step (R9, 10_state.md R53): `held` is one bit per key, `pressed` is FirstPressed(), `rand` is Rand(). -/
structure StepInput where
  held : BitVec 16
  pressed : Option Nibble
  rand : Byte
  deriving DecidableEq, Repr, Inhabited

/-- SPRITE_Y of the machine that reset describes: OPEN in the spec, which forbids picking a policy (92 D10). Log 1. -/
opaque Config.openSpriteY : SpriteY

/-- INIT_MEM (R8, 92 D3): the byte at an address outside the font that nothing has written. Log 3. -/
opaque Config.initMem : Nat → Byte

/-- The sample of a Step for which the host's queue holds none (92 D14, D15). Log 2. -/
opaque Config.freeInput : Nat → StepInput

/-- PC after a faulting cycle (40_cycle.md R128, 93 U5). Log 4. -/
opaque Config.freePc : Nat → Word

/-- DT after a faulting cycle (R128, 93 U5). Log 4. -/
opaque Config.freeDt : Nat → Byte

/-- ST after a faulting cycle (R128, 93 U5). Log 4. -/
opaque Config.freeSt : Nat → Byte

/-- A register the faulting instruction wrote before its raise point (R128, 92 D17); second argument: the register. Log 4. -/
opaque Config.freeReg : Nat → Reg → Byte

/-- A byte of memory the faulting instruction wrote before its raise point (R128, 92 D17); second argument: the address. Log 4. -/
opaque Config.freeMem : Nat → Nat → Byte

/-- A framebuffer cell the faulting instruction drew before its raise point (R128, 92 D17); arguments: row, column. Log 4. -/
opaque Config.freeCell : Nat → Fin 32 → Fin 64 → Bool

end Sys2Proof
end

