-- ==== Sys2Proof/Machine/Parameters.lean ====
section
/-! DEFINITION. The default values of the machine's parameters (spec/00_scope.md R8): VX for SHIFT_SOURCE, the conventional font for FONT (92 D2), and the open constant for SPRITE_Y. Log 1. -/

namespace Sys2Proof.Machine

/-- The glyph bytes of 92 D2, glyph k at offset 5k. PRESUMED: the spec marks them as general knowledge. -/
def fontBytes : List Byte :=
  [0xF0, 0x90, 0x90, 0x90, 0xF0, 0x20, 0x60, 0x20, 0x20, 0x70] ++
  [0xF0, 0x10, 0xF0, 0x80, 0xF0, 0xF0, 0x10, 0xF0, 0x10, 0xF0] ++
  [0x90, 0x90, 0xF0, 0x10, 0x10, 0xF0, 0x80, 0xF0, 0x10, 0xF0] ++
  [0xF0, 0x80, 0xF0, 0x90, 0xF0, 0xF0, 0x10, 0x20, 0x40, 0x40] ++
  [0xF0, 0x90, 0xF0, 0x90, 0xF0, 0xF0, 0x90, 0xF0, 0x10, 0xF0] ++
  [0xF0, 0x90, 0xF0, 0x90, 0x90, 0xE0, 0x90, 0xE0, 0x90, 0xE0] ++
  [0xF0, 0x80, 0x80, 0x80, 0xF0, 0xE0, 0x90, 0x90, 0x90, 0xE0] ++
  [0xF0, 0x80, 0xF0, 0x80, 0xF0, 0xF0, 0x80, 0xF0, 0x80, 0x80]

/-- The default FONT: 80 bytes (R7). -/
def defaultFont : Vector Byte 80 := ⟨fontBytes.toArray, by rfl⟩

/-- The parameters of the machine `State.reset` describes (R8). -/
def defaultConfig : Config where
  shiftSource := .vx
  spriteY := Config.openSpriteY
  font := defaultFont

end Sys2Proof.Machine
end

