-- ==== Sys2Proof/Machine/State.lean ====
section
/-! DEFINITION. The state of the CORE as plain data (spec/10_state.md R20), the fault taxonomy and record (60_exceptions.md R260, R261), the model's refusals, and the state right after reset (R44). -/

namespace Sys2Proof.Machine

/-- The synchronous faults of the CORE, and no others (60_exceptions.md R260). A fault is not an end of the model: the raising cycle has a next state, whose RUN holds it (R262; log 6), so `step` and `exec` never answer `Outcome.fault`. Safe: the free values after a fault allow every state R128 allows. -/
inductive Fault where
  /-- code 1: the fetched word matches no row of the opcode map; raised by the decode of any word (30_encoding.md R96); safe -/
  | invalidOpcode
  /-- code 2: a call with SP = 16; raised by 2NNN (41_control_flow.md R143); safe -/
  | stackOverflow
  /-- code 3: a return with SP = 0; raised by 00EE (41_control_flow.md R141); safe -/
  | stackUnderflow
  /-- code 4: a memory byte address ≥ 4096, the lowest one of the access (92 D27); raised by the fetch, DXYN, FX33, FX55, FX65 (20_memory.md R62); safe -/
  | outOfBounds (addr : Nat)
  /-- code 5: a key code > 0xF; raised by EX9E and EXA1 (45_keys_timers.md R241, R242; 92 D13); safe -/
  | keyOutOfRange (key : Byte)
  deriving DecidableEq, Repr

/-- Why a step is refused: the host asked for what the block does not accept. -/
inductive Refusal where
  /-- an instruction without a meaning; no arm of `exec` answers it; safe -/
  | notModelled (mnemonic : String)
  /-- a Step in READY, before a program is loaded; raised by `step` (10_state.md R53, 92 D19); safe -/
  | stepBeforeLoad
  /-- a Step in FAULTED; raised by `step` (10_state.md R53, 92 D16); safe -/
  | stepAfterFault
  deriving DecidableEq, Repr

/-- The fault record of R261. Its `addr` and `key` stand in the fault; `pc` is the address of the faulting instruction; `opcode` is absent for a fetch fault. -/
structure FaultRecord where
  fault : Fault
  pc : Word
  opcode : Option Word
  deriving DecidableEq, Repr

/-- RUN, the control state of the block (10_state.md R40). -/
inductive Run where
  | ready
  | loaded
  | running
  | faulted (record : FaultRecord)
  deriving DecidableEq, Repr

/-- MEM as (address, byte) pairs: the bytes something has written, addresses rising. What an unlisted address reads as is `Memory.unlisted` and, beyond it, `Config.initMem` (20_memory.md R69; log 3). -/
abbrev Memory := List Host.Cell

/-- One row of the framebuffer, column 0 first (10_state.md R36). -/
abbrev FbRow := Vector Bool 64

/-- FB[y][x]: 32 rows, `true` = lit (10_state.md R36). -/
abbrev Framebuffer := Vector FbRow 32

/-- The architectural state of R20, then what the fixed form of `step` makes the model carry: the machine's parameters (R42; log 1), the host's input samples for the coming Steps (R53; log 2), and the counter of the free values (log 4). -/
structure State where
  /-- V[0..15] (R21) -/
  v : Vector Byte 16
  /-- I (R25) -/
  i : Word
  /-- PC (R26) -/
  pc : Word
  /-- STACK[0..15] (R30) -/
  stack : Vector Word 16
  /-- SP, the stack depth 0..16 (R30) -/
  sp : Fin 17
  /-- DT (R34) -/
  dt : Byte
  /-- ST (R35) -/
  st : Byte
  /-- FB (R36) -/
  fb : Framebuffer
  /-- MEM (R37) -/
  mem : Memory
  /-- RUN (R40) -/
  run : Run
  /-- PRESENT (R41) -/
  present : Bool
  /-- SHIFT_SOURCE, SPRITE_Y and FONT (R42); no operation changes it -/
  cfg : Config
  /-- the model's own: input samples the host has supplied, oldest first -/
  inputs : List StepInput
  /-- the model's own: how many Steps have drawn free values -/
  draws : Nat
  deriving DecidableEq, Repr

/-- The state at construction and at every reset (R44). Memory lists nothing: it is FONT and INIT_MEM. -/
def State.reset : State where
  v := Vector.replicate 16 0x00#8
  i := 0x0000#16
  pc := 0x0200#16
  stack := Vector.replicate 16 0x0000#16
  sp := 0
  dt := 0x00#8
  st := 0x00#8
  fb := Vector.replicate 32 (Vector.replicate 64 false)
  mem := []
  run := .ready
  present := false
  cfg := defaultConfig
  inputs := []
  draws := 0

end Sys2Proof.Machine
end

