-- ==== Sys2Proof/Machine/Ops.lean ====
section
/-! DEFINITION. The named operations over registers, stack and memory, and the raising of a fault: spec/00_scope.md R12, 10_state.md R33, 20_memory.md R62, 40_cycle.md R128, 60_exceptions.md R262. -/

namespace Sys2Proof.Machine

/-! ### Registers -/

/-- `V[r]` (R12). -/
def State.getV (s : State) (r : Reg) : Byte := s.v[r]

/-- `V[r] <- b` (R12). -/
def State.setV (s : State) (r : Reg) (b : Byte) : State := { s with v := s.v.set r b }

/-- `I <- w` (R12). -/
def State.setI (s : State) (w : Word) : State := { s with i := w }

/-- `PC <- w` (R12). -/
def State.setPc (s : State) (w : Word) : State := { s with pc := w }

/-- `DT <- b` (R12). -/
def State.setDt (s : State) (b : Byte) : State := { s with dt := b }

/-- `ST <- b` (R12). -/
def State.setSt (s : State) (b : Byte) : State := { s with st := b }

/-- FB replaced as a whole. -/
def State.setFb (s : State) (fb : Framebuffer) : State := { s with fb := fb }

/-- MEM replaced as a whole. -/
def State.setMem (s : State) (m : Memory) : State := { s with mem := m }

/-- `PRESENT <- p` (10_state.md R41). -/
def State.setPresent (s : State) (p : Bool) : State := { s with present := p }

/-- `RUN <- r` (10_state.md R40). -/
def State.setRun (s : State) (r : Run) : State := { s with run := r }

/-- `V[k] <- bytes[k]` for k = 0, 1, …, in that order, starting at register `k`. Registers past VF do not exist and the list's rest is dropped; no instruction gets there. -/
def State.setVs (s : State) (k : Nat) : List Byte → State
  | [] => s
  | b :: rest => if h : k < 16 then (s.setV ⟨k, h⟩ b).setVs (k + 1) rest else s

/-- `V[0], …, V[x]`, in that order. -/
def State.getVs (s : State) (x : Reg) : List Byte := s.v.toList.take (x.val + 1)

/-! ### The stack (10_state.md R33) -/

/-- `push(v)`: nothing when SP = 16. -/
def State.push (s : State) (w : Word) : Option State :=
  if h : s.sp.val < 16 then
    some { s with stack := s.stack.set s.sp.val w, sp := ⟨s.sp.val + 1, Nat.succ_lt_succ h⟩ }
  else none

/-- `pop()`: the entry and the state after it; nothing when SP = 0. STACK[SP] keeps its value (41_control_flow.md R141). -/
def State.pop (s : State) : Option (Word × State) :=
  if h : 0 < s.sp.val then
    some (s.stack[s.sp.val - 1]'(by have := s.sp.isLt; omega),
      { s with sp := ⟨s.sp.val - 1, by have := s.sp.isLt; omega⟩ })
  else none

/-! ### Memory (20_memory.md) -/

/-- The byte listed at an address. -/
def Memory.lookup (a : Nat) : Memory → Option Byte
  | [] => none
  | (b, v) :: rest => if a = b then some v else Memory.lookup a rest

/-- The list without an address. -/
def Memory.erase (a : Nat) : Memory → Memory
  | [] => []
  | (b, v) :: rest => if a = b then Memory.erase a rest else (b, v) :: Memory.erase a rest

/-- The list with a byte at an address, in rising order. -/
def Memory.insert (a : Nat) (x : Byte) : Memory → Memory
  | [] => [(a, x)]
  | (b, v) :: rest =>
    if a < b then (a, x) :: (b, v) :: rest
    else if a = b then (a, x) :: rest
    else (b, v) :: Memory.insert a x rest

/-- What an unlisted address reads as, as far as the spec fixes it (20_memory.md R69): the font byte, and elsewhere no value (log 3). -/
def Memory.unlisted (cfg : Config) (a : Nat) : Option Byte :=
  if h : fontBase ≤ a ∧ a < 0x0A0 then
    some (cfg.font[a - fontBase]'(by have := h.1; have := h.2; simp only [fontBase] at *; omega))
  else none

/-- MEM[a]: the listed byte, or the font byte, or the free byte INIT_MEM(a). -/
def Memory.read (cfg : Config) (m : Memory) (a : Nat) : Byte :=
  match Memory.lookup a m with
  | some v => v
  | none =>
    match Memory.unlisted cfg a with
    | some v => v
    | none => Config.initMem a

/-- MEM[a] <- x, keeping the list canonical. -/
def Memory.write (cfg : Config) (m : Memory) (a : Nat) (x : Byte) : Memory :=
  if Memory.unlisted cfg a = some x then Memory.erase a m else Memory.insert a x m

/-- Every address listed lies above `lo`, is below 4096, rises, and holds a byte other than the one it would read as unlisted. -/
def Memory.wfFrom (cfg : Config) (lo : Nat) : Memory → Bool
  | [] => true
  | (a, x) :: rest =>
    decide (lo ≤ a) && decide (a < memSize) && decide (Memory.unlisted cfg a ≠ some x) &&
      Memory.wfFrom cfg (a + 1) rest

/-- The canonical form of MEM. -/
def Memory.wf (cfg : Config) (m : Memory) : Bool := Memory.wfFrom cfg 0 m

/-- MEM[a] of a state. -/
def State.readByte (s : State) (a : Nat) : Byte := Memory.read s.cfg s.mem a

/-- `MemRead(a, 1)` (R62): the byte, or the out-of-range address. -/
def State.memRead (s : State) (a : Nat) : Except Fault Byte :=
  if memSize ≤ a then .error (.outOfBounds a) else .ok (s.readByte a)

/-- `MemWrite(a, 1, x)` (R62). -/
def State.memWrite (s : State) (a : Nat) (x : Byte) : Except Fault State :=
  if memSize ≤ a then .error (.outOfBounds a) else .ok (s.setMem (Memory.write s.cfg s.mem a x))

/-- MemRead of `a, a+1, …`, `n` bytes in ascending order (20_memory.md R61); the first fault ends it. -/
def State.memReads (s : State) (a : Nat) : Nat → Except Fault (List Byte)
  | 0 => .ok []
  | n + 1 =>
    match s.memRead a with
    | .error f => .error f
    | .ok b =>
      match s.memReads (a + 1) n with
      | .error f => .error f
      | .ok bs => .ok (b :: bs)

/-- MemWrite of a list of bytes at `a, a+1, …` in ascending order (R61); the first fault ends it. -/
def State.memWrites (s : State) (a : Nat) : List Byte → Except Fault State
  | [] => .ok s
  | b :: rest =>
    match s.memWrite a b with
    | .error f => .error f
    | .ok s' => s'.memWrites (a + 1) rest

/-- How many of `n` byte accesses from `a` on lie below 4096, and so come before the raise point of an access that faults. -/
def inRange (a n : Nat) : Nat := min n (memSize - a)

/-! ### Raising a fault -/

/-- `raise F` at the instruction of address `a` (60_exceptions.md R262, 40_cycle.md R128): RUN holds the record; PC, DT and ST are free values. -/
def State.raiseAt (s : State) (a : Word) (op : Option Word) (f : Fault) : State :=
  { s with
    pc := Config.freePc s.draws
    dt := Config.freeDt s.draws
    st := Config.freeSt s.draws
    run := .faulted { fault := f, pc := a, opcode := op } }

/-- `raise F` inside an instruction's effect, where PC = A + 2 (40_cycle.md R122). -/
def State.raise (s : State) (i : Instr) (f : Fault) : State :=
  s.raiseAt (s.pc - 2#16) (some (encode i)) f

/-- Free values in the bytes a faulting store wrote before its raise point: `n` bytes from `a` on, all below 4096 (92 D17). -/
def State.freeBytes (s : State) (a : Nat) : Nat → State
  | 0 => s
  | n + 1 =>
    (s.setMem (Memory.write s.cfg s.mem a (Config.freeMem s.draws a))).freeBytes (a + 1) n

/-- The register file with free values in V[0], …, V[n-1]. -/
def State.freedRegs (s : State) (n : Nat) : Vector Byte 16 :=
  Vector.ofFn fun r : Fin 16 => if r.val < n then Config.freeReg s.draws r else s.v[r]

/-- Free values in the registers a faulting load wrote before its raise point: V[0], …, V[n-1] (92 D17). -/
def State.freeRegs (s : State) (n : Nat) : State := { s with v := s.freedRegs n }

end Sys2Proof.Machine
end

