-- ==== Sys2Proof/Machine/Operands.lean ====
section
/-! DEFINITION. The operand forms: immediates (spec/30_encoding.md R92), the one addressing mode I + k (43_index_memory.md R190), the shift source (42_register_alu.md R169), the font glyph (R193), and the host's input sample (10_state.md R53). -/

namespace Sys2Proof.Machine

/-- `zext_16(NNN)` (R92). -/
def zextAddr (nnn : Addr12) : Word := nnn.setWidth 16

/-- `zext_16(v)` of a byte (R10). -/
def zextByte (b : Byte) : Word := b.setWidth 16

/-- The effective address I + k, an unbounded sum (R190, 20_memory.md R62). -/
def State.ea (s : State) (k : Nat) : Nat := s.i.toNat + k

/-- The address of the glyph of a value, 0x050 + 5·v, unmasked (R193). -/
def glyphAddr (v : Byte) : Word := 0x050#16 + 5#16 * zextByte v

/-- The three decimal digits of a byte: hundreds, tens, ones (R194). -/
def bcdDigits (v : Byte) : List Byte :=
  [BitVec.ofNat 8 (v.toNat / 100), BitVec.ofNat 8 (v.toNat / 10 % 10), BitVec.ofNat 8 (v.toNat % 10)]

/-- The sample of the running Step: the oldest the host has supplied, or a free one (R9, R53; log 2). -/
def State.sample (s : State) : StepInput :=
  match s.inputs with
  | inp :: _ => inp
  | [] => Config.freeInput s.draws

/-- Rand() (R9). -/
def State.rand (s : State) : Byte := s.sample.rand

/-- Held(k) for a key code k (R9, 45_keys_timers.md R240). -/
def State.held (s : State) (k : Byte) : Bool := s.sample.held.getLsbD k.toNat

/-- FirstPressed() (R9, R240). -/
def State.firstPressed (s : State) : Option Nibble := s.sample.pressed

/-- `skip_if(cond)` (41_control_flow.md R140). -/
def State.skipIf (s : State) (cond : Bool) : State :=
  s.setPc (if cond then s.pc + 2#16 else s.pc)

end Sys2Proof.Machine
end

