-- ==== Sys2Proof/Machine/Cycle.lean ====
section
/-! DEFINITION. What a cycle does around the instruction's effect: fetch, advance, tick, the sample's use (spec/40_cycle.md R120 to R125). -/

namespace Sys2Proof.Machine

/-- `MemRead(a, 2)`: the big-endian fetch (20_memory.md R64, 40_cycle.md R121), the lower byte read first. -/
def State.fetch (s : State) (a : Nat) : Except Fault Word :=
  match s.memRead a with
  | .error f => .error f
  | .ok hi =>
    match s.memRead (a + 1) with
    | .error f => .error f
    | .ok lo => .ok (wordOfBytes hi lo)

/-- `PC <- add_16(A, 2)` (R122). -/
def State.advance (s : State) : State := s.setPc (s.pc + 2#16)

/-- A timer one tick later: down by one, floor at 0 (R125). -/
def tick (t : Byte) : Byte := if t = 0x00#8 then 0x00#8 else t - 1#8

/-- The Step's sample is used up, and so is its number among the free values (10_state.md R53; log 2). -/
def State.useSample (s : State) : State :=
  { s with inputs := s.inputs.tail, draws := s.draws + 1 }

/-- The end of a completed cycle: both timers tick (R125) and RUN is RUNNING (10_state.md R40). -/
def State.complete (s : State) : State :=
  { s with dt := tick s.dt, st := tick s.st, run := .running }

/-- The end of a cycle after its effect: a cycle that faulted does not complete (R128). -/
def State.endCycle (s : State) : State :=
  match s.run with
  | .faulted _ => s.useSample
  | .ready | .loaded | .running => s.complete.useSample

/-- Where the host's word goes: the PC when a fetch there succeeds, else 0x200. -/
def State.fetchSlot (s : State) : Word := if s.pc.toNat + 1 < memSize then s.pc else 0x0200#16

/-- A word stored big-endian at an address below 4095. -/
def State.storeWord (s : State) (a : Nat) (op : Word) : State :=
  let s' := s.setMem (Memory.write s.cfg s.mem a (op.extractLsb' 8 8))
  s'.setMem (Memory.write s'.cfg s'.mem (a + 1) (op.extractLsb' 0 8))

/-- RUN after a program has been put into memory from outside: RUNNING stays, everything else becomes LOADED (10_state.md R40, R52). -/
def Run.whenLoaded : Run → Run
  | .running => .running
  | .ready | .loaded | .faulted _ => .loaded

end Sys2Proof.Machine
end

