-- ==== Sys2Proof/Machine/Flags.lean ====
section
/-! DEFINITION. The values VF takes as a flag: spec/10_state.md R24, 42_register_alu.md R160, R167 to R171, 44_display.md R213. -/

namespace Sys2Proof.Machine

/-- The byte of a one-bit flag. -/
def flagByte (b : Bool) : Byte := if b then 0x01#8 else 0x00#8

/-- 8XY4: the carry, 1 exactly when the true sum is ≥ 256 (R160, R167). -/
def carryFlag (x y : Byte) : Byte := flagByte (decide (256 ≤ x.toNat + y.toNat))

/-- 8XY5 and 8XY7: 0 when `minuend < subtrahend`, else 1 (R160, R168, R170). -/
def notBorrowFlag (minuend subtrahend : Byte) : Byte :=
  flagByte (!decide (minuend.toNat < subtrahend.toNat))

/-- 8XY6: the bit shifted out at bit 0 (R169). -/
def shiftedOutRight (v : Byte) : Byte := flagByte (v.getLsbD 0)

/-- 8XYE: the bit shifted out at bit 7 (R171). -/
def shiftedOutLeft (v : Byte) : Byte := flagByte (v.getLsbD 7)

end Sys2Proof.Machine
end

