-- ==== Sys2Proof/Machine/Alu.lean ====
section
/-! DEFINITION. Register loads and the ALU: spec/42_register_alu.md. Effects happen in the order the rule lists them (00_scope.md R13, 92 D8). -/

namespace Sys2Proof.Machine

/-- 6XNN (R161). -/
def execLdByte (x : Reg) (nn : Byte) (s : State) : Host.Outcome State Fault Refusal :=
  .next (s.setV x nn)

/-- 7XNN (R162): wraps, no flag. -/
def execAddByte (x : Reg) (nn : Byte) (s : State) : Host.Outcome State Fault Refusal :=
  .next (s.setV x (s.getV x + nn))

/-- 8XY0 (R163). -/
def execLdReg (x y : Reg) (s : State) : Host.Outcome State Fault Refusal :=
  .next (s.setV x (s.getV y))

/-- 8XY1 (R164). -/
def execOrReg (x y : Reg) (s : State) : Host.Outcome State Fault Refusal :=
  .next (s.setV x (s.getV x ||| s.getV y))

/-- 8XY2 (R165). -/
def execAndReg (x y : Reg) (s : State) : Host.Outcome State Fault Refusal :=
  .next (s.setV x (s.getV x &&& s.getV y))

/-- 8XY3 (R166). -/
def execXorReg (x y : Reg) (s : State) : Host.Outcome State Fault Refusal :=
  .next (s.setV x (s.getV x ^^^ s.getV y))

/-- 8XY4 (R167): the sum, then VF = carry. -/
def execAddReg (x y : Reg) (s : State) : Host.Outcome State Fault Refusal :=
  .next ((s.setV x (s.getV x + s.getV y)).setV VF (carryFlag (s.getV x) (s.getV y)))

/-- 8XY5 (R168): V[X] − V[Y], then VF = not borrow. -/
def execSub (x y : Reg) (s : State) : Host.Outcome State Fault Refusal :=
  .next ((s.setV x (s.getV x - s.getV y)).setV VF (notBorrowFlag (s.getV x) (s.getV y)))

/-- 8XY7 (R170): V[Y] − V[X], then VF = not borrow. -/
def execSubn (x y : Reg) (s : State) : Host.Outcome State Fault Refusal :=
  .next ((s.setV x (s.getV y - s.getV x)).setV VF (notBorrowFlag (s.getV y) (s.getV x)))

/-- 8XY6 (R169). With SHIFT_SOURCE = VX the register is read again after the flag is written; with VY the source is read first. -/
def execShr (x y : Reg) (s : State) : Host.Outcome State Fault Refusal :=
  .next (match s.cfg.shiftSource with
    | .vx =>
      let s' := s.setV VF (shiftedOutRight (s.getV x))
      s'.setV x (s'.getV x >>> 1)
    | .vy => (s.setV VF (shiftedOutRight (s.getV y))).setV x (s.getV y >>> 1))

/-- 8XYE (R171), in the order of `execShr`. -/
def execShl (x y : Reg) (s : State) : Host.Outcome State Fault Refusal :=
  .next (match s.cfg.shiftSource with
    | .vx =>
      let s' := s.setV VF (shiftedOutLeft (s.getV x))
      s'.setV x (s'.getV x <<< 1)
    | .vy => (s.setV VF (shiftedOutLeft (s.getV y))).setV x (s.getV y <<< 1))

/-- CXNN (R172): `r <- Rand(); V[X] <- r & NN`. -/
def execRnd (x : Reg) (nn : Byte) (s : State) : Host.Outcome State Fault Refusal :=
  .next (s.setV x (s.rand &&& nn))

end Sys2Proof.Machine
end

