-- ==== Sys2Proof/Machine/Control.lean ====
section
/-! DEFINITION. Control transfer: spec/41_control_flow.md. PC is A + 2 on entry (40_cycle.md R122). -/

namespace Sys2Proof.Machine

/-- 00EE (R141): `PC <- pop()`. -/
def execRet (bc : Byte) (s : State) : Host.Outcome State Fault Refusal :=
  match s.pop with
  | some (w, s') => .next (s'.setPc w)
  | none => .next (s.raise (.ret bc) .stackUnderflow)

/-- 1NNN (R142). -/
def execJp (nnn : Addr12) (s : State) : Host.Outcome State Fault Refusal :=
  .next (s.setPc (zextAddr nnn))

/-- 2NNN (R143): `push(PC); PC <- NNN`. -/
def execCall (nnn : Addr12) (s : State) : Host.Outcome State Fault Refusal :=
  match s.push s.pc with
  | some s' => .next (s'.setPc (zextAddr nnn))
  | none => .next (s.raise (.call nnn) .stackOverflow)

/-- 3XNN (R144). -/
def execSeByte (x : Reg) (nn : Byte) (s : State) : Host.Outcome State Fault Refusal :=
  .next (s.skipIf (decide (s.getV x = nn)))

/-- 4XNN (R145). -/
def execSneByte (x : Reg) (nn : Byte) (s : State) : Host.Outcome State Fault Refusal :=
  .next (s.skipIf (decide (s.getV x ≠ nn)))

/-- 5XY0 (R146). -/
def execSeReg (x y : Reg) (s : State) : Host.Outcome State Fault Refusal :=
  .next (s.skipIf (decide (s.getV x = s.getV y)))

/-- 9XY0 (R147). -/
def execSneReg (x y : Reg) (s : State) : Host.Outcome State Fault Refusal :=
  .next (s.skipIf (decide (s.getV x ≠ s.getV y)))

/-- BNNN (R148): `PC <- add_16(zext_16(V[0]), zext_16(NNN))`. -/
def execJpV0 (nnn : Addr12) (s : State) : Host.Outcome State Fault Refusal :=
  .next (s.setPc (zextByte (s.getV 0) + zextAddr nnn))

end Sys2Proof.Machine
end

