-- ==== Sys2Proof/Machine/Display.lean ====
section
/-! DEFINITION. The framebuffer, the sprite blitter and the collision detector: spec/44_display.md. -/

namespace Sys2Proof.Machine

/-- FB[y][x]. -/
def Framebuffer.cell (fb : Framebuffer) (y : Fin 32) (x : Fin 64) : Bool := (fb[y])[x]

/-- `clear()` (R210). -/
def Framebuffer.clear : Framebuffer := Vector.replicate 32 (Vector.replicate 64 false)

/-- The screen row that row `y` of a sprite falls on, or none when the policy drops it (R212). -/
def rowIndex (policy : SpriteY) (y : Nat) : Option (Fin 32) :=
  match policy with
  | .wrap => some (Fin.ofNat 32 y)
  | .clip => if h : y < 32 then some ⟨y, h⟩ else none

/-- One turn of the loop of `blit` (R211): pixel `j` of `row`, the most significant bit first, at column (x + j) mod 64. The pair is the screen row and the collision so far. -/
def blitPixel (x : Nat) (row : Byte) (acc : FbRow × Bool) (j : Nat) : FbRow × Bool :=
  if row.getLsbD (7 - j) then
    let xx : Fin 64 := Fin.ofNat 64 (x + j)
    (acc.1.set xx (!acc.1[xx]), acc.2 || acc.1[xx])
  else acc

/-- The eight pixels of one sprite byte on one screen row (R211). -/
def blitLine (x : Nat) (row : Byte) (line : FbRow) : FbRow × Bool :=
  [0, 1, 2, 3, 4, 5, 6, 7].foldl (blitPixel x row) (line, false)

/-- `blit(x, y, row)` (R211): the framebuffer after it and the collision it reports. -/
def blit (policy : SpriteY) (fb : Framebuffer) (x y : Nat) (row : Byte) : Framebuffer × Bool :=
  match rowIndex policy y with
  | none => (fb, false)
  | some yy => (fb.set yy (blitLine x row fb[yy]).1, (blitLine x row fb[yy]).2)

/-- One turn of the loop of `draw` (R213) with its byte already read: V[X] and V[Y] are read anew (92 D11). -/
def State.drawRow (s : State) (x y : Reg) (i : Nat) (row : Byte) : State :=
  let r := blit s.cfg.spriteY s.fb (s.getV x).toNat ((s.getV y).toNat + i) row
  (s.setFb r.1).setV VF (if r.2 then 0x01#8 else s.getV VF)

/-- The rows `i`, `i + 1`, … of a sprite, in that order (R213). -/
def State.drawRows (s : State) (x y : Reg) (i : Nat) : List Byte → State
  | [] => s
  | row :: rest => (s.drawRow x y i row).drawRows x y (i + 1) rest

/-- The framebuffer of a draw that faults: each cell the rows before the raise point changed is a free value (40_cycle.md R128, 92 D17). A row changes every cell it writes, and no two rows meet, so the changed cells are the written ones. -/
def Framebuffer.freed (number : Nat) (before drawn : Framebuffer) : Framebuffer :=
  Vector.ofFn fun yy => Vector.ofFn fun xx =>
    if drawn.cell yy xx = before.cell yy xx then before.cell yy xx
    else Config.freeCell number yy xx

/-- What is left of a draw that faults: free cells, and a free VF, which the draw wrote first. `drawn` is the state the rows before the raise point lead to. -/
def State.freeDraw (s drawn : State) : State :=
  (s.setFb (Framebuffer.freed s.draws s.fb drawn.fb)).setV VF (Config.freeReg s.draws VF)

/-- The sprite bytes before the raise point: those at I, I + 1, … below 4096. -/
def State.readableRows (s : State) (n : Nat) : List Byte :=
  match s.memReads (s.ea 0) (inRange (s.ea 0) n) with
  | .ok rows => rows
  | .error _ => []

/-- 00E0 (R215): clears FB; VF and PRESENT stay. -/
def execCls (_bc : Byte) (s : State) : Host.Outcome State Fault Refusal :=
  .next (s.setFb Framebuffer.clear)

/-- DXYN (R216, R213, R214): VF <- 0, the rows, PRESENT <- true. The bytes are read first: a draw writes no memory, and what a faulting draw drew is free. -/
def execDrw (x y : Reg) (n : Nibble) (s : State) : Host.Outcome State Fault Refusal :=
  match s.memReads (s.ea 0) n.toNat with
  | .ok rows => .next (((s.setV VF 0x00#8).drawRows x y 0 rows).setPresent true)
  | .error f =>
    .next ((s.freeDraw ((s.setV VF 0x00#8).drawRows x y 0 (s.readableRows n.toNat))).raise
      (.drw x y n) f)

end Sys2Proof.Machine
end

