-- ==== Sys2Proof/Machine/Index.lean ====
section
/-! DEFINITION. The index register, loads and stores: spec/43_index_memory.md. A transfer that runs out of memory raises OutOfBounds of its lowest bad address (92 D27); what it wrote before that is a free value (40_cycle.md R128, 92 D17). -/

namespace Sys2Proof.Machine

/-- ANNN (R191). -/
def execLdI (nnn : Addr12) (s : State) : Host.Outcome State Fault Refusal :=
  .next (s.setI (zextAddr nnn))

/-- FX1E (R192): wraps at 16 bits, no flag. -/
def execAddI (x : Reg) (s : State) : Host.Outcome State Fault Refusal :=
  .next (s.setI (s.i + zextByte (s.getV x)))

/-- FX29 (R193). -/
def execLdFont (x : Reg) (s : State) : Host.Outcome State Fault Refusal :=
  .next (s.setI (glyphAddr (s.getV x)))

/-- FX33 (R194). -/
def execLdBcd (x : Reg) (s : State) : Host.Outcome State Fault Refusal :=
  match s.memWrites (s.ea 0) (bcdDigits (s.getV x)) with
  | .ok s' => .next s'
  | .error f => .next ((s.freeBytes (s.ea 0) (inRange (s.ea 0) 3)).raise (.ldBcd x) f)

/-- FX55 (R195): stores V[0], …, V[X] at I, …, I + X. -/
def execStoreRegs (x : Reg) (s : State) : Host.Outcome State Fault Refusal :=
  match s.memWrites (s.ea 0) (s.getVs x) with
  | .ok s' => .next s'
  | .error f =>
    .next ((s.freeBytes (s.ea 0) (inRange (s.ea 0) (x.val + 1))).raise (.storeRegs x) f)

/-- FX65 (R196): loads V[0], …, V[X] from I, …, I + X. -/
def execLoadRegs (x : Reg) (s : State) : Host.Outcome State Fault Refusal :=
  match s.memReads (s.ea 0) (x.val + 1) with
  | .ok bytes => .next (s.setVs 0 bytes)
  | .error f => .next ((s.freeRegs (inRange (s.ea 0) (x.val + 1))).raise (.loadRegs x) f)

end Sys2Proof.Machine
end

