-- ==== Sys2Proof/Machine/KeysTimers.lean ====
section
/-! DEFINITION. Key input and timers: spec/45_keys_timers.md. The tick that ends a cycle is in Machine/Cycle.lean. -/

namespace Sys2Proof.Machine

/-- EX9E (R241). -/
def execSkp (x : Reg) (d : Nibble) (s : State) : Host.Outcome State Fault Refusal :=
  if 0x0F < (s.getV x).toNat then .next (s.raise (.skp x d) (.keyOutOfRange (s.getV x)))
  else .next (s.skipIf (s.held (s.getV x)))

/-- EXA1 (R242). -/
def execSknp (x : Reg) (d : Nibble) (s : State) : Host.Outcome State Fault Refusal :=
  if 0x0F < (s.getV x).toNat then .next (s.raise (.sknp x d) (.keyOutOfRange (s.getV x)))
  else .next (s.skipIf (!s.held (s.getV x)))

/-- FX07 (R243): DT before this cycle's tick. -/
def execLdRegDt (x : Reg) (s : State) : Host.Outcome State Fault Refusal :=
  .next (s.setV x s.dt)

/-- FX0A (R244): the key, or the PC rolled back to this instruction. -/
def execLdRegKey (x : Reg) (s : State) : Host.Outcome State Fault Refusal :=
  .next (match s.firstPressed with
    | some k => s.setV x (k.setWidth 8)
    | none => s.setPc (s.pc - 2#16))

/-- FX15 (R245). -/
def execLdDtReg (x : Reg) (s : State) : Host.Outcome State Fault Refusal :=
  .next (s.setDt (s.getV x))

/-- FX18 (R246). -/
def execLdStReg (x : Reg) (s : State) : Host.Outcome State Fault Refusal :=
  .next (s.setSt (s.getV x))

end Sys2Proof.Machine
end

