-- ==== Sys2Proof/Machine/Step.lean ====
section
/-! DEFINITION. One Step of the block (spec/10_state.md R53, 40_cycle.md R120), and the host's way to put an instruction where the next Step fetches it. -/

namespace Sys2Proof.Machine

/-- `cycle()` of R120: fetch at A = PC, advance, decode, execute, tick. A raise ends it (60_exceptions.md R262). -/
def cycle (s : State) : Host.Outcome State Fault Refusal :=
  match s.fetch s.pc.toNat with
  | .error f => .next (s.raiseAt s.pc none f).endCycle
  | .ok op =>
    match decodeWord op with
    | .error _ => .next (s.raiseAt s.pc (some op) .invalidOpcode).endCycle
    | .ok i =>
      match exec i s.advance with
      | .next s' => .next s'.endCycle
      | .fault f => .fault f
      | .refused r => .refused r

/-- A Step is accepted when RUN is LOADED or RUNNING, and refused in READY and in FAULTED (10_state.md R53). -/
def step (s : State) : Host.Outcome State Fault Refusal :=
  match s.run with
  | .ready => .refused .stepBeforeLoad
  | .faulted _ => .refused .stepAfterFault
  | .loaded => cycle s
  | .running => cycle s

/-- `s` with the instruction of the opcode-table bits `w` stored where the next Step fetches, and RUN such that a Step is accepted: it stands for a Load (10_state.md R52; log 9). -/
def State.withFetchWord (s : State) (nbits w : Nat) : State :=
  ((s.setPc s.fetchSlot).storeWord s.fetchSlot.toNat (BitVec.ofNat 16 (w % 2 ^ nbits))).setRun
    s.run.whenLoaded

end Sys2Proof.Machine
end

