-- ==== Sys2Proof/Machine/HostPort.lean ====
section
/-! DEFINITION. The block's interface at transaction level: Reset, Load, Step, present_ack and the outputs (spec/10_state.md R50 to R56), and the numbers of a fault record (60_exceptions.md R260, R261). -/

namespace Sys2Proof.Machine

/-- Reset (R51, 70_reset_and_hazards.md R290): every component at its R44 value. The machine's parameters stay (R42), and the model's own fields do, so that free values are not used twice. -/
def hostReset (s : State) : State :=
  { State.reset with cfg := s.cfg, inputs := s.inputs, draws := s.draws }

/-- The response to a Load (R52). -/
inductive LoadResponse where
  | ok
  | outOfBounds
  | refused
  deriving DecidableEq, Repr

/-- Load(bytes) (R52): the response and the state after it. -/
def hostLoad (bytes : List Byte) (s : State) : LoadResponse × State :=
  match s.run with
  | .ready =>
    if romFits bytes then
      match s.memWrites progBase bytes with
      | .ok s' => (.ok, s'.setRun .loaded)
      | .error _ => (.outOfBounds, s)
    else (.outOfBounds, s)
  | .loaded | .running | .faulted _ => (.refused, s)

/-- Step(held, pressed, rand) (R53): the host's sample is the one this Step uses. -/
def hostStep (inp : StepInput) (s : State) : Host.Outcome State Fault Refusal :=
  step { s with inputs := inp :: s.inputs }

/-- The response to an accepted Step (R54): OK, or FAULT with the record. -/
inductive StepResponse where
  | ok
  | fault (record : FaultRecord)
  deriving DecidableEq, Repr

/-- The response read off the state after the Step (R54, R262). -/
def State.response (s : State) : StepResponse :=
  match s.run with
  | .faulted r => .fault r
  | .ready | .loaded | .running => .ok

/-- present_ack (R55): PRESENT <- false. -/
def hostPresentAck (s : State) : State := s.setPresent false

/-- The output `fb[y][x]` (R55). -/
def State.fbOut (s : State) (y : Fin 32) (x : Fin 64) : Bool := s.fb.cell y x

/-- The output `sound_on` (R55, 92 D25). -/
def State.soundOn (s : State) : Bool := decide (s.st ≠ 0x00#8)

/-- The output `present_req` (R55). -/
def State.presentReq (s : State) : Bool := s.present

/-- The output `status` (R55). -/
def State.status (s : State) : Run := s.run

/-- The numeric code of a fault (60_exceptions.md R260, 92 D16). -/
def Fault.code : Fault → Nat
  | .invalidOpcode => 1
  | .stackOverflow => 2
  | .stackUnderflow => 3
  | .outOfBounds _ => 4
  | .keyOutOfRange _ => 5

/-- The record's `addr`, for OutOfBounds only (R261). -/
def FaultRecord.addr (r : FaultRecord) : Option Nat :=
  match r.fault with
  | .outOfBounds a => some a
  | .invalidOpcode | .stackOverflow | .stackUnderflow | .keyOutOfRange _ => none

/-- The record's `key`, for KeyOutOfRange only (R261). -/
def FaultRecord.key (r : FaultRecord) : Option Byte :=
  match r.fault with
  | .keyOutOfRange k => some k
  | .invalidOpcode | .stackOverflow | .stackUnderflow | .outOfBounds _ => none

end Sys2Proof.Machine
end

