-- ==== Sys2Proof/Safety.lean ====
section
/-! DEFINITION. What claims about this machine are stated in: which parts of the state an instruction leaves alone (spec/40_cycle.md R127), the faults of R263, the invariant of every reachable state (10_state.md R28, 20_memory.md R62), a run without a fault, the halt loop and the end state of a run (70_reset_and_hazards.md R300). -/

namespace Sys2Proof.Machine

/-- The parts of the architectural state (10_state.md R20). -/
inductive Part where
  | v | i | pc | stack | dt | st | fb | mem | run | present
  deriving DecidableEq, Repr

/-- The part reads in `t` as it read in `s`; memory through `readByte`, at every address. -/
def Part.Kept (s t : State) : Part → Prop
  | .v => ∀ r, t.getV r = s.getV r
  | .i => t.i = s.i
  | .pc => t.pc = s.pc
  | .stack => t.stack = s.stack ∧ t.sp = s.sp
  | .dt => t.dt = s.dt
  | .st => t.st = s.st
  | .fb => ∀ y x, t.fb.cell y x = s.fb.cell y x
  | .mem => ∀ a, t.readByte a = s.readByte a
  | .run => t.run = s.run
  | .present => t.present = s.present

/-- Every part but those listed is as it was. -/
def KeptBut (parts : List Part) (s t : State) : Prop := ∀ p, p ∉ parts → p.Kept s t

/-- Every part but those listed is as it was, and so are the parameters, the host's samples and the counter of the free values: the frame of an instruction's effect. -/
def SameBut (parts : List Part) (s t : State) : Prop :=
  KeptBut parts s t ∧ t.cfg = s.cfg ∧ t.inputs = s.inputs ∧ t.draws = s.draws

/-- Every register but those listed is as it was. -/
def RegsKeptBut (regs : List Reg) (s t : State) : Prop := ∀ r, r ∉ regs → t.getV r = s.getV r

/-- Every byte of memory but the `n` bytes from `a` on reads as it did. -/
def BytesKeptBut (a n : Nat) (s t : State) : Prop :=
  ∀ b, b < a ∨ a + n ≤ b → t.readByte b = s.readByte b

/-- The words of a row of the opcode map (30_encoding.md R95) decode to the row's instruction with its operand fields. -/
def RowDecodes (mask pattern : Word) (f : Word → Instr) : Prop :=
  ∀ op : Word, op &&& mask = pattern → decodeWord op = .ok (f op)

/-- Inside its effect (PC = A + 2) the instruction raises the fault: the record is that of 60_exceptions.md R261, and every part is kept but PC, DT, ST, RUN and those listed (40_cycle.md R128). -/
def RaisesIn (i : Instr) (s : State) (f : Fault) (partly : List Part) (more : State → Prop) : Prop :=
  ∃ t, exec i s = .next t ∧
    t.run = .faulted { fault := f, pc := s.pc - 2#16, opcode := some (encode i) } ∧
    SameBut (.pc :: .dt :: .st :: .run :: partly) s t ∧ more t

/-- The word a fetch at the PC reads (20_memory.md R64), where both bytes exist. -/
def State.opcodeAtPc (s : State) : Word :=
  wordOfBytes (s.readByte s.pc.toNat) (s.readByte (s.pc.toNat + 1))

/-- The next Step is accepted, fetches inside memory, and decodes to `i`. -/
def State.nextIs (s : State) (i : Instr) : Prop :=
  (s.run = .loaded ∨ s.run = .running) ∧ s.pc.toNat + 1 < memSize ∧
    decodeWord s.opcodeAtPc = .ok i

/-- The screen row that sprite row number `y` falls on, as a relation (44_display.md R212). -/
def OnScreenRow (policy : SpriteY) (y : Nat) (yy : Fin 32) : Prop :=
  match policy with
  | .wrap => y % 32 = yy.val
  | .clip => y = yy.val

/-- A one bit of the sprite byte `row` at column `x` falls on screen column `xx` (44_display.md R211). -/
def OnScreenColumn (x : Nat) (row : Byte) (xx : Fin 64) : Prop :=
  ∃ j, j < 8 ∧ (x + j) % 64 = xx.val ∧ row.getLsbD (7 - j) = true

/-- A one bit of the `n`-row sprite at I, drawn at (V[X], V[Y]), falls on the cell (44_display.md R216). -/
def SpriteCovers (s : State) (x y : Reg) (n : Nat) (yy : Fin 32) (xx : Fin 64) : Prop :=
  ∃ k, k < n ∧ OnScreenRow s.cfg.spriteY ((s.getV y).toNat + k) yy ∧
    OnScreenColumn (s.getV x).toNat (s.readByte (s.i.toNat + k)) xx

/-- The fault of its own that the decoded instruction raises in this state, with its address or key, and none where it completes (60_exceptions.md R263; the lowest bad address is 92 D27). -/
def State.ownFault (s : State) : Instr → Option Fault
  | .ret _ => if s.sp.val = 0 then some .stackUnderflow else none
  | .call _ => if s.sp.val = 16 then some .stackOverflow else none
  | .drw _ _ n =>
    if 0 < n.toNat ∧ 4096 ≤ s.i.toNat + n.toNat - 1 then some (.outOfBounds (max s.i.toNat 4096))
    else none
  | .ldBcd _ => if 4096 ≤ s.i.toNat + 2 then some (.outOfBounds (max s.i.toNat 4096)) else none
  | .storeRegs x | .loadRegs x =>
    if 4096 ≤ s.i.toNat + x.val then some (.outOfBounds (max s.i.toNat 4096)) else none
  | .skp x _ | .sknp x _ =>
    if 0xF < (s.getV x).toNat then some (.keyOutOfRange (s.getV x)) else none
  | .cls _ | .jp _ | .seByte _ _ | .sneByte _ _ | .seReg _ _ | .ldByte _ _ | .addByte _ _
  | .ldReg _ _ | .orReg _ _ | .andReg _ _ | .xorReg _ _ | .addReg _ _ | .sub _ _ | .shr _ _
  | .subn _ _ | .shl _ _ | .sneReg _ _ | .ldI _ | .jpV0 _ | .rnd _ _ | .ldRegDt _ | .ldRegKey _
  | .ldDtReg _ | .ldStReg _ | .addI _ | .ldFont _ => none

/-- The instruction can write V[r]: as its destination, as one of V0..V[X] of FX65, or as the flag VF (10_state.md R22, R23). -/
def writesReg (i : Instr) (r : Reg) : Bool :=
  match i with
  | .ldByte x _ | .addByte x _ | .rnd x _ | .ldRegDt x | .ldRegKey x => r == x
  | .ldReg x _ | .orReg x _ | .andReg x _ | .xorReg x _ => r == x
  | .addReg x _ | .sub x _ | .subn x _ | .shr x _ | .shl x _ => r == x || r == VF
  | .loadRegs x => decide (r ≤ x)
  | .drw _ _ _ => r == VF
  | .cls _ | .ret _ | .jp _ | .call _ | .seByte _ _ | .sneByte _ _ | .seReg _ _ | .sneReg _ _
  | .ldI _ | .jpV0 _ | .skp _ _ | .sknp _ _ | .ldDtReg _ | .ldStReg _ | .addI _ | .ldFont _
  | .ldBcd _ | .storeRegs _ => false

/-- The instruction writes VF: as its flag (10_state.md R22) or because it names VF as a destination. -/
def writesVF (i : Instr) : Bool := writesReg i VF

/-- The instruction can leave the PC elsewhere than at A + 2 (10_state.md R27). -/
def movesPc : Instr → Bool
  | .ret _ | .jp _ | .call _ | .seByte _ _ | .sneByte _ _ | .seReg _ _ | .sneReg _ _ | .jpV0 _
  | .skp _ _ | .sknp _ _ | .ldRegKey _ => true
  | .cls _ | .ldByte _ _ | .addByte _ _ | .ldReg _ _ | .orReg _ _ | .andReg _ _ | .xorReg _ _
  | .addReg _ _ | .sub _ _ | .shr _ _ | .subn _ _ | .shl _ _ | .ldI _ | .rnd _ _ | .drw _ _ _
  | .ldRegDt _ | .ldDtReg _ | .ldStReg _ | .addI _ | .ldFont _ | .ldBcd _ | .storeRegs _
  | .loadRegs _ => false

/-- The two states differ at most in stack entries at or above the depth (10_state.md R31). -/
def SameLiveState (s s' : State) : Prop :=
  s' = { s with stack := s'.stack } ∧ ∀ k : Fin 16, k.val < s.sp.val → s'.stack[k] = s.stack[k]

/-- RUN holds a fault record. -/
def Run.isFaulted : Run → Bool
  | .faulted _ => true
  | .ready | .loaded | .running => false

/-- The invariant of the machine: MEM is canonical and lists only addresses below 4096, a live stack entry is a value the PC can hold after an advance, and outside FAULTED the PC is in the range of 10_state.md R28. -/
def State.Inv (s : State) : Prop :=
  Memory.wf s.cfg s.mem = true ∧
  (∀ k : Fin 16, k.val < s.sp.val → s.stack[k].toNat ≤ 0x1000) ∧
  (s.run.isFaulted = false → s.pc.toNat ≤ 0x10FE)

/-- A halt loop (70_reset_and_hazards.md R300): MEM[PC..PC+1] = 0x1NNN with zext_16(NNN) = PC. -/
def State.haltLoop (s : State) : Prop :=
  s.pc.toNat + 1 < memSize ∧
  ∃ nnn : Addr12, nnn.setWidth 16 = s.pc ∧
    wordOfBytes (s.readByte s.pc.toNat) (s.readByte (s.pc.toNat + 1)) = 0x1#4 ++ nnn

/-- `n` Steps from `s` all complete and lead to `t`: the runs a claim about an end state is about (R300). DESIGN CHOICE, log 13: a run is Steps alone, with no present_ack between them, where R300 does not say whether the host has presented the framebuffer. -/
def State.runsTo : Nat → State → State → Prop
  | 0, s, t => t = s
  | n + 1, s, t => ∃ u, step s = .next u ∧ u.run = .running ∧ u.runsTo n t

/-- `t` is the end state of the run from `s`, `n` Steps later: the first cycle boundary that is a halt loop, reached with no fault (R300; log 12). DESIGN CHOICE, log 13: no present_ack falls between the Steps, so PRESENT of `t` is what `s` had or what a DXYN of the run set. -/
def State.endsIn : Nat → State → State → Prop
  | 0, s, t => t = s ∧ (s.run = .loaded ∨ s.run = .running) ∧ s.haltLoop
  | n + 1, s, t => ¬ s.haltLoop ∧ ∃ u, step s = .next u ∧ u.run = .running ∧ u.endsIn n t

end Sys2Proof.Machine
end

