-- ==== Sys2Proof/Certificates/Slice0/Obligations.lean ====
section
/-! DEFINITION. The statements for the provers, from the numbered rules of spec/. Inside an instruction's effect PC is A + 2, A being the instruction's address (spec/40_cycle.md R122), so `exec` is applied to states whose PC is already advanced. -/

open Sys2Proof Sys2Proof.Machine

/-! ### Encoding (spec/30_encoding.md) -/

/-- Decoding the encoding of any instruction gives it back, at every value of every operand (R93, R94). -/
def Obligations.DecodeOfEncode : Prop :=
  ∀ i : Instr, decodeWord (encode i) = .ok i

/-- A decoding word has one meaning: encoding the instruction it decodes to gives the word back (R94). That the ignored nibbles come back is the model's choice, log 5: they are operands of cls, ret, skp and sknp; that such words decode is the spec's own decision 92 D7 (R97). -/
def Obligations.EncodeOfDecode : Prop :=
  ∀ (op : Word) (i : Instr), decodeWord op = .ok i → encode i = op

/-- The opcode map decides decoding (R95, R96): a word decodes exactly when it matches a row, it matches the row of the instruction it decodes to and no second row, and every other word is rejected as an invalid opcode. -/
def Obligations.OpcodeMapDecidesDecoding : Prop :=
  (∀ op : Word, (∃ i, decodeWord op = .ok i) ↔ ∃ r ∈ opcodeMap, op &&& r.1 = r.2) ∧
  (∀ (op : Word) (i : Instr), decodeWord op = .ok i →
    op &&& i.rowMask = i.rowMatch ∧ (i.rowMask, i.rowMatch) ∈ opcodeMap) ∧
  (∀ (op : Word) (r r' : Word × Word), r ∈ opcodeMap → r' ∈ opcodeMap →
    op &&& r.1 = r.2 → op &&& r'.1 = r'.2 → r = r') ∧
  (∀ (op : Word) (e : DecodeError), decodeWord op = .error e → e = .invalidOpcode op)

/-- Words written out from the templates of R95, one or two a family, decode to the instruction they stand for. -/
def Obligations.SampleWordsDecode : Prop :=
  decodeWord 0x00E0#16 = .ok (.cls 0x0E) ∧ decodeWord 0x00EE#16 = .ok (.ret 0x0E) ∧
  decodeWord 0x2300#16 = .ok (.call 0x300) ∧ decodeWord 0x6A42#16 = .ok (.ldByte 0xA 0x42) ∧
  decodeWord 0x8124#16 = .ok (.addReg 1 2) ∧ decodeWord 0x812E#16 = .ok (.shl 1 2) ∧
  decodeWord 0xA2F0#16 = .ok (.ldI 0x2F0) ∧ decodeWord 0xD123#16 = .ok (.drw 1 2 3) ∧
  decodeWord 0xE49E#16 = .ok (.skp 4 0xE) ∧ decodeWord 0xF533#16 = .ok (.ldBcd 5) ∧
  decodeWord 0x5121#16 = .error (.invalidOpcode 0x5121#16)

/-- Alias words decode to the instruction of the conventional word and act exactly like it (R97; the spec marks R97 as its own decision 92 D7; log 5). -/
def Obligations.AliasWordsActLikeTheConventionalWord : Prop :=
  RowDecodes 0xF00F#16 0x0000#16 (fun op => .cls (fieldBC op)) ∧
  RowDecodes 0xF00F#16 0x000E#16 (fun op => .ret (fieldBC op)) ∧
  RowDecodes 0xF0F0#16 0xE090#16 (fun op => .skp (fieldX op) (fieldD op)) ∧
  RowDecodes 0xF0F0#16 0xE0A0#16 (fun op => .sknp (fieldX op) (fieldD op)) ∧
  (∀ (bc : Byte) (s : State), exec (.cls bc) s = exec (.cls 0x0E#8) s) ∧
  (∀ (bc : Byte) (s : State), 0 < s.sp.val → exec (.ret bc) s = exec (.ret 0x0E#8) s) ∧
  (∀ (x : Reg) (d : Nibble) (s : State), (s.getV x).toNat ≤ 0xF →
    exec (.skp x d) s = exec (.skp x 0xE#4) s ∧ exec (.sknp x d) s = exec (.sknp x 0x1#4) s)

/-! ### Register loads and the ALU (spec/42_register_alu.md) -/

/-- 6XNN and 8XY0 write V[X] with the byte or with V[Y]; they set no flag and raise nothing (R161, R163). -/
def Obligations.LoadsWriteTheRegister : Prop :=
  RowDecodes 0xF000#16 0x6000#16 (fun op => .ldByte (fieldX op) (fieldNN op)) ∧
  RowDecodes 0xF00F#16 0x8000#16 (fun op => .ldReg (fieldX op) (fieldY op)) ∧
  (∀ (x : Reg) (nn : Byte) (s : State), ∃ t, exec (.ldByte x nn) s = .next t ∧
    t.getV x = nn ∧ (x ≠ VF → t.getV VF = s.getV VF) ∧ t.run = s.run) ∧
  (∀ (x y : Reg) (s : State), ∃ t, exec (.ldReg x y) s = .next t ∧
    t.getV x = s.getV y ∧ (x ≠ VF → t.getV VF = s.getV VF) ∧ t.run = s.run)

/-- 7XNN adds modulo 256, writes no flag, and raises nothing: VF changes only when X is VF (R162). -/
def Obligations.AddImmediateWrapsAndSetsNoFlag : Prop :=
  RowDecodes 0xF000#16 0x7000#16 (fun op => .addByte (fieldX op) (fieldNN op)) ∧
  ∀ (x : Reg) (nn : Byte) (s : State), ∃ t, exec (.addByte x nn) s = .next t ∧
    (t.getV x).toNat = ((s.getV x).toNat + nn.toNat) % 256 ∧
    (x ≠ VF → t.getV VF = s.getV VF) ∧ t.run = s.run

/-- 8XY1, 8XY2 and 8XY3 write V[X] bit by bit, leave VF alone unless X is VF, and raise nothing (R164, R165, R166). -/
def Obligations.LogicOpsWorkBitwiseAndSetNoFlag : Prop :=
  RowDecodes 0xF00F#16 0x8001#16 (fun op => .orReg (fieldX op) (fieldY op)) ∧
  RowDecodes 0xF00F#16 0x8002#16 (fun op => .andReg (fieldX op) (fieldY op)) ∧
  RowDecodes 0xF00F#16 0x8003#16 (fun op => .xorReg (fieldX op) (fieldY op)) ∧
  ∀ (x y : Reg) (s : State),
    (∃ t, exec (.orReg x y) s = .next t ∧ (x ≠ VF → t.getV VF = s.getV VF) ∧ t.run = s.run ∧
      ∀ k < 8, (t.getV x).getLsbD k = ((s.getV x).getLsbD k || (s.getV y).getLsbD k)) ∧
    (∃ t, exec (.andReg x y) s = .next t ∧ (x ≠ VF → t.getV VF = s.getV VF) ∧ t.run = s.run ∧
      ∀ k < 8, (t.getV x).getLsbD k = ((s.getV x).getLsbD k && (s.getV y).getLsbD k)) ∧
    (∃ t, exec (.xorReg x y) s = .next t ∧ (x ≠ VF → t.getV VF = s.getV VF) ∧ t.run = s.run ∧
      ∀ k < 8, (t.getV x).getLsbD k = ((s.getV x).getLsbD k != (s.getV y).getLsbD k))

/-- 8XY4: V[X] is the sum modulo 256 and VF the carry; with X = VF the carry is what VF holds; nothing is raised (R167). -/
def Obligations.AddRegistersSumAndCarry : Prop :=
  RowDecodes 0xF00F#16 0x8004#16 (fun op => .addReg (fieldX op) (fieldY op)) ∧
  ∀ (x y : Reg) (s : State), ∃ t, exec (.addReg x y) s = .next t ∧
    (x ≠ VF → (t.getV x).toNat = ((s.getV x).toNat + (s.getV y).toNat) % 256) ∧
    (t.getV VF).toNat = (if 256 ≤ (s.getV x).toNat + (s.getV y).toNat then 1 else 0) ∧
    t.run = s.run

/-- 8XY5 and 8XY7: the difference modulo 256, and VF = 0 on a borrow, else 1; with X = VF the flag is what VF holds; nothing is raised (R168, R170). -/
def Obligations.SubtractDifferenceAndNotBorrow : Prop :=
  RowDecodes 0xF00F#16 0x8005#16 (fun op => .sub (fieldX op) (fieldY op)) ∧
  RowDecodes 0xF00F#16 0x8007#16 (fun op => .subn (fieldX op) (fieldY op)) ∧
  ∀ (x y : Reg) (s : State),
    (∃ t, exec (.sub x y) s = .next t ∧
      (x ≠ VF → (t.getV x).toNat = ((s.getV x).toNat + 256 - (s.getV y).toNat) % 256) ∧
      (t.getV VF).toNat = (if (s.getV x).toNat < (s.getV y).toNat then 0 else 1) ∧
      t.run = s.run) ∧
    (∃ t, exec (.subn x y) s = .next t ∧
      (x ≠ VF → (t.getV x).toNat = ((s.getV y).toNat + 256 - (s.getV x).toNat) % 256) ∧
      (t.getV VF).toNat = (if (s.getV y).toNat < (s.getV x).toNat then 0 else 1) ∧
      t.run = s.run)

/-- The frames of the instructions of four shapes: 6XNN, 7XNN, 8XY0 to 8XY3 change V[X] alone; 8XY4, 8XY5, 8XY7 V[X] and VF alone; 3XNN, 4XNN, 5XY0, 9XY0 the PC alone; ANNN, FX1E, FX29 I alone (40_cycle.md R127, whose reading for every row is the spec's own decision 92 D18; log 8). -/
def Obligations.RegisterInstructionsKeepTheRest : Prop :=
  ∀ (x y : Reg) (nn : Byte) (nnn : Addr12) (s : State),
    (∀ i ∈ [Instr.ldByte x nn, .addByte x nn, .ldReg x y, .orReg x y, .andReg x y, .xorReg x y],
      ∃ t, exec i s = .next t ∧ RegsKeptBut [x] s t ∧ SameBut [.v] s t) ∧
    (∀ i ∈ [Instr.addReg x y, .sub x y, .subn x y],
      ∃ t, exec i s = .next t ∧ RegsKeptBut [x, VF] s t ∧ SameBut [.v] s t) ∧
    (∀ i ∈ [Instr.seByte x nn, .sneByte x nn, .seReg x y, .sneReg x y],
      ∃ t, exec i s = .next t ∧ SameBut [.pc] s t) ∧
    (∀ i ∈ [Instr.ldI nnn, .addI x, .ldFont x],
      ∃ t, exec i s = .next t ∧ SameBut [.i] s t)

/-- 8XY6 halves its source and VF is the bit shifted out; with X = VF the result replaces the flag, which under SHIFT_SOURCE = VX leaves 0 (R169; the order of the effects and the VY form are the spec's own decisions 92 D8 and D9, log 7; the frame is R127, read for every row by its decision D18, log 8). -/
def Obligations.ShiftRightHalvesAndShiftsOutBit0 : Prop :=
  RowDecodes 0xF00F#16 0x8006#16 (fun op => .shr (fieldX op) (fieldY op)) ∧
  ∀ (x y : Reg) (s : State), ∃ t, exec (.shr x y) s = .next t ∧
    RegsKeptBut [x, VF] s t ∧ SameBut [.v] s t ∧
    (s.cfg.shiftSource = .vx →
      (x ≠ VF → (t.getV x).toNat = (s.getV x).toNat / 2 ∧
        (t.getV VF).toNat = (s.getV x).toNat % 2) ∧
      (x = VF → t.getV VF = 0x00#8)) ∧
    (s.cfg.shiftSource = .vy →
      (t.getV x).toNat = (s.getV y).toNat / 2 ∧
      (x ≠ VF → (t.getV VF).toNat = (s.getV y).toNat % 2))

/-- 8XYE doubles its source modulo 256 and VF is the bit shifted out; with X = VF the result replaces the flag (R171; the order of the effects and the VY form are the spec's own decisions 92 D8 and D9, log 7; the frame is R127 with its decision D18, log 8). -/
def Obligations.ShiftLeftDoublesAndShiftsOutBit7 : Prop :=
  RowDecodes 0xF00F#16 0x800E#16 (fun op => .shl (fieldX op) (fieldY op)) ∧
  ∀ (x y : Reg) (s : State), ∃ t, exec (.shl x y) s = .next t ∧
    RegsKeptBut [x, VF] s t ∧ SameBut [.v] s t ∧
    (s.cfg.shiftSource = .vx →
      (x ≠ VF → (t.getV x).toNat = 2 * (s.getV x).toNat % 256 ∧
        (t.getV VF).toNat = (s.getV x).toNat / 128) ∧
      (x = VF → (t.getV VF).toNat = if 0x80 ≤ (s.getV VF).toNat then 2 else 0)) ∧
    (s.cfg.shiftSource = .vy →
      (t.getV x).toNat = 2 * (s.getV y).toNat % 256 ∧
      (x ≠ VF → (t.getV VF).toNat = (s.getV y).toNat / 128))

/-- CXNN: V[X] is the Step's random byte and NN, bit by bit, whatever the byte is; a sample the host has supplied is the one used (R172; the free draw is the spec's own decision 92 D15, log 2; the frame is R127 with its decision D18, log 8). -/
def Obligations.RandomIsMaskedByTheImmediate : Prop :=
  RowDecodes 0xF000#16 0xC000#16 (fun op => .rnd (fieldX op) (fieldNN op)) ∧
  ∀ (x : Reg) (nn : Byte) (s : State), ∃ t, exec (.rnd x nn) s = .next t ∧
    (∀ k < 8, (t.getV x).getLsbD k = (s.rand.getLsbD k && nn.getLsbD k)) ∧
    (∀ inp rest, s.inputs = inp :: rest → s.rand = inp.rand) ∧
    RegsKeptBut [x] s t ∧ SameBut [.v] s t

/-! ### Control transfer (spec/41_control_flow.md) -/

/-- 1NNN sets PC to exactly NNN; BNNN sets it to V0 + NNN, a sum that never wraps, whatever nibble b is; nothing else changes (R142, R148; the width of the sum is the spec's own decision 92 D6, which never acts, and the frame its D18; log 8). -/
def Obligations.JumpsSetPcOnly : Prop :=
  RowDecodes 0xF000#16 0x1000#16 (fun op => .jp (fieldNNN op)) ∧
  RowDecodes 0xF000#16 0xB000#16 (fun op => .jpV0 (fieldNNN op)) ∧
  (∀ (nnn : Addr12) (s : State), ∃ t, exec (.jp nnn) s = .next t ∧
    t.pc.toNat = nnn.toNat ∧ SameBut [.pc] s t) ∧
  (∀ (nnn : Addr12) (s : State), ∃ t, exec (.jpV0 nnn) s = .next t ∧
    t.pc.toNat = (s.getV 0).toNat + nnn.toNat ∧ t.pc.toNat ≤ 0x10FE ∧ SameBut [.pc] s t)

/-- 2NNN pushes the address after the call and jumps while SP < 16, the 16th push included; with SP = 16 it raises StackOverflow and pushes nothing (R143; the frame is R127 with the spec's own decision 92 D18, log 8, and what a raise keeps is R128 and R261 with its D16 and D17, logs 4 and 6). -/
def Obligations.CallPushesAndJumps : Prop :=
  RowDecodes 0xF000#16 0x2000#16 (fun op => .call (fieldNNN op)) ∧
  (∀ (nnn : Addr12) (s : State), s.sp.val < 16 → ∃ t, exec (.call nnn) s = .next t ∧
    t.pc.toNat = nnn.toNat ∧ t.sp.val = s.sp.val + 1 ∧
    (∀ k : Fin 16, k.val = s.sp.val → t.stack[k] = s.pc) ∧
    (∀ k : Fin 16, k.val ≠ s.sp.val → t.stack[k] = s.stack[k]) ∧
    SameBut [.pc, .stack] s t) ∧
  (∀ (nnn : Addr12) (s : State), s.sp.val = 16 →
    RaisesIn (.call nnn) s .stackOverflow [] fun _ => True)

/-- 00EE pops the PC while SP > 0 and leaves the entry where it was; with SP = 0 it raises StackUnderflow and changes nothing else (R141; the frame is R127 with the spec's own decision 92 D18, log 8, and what a raise keeps is R128 and R261 with its D16 and D17, logs 4 and 6). -/
def Obligations.ReturnPopsThePc : Prop :=
  (∀ (bc : Byte) (s : State), 0 < s.sp.val → ∃ t, exec (.ret bc) s = .next t ∧
    t.sp.val + 1 = s.sp.val ∧ (∀ k : Fin 16, k.val = t.sp.val → t.pc = s.stack[k]) ∧
    t.stack = s.stack ∧ SameBut [.pc, .stack] s t) ∧
  (∀ (bc : Byte) (s : State), s.sp.val = 0 →
    RaisesIn (.ret bc) s .stackUnderflow [] fun _ => True)

/-- 3XNN and 4XNN skip two bytes when V[X] is, or is not, the byte; they set no flag and raise nothing (R144, R145). -/
def Obligations.ByteCompareSkips : Prop :=
  RowDecodes 0xF000#16 0x3000#16 (fun op => .seByte (fieldX op) (fieldNN op)) ∧
  RowDecodes 0xF000#16 0x4000#16 (fun op => .sneByte (fieldX op) (fieldNN op)) ∧
  ∀ (x : Reg) (nn : Byte) (s : State),
    (∃ t, exec (.seByte x nn) s = .next t ∧ t.getV VF = s.getV VF ∧ t.run = s.run ∧
      (s.getV x = nn → t.pc = s.pc + 2#16) ∧ (s.getV x ≠ nn → t.pc = s.pc)) ∧
    (∃ t, exec (.sneByte x nn) s = .next t ∧ t.getV VF = s.getV VF ∧ t.run = s.run ∧
      (s.getV x ≠ nn → t.pc = s.pc + 2#16) ∧ (s.getV x = nn → t.pc = s.pc))

/-- 5XY0 and 9XY0 skip two bytes when V[X] and V[Y] are, or are not, equal, set no flag and raise nothing; words of class 5 and 9 with another last nibble are invalid (R146, R147). -/
def Obligations.RegisterCompareSkips : Prop :=
  RowDecodes 0xF00F#16 0x5000#16 (fun op => .seReg (fieldX op) (fieldY op)) ∧
  RowDecodes 0xF00F#16 0x9000#16 (fun op => .sneReg (fieldX op) (fieldY op)) ∧
  (∀ op : Word, (fieldA op = 0x5#4 ∨ fieldA op = 0x9#4) → fieldD op ≠ 0x0#4 →
    decodeWord op = .error (.invalidOpcode op)) ∧
  ∀ (x y : Reg) (s : State),
    (∃ t, exec (.seReg x y) s = .next t ∧ t.getV VF = s.getV VF ∧ t.run = s.run ∧
      (s.getV x = s.getV y → t.pc = s.pc + 2#16) ∧ (s.getV x ≠ s.getV y → t.pc = s.pc)) ∧
    (∃ t, exec (.sneReg x y) s = .next t ∧ t.getV VF = s.getV VF ∧ t.run = s.run ∧
      (s.getV x ≠ s.getV y → t.pc = s.pc + 2#16) ∧ (s.getV x = s.getV y → t.pc = s.pc))

/-- A call and the return it reaches: two completed Steps later PC is the address after the call and the stack depth is what it was, and registers, I, screen, memory and PRESENT are kept (R141, R143, 95_test_vectors.md S5; what is kept is R127 with the spec's own decision 92 D18, log 8; that no present_ack falls between the two Steps is the model's choice, log 13). -/
def Obligations.CallThenReturnComesBack : Prop :=
  ∀ (s : State) (nnn : Addr12) (bc : Byte), s.nextIs (.call nnn) → s.sp.val < 16 →
    s.fetch nnn.toNat = .ok (encode (.ret bc)) →
    ∃ u, s.runsTo 2 u ∧ u.pc = s.pc + 2#16 ∧ u.sp = s.sp ∧ KeptBut [.pc, .stack, .dt, .st, .run] s u

/-! ### Index register, loads and stores (spec/43_index_memory.md) -/

/-- ANNN, FX1E and FX29 set I to NNN, to I + V[X] modulo 65536, and to 0x050 + 5·V[X] with V[X] unmasked; VF is never written and nothing is raised (R191, R192, R193). -/
def Obligations.IndexSetters : Prop :=
  RowDecodes 0xF000#16 0xA000#16 (fun op => .ldI (fieldNNN op)) ∧
  RowDecodes 0xF0FF#16 0xF01E#16 (fun op => .addI (fieldX op)) ∧
  RowDecodes 0xF0FF#16 0xF029#16 (fun op => .ldFont (fieldX op)) ∧
  (∀ (nnn : Addr12) (s : State), ∃ t, exec (.ldI nnn) s = .next t ∧
    t.i.toNat = nnn.toNat ∧ t.getV VF = s.getV VF ∧ t.run = s.run) ∧
  (∀ (x : Reg) (s : State), ∃ t, exec (.addI x) s = .next t ∧
    t.i.toNat = (s.i.toNat + (s.getV x).toNat) % 65536 ∧
    t.getV VF = s.getV VF ∧ t.run = s.run) ∧
  (∀ (x : Reg) (s : State), ∃ t, exec (.ldFont x) s = .next t ∧
    t.i.toNat = 0x050 + 5 * (s.getV x).toNat ∧ t.getV VF = s.getV VF ∧ t.run = s.run)

/-- FX33 with I + 2 < 4096 stores the hundreds, tens and ones of V[X] at I, I+1, I+2 and changes no other byte (R194, its completing case; the frame is R127 with the spec's own decision 92 D18, log 8). -/
def Obligations.BcdStoresTheThreeDigits : Prop :=
  RowDecodes 0xF0FF#16 0xF033#16 (fun op => .ldBcd (fieldX op)) ∧
  ∀ (x : Reg) (s : State), s.i.toNat + 2 < 4096 → ∃ t, exec (.ldBcd x) s = .next t ∧
    (t.readByte s.i.toNat).toNat = (s.getV x).toNat / 100 ∧
    (t.readByte (s.i.toNat + 1)).toNat = (s.getV x).toNat / 10 % 10 ∧
    (t.readByte (s.i.toNat + 2)).toNat = (s.getV x).toNat % 10 ∧
    BytesKeptBut s.i.toNat 3 s t ∧ SameBut [.mem] s t

/-- FX55 with I + X < 4096 stores V[0], …, V[X] at I, …, I + X, changes no other byte, and keeps I (R195, its completing case; that I stays, and the frame of R127, rest on the spec's own decision 92 D18; log 8). -/
def Obligations.StoreRegistersAtIndex : Prop :=
  RowDecodes 0xF0FF#16 0xF055#16 (fun op => .storeRegs (fieldX op)) ∧
  ∀ (x : Reg) (s : State), s.i.toNat + x.val < 4096 → ∃ t, exec (.storeRegs x) s = .next t ∧
    (∀ k : Reg, k ≤ x → t.readByte (s.i.toNat + k.val) = s.getV k) ∧
    BytesKeptBut s.i.toNat (x.val + 1) s t ∧ SameBut [.mem] s t

/-- FX65 with I + X < 4096 loads V[0], …, V[X] from I, …, I + X, keeps the other registers, all memory, and I (R196, its completing case; that I stays, and the frame of R127, rest on the spec's own decision 92 D18; log 8). -/
def Obligations.LoadRegistersFromIndex : Prop :=
  RowDecodes 0xF0FF#16 0xF065#16 (fun op => .loadRegs (fieldX op)) ∧
  ∀ (x : Reg) (s : State), s.i.toNat + x.val < 4096 → ∃ t, exec (.loadRegs x) s = .next t ∧
    (∀ k : Reg, k ≤ x → t.getV k = s.readByte (s.i.toNat + k.val)) ∧
    (∀ k : Reg, x < k → t.getV k = s.getV k) ∧ SameBut [.v] s t

/-- FX55, then any change of the registers, then FX65 with the same X and I gives V[0], …, V[X] back, and I and all else but registers and memory are as before (R195, R196, 95_test_vectors.md S9; that I stays, and the frame of R127, rest on the spec's own decision 92 D18; log 8). -/
def Obligations.StoreThenLoadRoundTrips : Prop :=
  ∀ (x : Reg) (s : State) (w : Vector Byte 16), s.i.toNat + x.val < 4096 →
    ∃ t u, exec (.storeRegs x) s = .next t ∧
      exec (.loadRegs x) { t with v := w } = .next u ∧
      (∀ k : Reg, k ≤ x → u.getV k = s.getV k) ∧ u.i = s.i ∧ SameBut [.v, .mem] s u

/-- FX33, FX55 and FX65 whose last byte lies at or above 4096 raise OutOfBounds of the lowest bad address; bytes outside the transfer, and registers not loaded before the raise, are kept (R194, R195, R196, 40_cycle.md R128; the address and the free partial effects are the spec's own decisions 92 D17 and D27; log 4). -/
def Obligations.TransfersOutOfMemoryFault : Prop :=
  ∀ (x : Reg) (s : State),
    (4096 ≤ s.i.toNat + 2 →
      RaisesIn (.ldBcd x) s (.outOfBounds (max s.i.toNat 4096)) [.mem]
        (BytesKeptBut s.i.toNat 3 s)) ∧
    (4096 ≤ s.i.toNat + x.val →
      RaisesIn (.storeRegs x) s (.outOfBounds (max s.i.toNat 4096)) [.mem]
        (BytesKeptBut s.i.toNat (x.val + 1) s)) ∧
    (4096 ≤ s.i.toNat + x.val →
      RaisesIn (.loadRegs x) s (.outOfBounds (max s.i.toNat 4096)) [.v]
        fun t => ∀ k : Reg, 4096 ≤ s.i.toNat + k.val → t.getV k = s.getV k)

/-! ### Memory and fetch (spec/20_memory.md, 40_cycle.md) -/

/-- A byte write below 4096 completes, is what a read there gives, and changes no other byte; a byte access at or above 4096 raises OutOfBounds of that address (R62, R72; the unbounded address is the spec's own decision 92 D4). -/
def Obligations.MemoryReadsTheLastWrite : Prop :=
  (∀ (s : State) (a : Nat) (x : Byte), a < 4096 → ∃ t, s.memWrite a x = .ok t ∧
    t.memRead a = .ok x ∧ (∀ b, b ≠ a → t.memRead b = s.memRead b) ∧ SameBut [.mem] s t) ∧
  (∀ (s : State) (a : Nat) (x : Byte), 4096 ≤ a →
    s.memRead a = .error (.outOfBounds a) ∧ s.memWrite a x = .error (.outOfBounds a))

/-- The fetch reads two consecutive bytes as one big-endian word, at odd and even addresses alike, and sees a word just stored there (R64; that odd addresses fetch alike is R66, the spec's own decision 92 D5, log 8; that a store is seen is R76, which the spec derives). -/
def Obligations.FetchIsBigEndianAndSeesStores : Prop :=
  (∀ (s : State) (a : Nat), a + 1 < 4096 → ∃ w, s.fetch a = .ok w ∧
    w.toNat = (s.readByte a).toNat * 256 + (s.readByte (a + 1)).toNat) ∧
  (∀ (s : State) (a : Nat) (op : Word), a + 1 < 4096 → ∃ t,
    s.memWrites a (bytesOfWord op) = .ok t ∧ t.fetch a = .ok op)

/-- A Step whose second fetch byte lies at or above 4096 executes nothing and raises OutOfBounds, with address 0x1000 when PC = 0x0FFF and PC otherwise, and no opcode in the record; all but PC, DT, ST and RUN is kept (40_cycle.md R121, R128, 60_exceptions.md R261, R262; the recorded address is the spec's own decision 92 D27, FAULTED its D16; log 6). -/
def Obligations.FetchBeyondMemoryFaults : Prop :=
  ∀ s : State, (s.run = .loaded ∨ s.run = .running) → 4096 ≤ s.pc.toNat + 1 →
    ∃ u, step s = .next u ∧
      u.run = .faulted
        { fault := .outOfBounds (if s.pc = 0x0FFF#16 then 0x1000 else s.pc.toNat),
          pc := s.pc, opcode := none } ∧
      KeptBut [.pc, .dt, .st, .run] s u ∧ u.cfg = s.cfg

/-- A Step that fetches a word matching no row executes nothing and raises InvalidOpcode with that word; all but PC, DT, ST and RUN is kept (40_cycle.md R123, R128, 30_encoding.md R96, 60_exceptions.md R261; FAULTED is the spec's own decision 92 D16; log 6). -/
def Obligations.UnlistedWordFaults : Prop :=
  ∀ s : State, (s.run = .loaded ∨ s.run = .running) → s.pc.toNat + 1 < 4096 →
    (∀ r ∈ opcodeMap, s.opcodeAtPc &&& r.1 ≠ r.2) →
    ∃ u, step s = .next u ∧
      u.run = .faulted { fault := .invalidOpcode, pc := s.pc, opcode := some s.opcodeAtPc } ∧
      KeptBut [.pc, .dt, .st, .run] s u ∧ u.cfg = s.cfg

/-- A Step runs the decoded instruction: where the two bytes at PC decode to `i`, `step` is `exec i` with PC advanced by 2, followed by the end of the cycle. A completed cycle ticks both timers with a floor at 0 and sets RUN to RUNNING; a faulted one keeps what the raise left; either uses up the Step's sample (R120, R122, R124, R125; RUN is R40 and R53; what a faulted cycle keeps is R128 with the spec's own decision 92 D16, log 6; that `inputs` loses its first sample and `draws` goes up by one is the model's choice, logs 2 and 4). -/
def Obligations.StepRunsTheDecodedInstruction : Prop :=
  ∀ (s t : State) (i : Instr), s.nextIs i → exec i (s.setPc (s.pc + 2#16)) = .next t →
    (t.run.isFaulted = false → step s = .next
      { t with
        dt := BitVec.ofNat 8 (t.dt.toNat - 1), st := BitVec.ofNat 8 (t.st.toNat - 1),
        run := .running, inputs := t.inputs.tail, draws := t.draws + 1 }) ∧
    (t.run.isFaulted = true → step s = .next
      { t with inputs := t.inputs.tail, draws := t.draws + 1 })

/-- Every completed cycle whose instruction is neither FX15 nor FX18 leaves DT and ST one lower than before it, floored at 0 (R125). -/
def Obligations.TimersTickOnEveryCompletedCycle : Prop :=
  ∀ (s u : State) (i : Instr), s.nextIs i → step s = .next u → u.run = .running →
    ((∀ x, i ≠ .ldDtReg x) → u.dt.toNat = s.dt.toNat - 1) ∧
    ((∀ x, i ≠ .ldStReg x) → u.st.toNat = s.st.toNat - 1)

/-! ### Framebuffer (spec/44_display.md) -/

/-- 00E0 makes every cell false and changes nothing else, VF and PRESENT included (R215 with R210; that PRESENT stays is the spec's own decision 92 D12, log 7; that nothing else changes is R127 with its decision D18, log 8). -/
def Obligations.ClearScreenClearsEveryCell : Prop :=
  ∀ (bc : Byte) (s : State), ∃ t, exec (.cls bc) s = .next t ∧
    (∀ y x, t.fb.cell y x = false) ∧ SameBut [.fb] s t

/-- blit: on the sprite's screen row each cell is XORed with its bit, the most significant bit leftmost and columns modulo 64; the collision is reported exactly when a lit cell meets a one bit; a row the policy drops changes nothing (R211; the rows are R212, the spec's own decision 92 D10: the parameter SPRITE_Y, an unbounded row number, rows below the screen dropped under CLIP; log 7). -/
def Obligations.BlitXorsAndDetectsCollision : Prop :=
  ∀ (policy : SpriteY) (fb : Framebuffer) (x y : Nat) (row : Byte),
    (∀ yy xx, (blit policy fb x y row).1.cell yy xx = true ↔
      ¬ (fb.cell yy xx = true ↔ OnScreenRow policy y yy ∧ OnScreenColumn x row xx)) ∧
    ((blit policy fb x y row).2 = true ↔
      ∃ yy xx, OnScreenRow policy y yy ∧ OnScreenColumn x row xx ∧ fb.cell yy xx = true)

/-- Blitting the same byte twice at the same place restores every cell, and the second blit collides exactly when the first turned a cell on (R217 part 1). -/
def Obligations.BlitTwiceRestores : Prop :=
  ∀ (policy : SpriteY) (fb : Framebuffer) (x y : Nat) (row : Byte),
    (blit policy (blit policy fb x y row).1 x y row).1 = fb ∧
    ((blit policy (blit policy fb x y row).1 x y row).2 = true ↔
      ∃ yy xx, fb.cell yy xx = false ∧ (blit policy fb x y row).1.cell yy xx = true)

/-- DXYN whose N bytes lie in memory completes for every X and Y: it changes VF, the framebuffer and PRESENT alone, VF is 0 or 1, and PRESENT is true; with N = 0 no cell changes and VF is 0 (R216, R214; what sets PRESENT is the spec's own decision 92 D12, log 7; the frame is R127 with its decision D18, log 8). -/
def Obligations.DrawCompletesInsideMemory : Prop :=
  RowDecodes 0xF000#16 0xD000#16 (fun op => .drw (fieldX op) (fieldY op) (fieldD op)) ∧
  ∀ (x y : Reg) (n : Nibble) (s : State), n = 0#4 ∨ s.i.toNat + n.toNat - 1 < 4096 →
    ∃ t, exec (.drw x y n) s = .next t ∧ t.present = true ∧
      (t.getV VF = 0x00#8 ∨ t.getV VF = 0x01#8) ∧
      (n = 0#4 → t.getV VF = 0x00#8 ∧ ∀ yy xx, t.fb.cell yy xx = s.fb.cell yy xx) ∧
      RegsKeptBut [VF] s t ∧ SameBut [.v, .fb, .present] s t

/-- DXYN with neither X nor Y VF: a cell changes exactly when a one bit of the sprite falls on it, and VF is 1 exactly when such a cell was lit, under either vertical policy (R213, R216 with R211 and R212; SPRITE_Y is the open parameter of 92 D10). -/
def Obligations.DrawXorsTheSpriteAndReportsCollision : Prop :=
  ∀ (x y : Reg) (n : Nibble) (s : State), x ≠ VF → y ≠ VF →
    (n = 0#4 ∨ s.i.toNat + n.toNat - 1 < 4096) →
    ∃ t, exec (.drw x y n) s = .next t ∧
      (∀ yy xx, t.fb.cell yy xx = true ↔
        ¬ (s.fb.cell yy xx = true ↔ SpriteCovers s x y n.toNat yy xx)) ∧
      ((∃ yy xx, SpriteCovers s x y n.toNat yy xx ∧ s.fb.cell yy xx = true) →
        t.getV VF = 0x01#8) ∧
      ((∀ yy xx, SpriteCovers s x y n.toNat yy xx → s.fb.cell yy xx = false) →
        t.getV VF = 0x00#8)

/-- Drawing the same sprite twice restores the framebuffer, and the second draw reports a collision when the first lit a cell, for X and Y other than VF (R217 part 3). -/
def Obligations.DrawTwiceRestores : Prop :=
  ∀ (x y : Reg) (n : Nibble) (s : State), x ≠ VF → y ≠ VF →
    (n = 0#4 ∨ s.i.toNat + n.toNat - 1 < 4096) →
    ∃ t u, exec (.drw x y n) s = .next t ∧ exec (.drw x y n) t = .next u ∧
      (∀ yy xx, u.fb.cell yy xx = s.fb.cell yy xx) ∧
      ((∃ yy xx, s.fb.cell yy xx = false ∧ t.fb.cell yy xx = true) → u.getV VF = 0x01#8)

/-- DXYN for every X and Y, VF included, row by row: VF starts at 0, row i is the byte at I + i blitted at (V[X], V[Y] + i), a coordinate named VF reads the VF of that moment, and a colliding row makes VF 1. The value VF had before the draw is never seen (R213; reading the coordinates anew is the spec's own decision 92 D11; log 7). -/
def Obligations.DrawGoesRowByRow : Prop :=
  ∀ (x y : Reg) (n : Nibble) (s : State), (n = 0#4 ∨ s.i.toNat + n.toNat - 1 < 4096) →
    ∃ (t : State) (fb : Nat → Framebuffer) (vf : Nat → Byte),
      exec (.drw x y n) s = .next t ∧ fb 0 = s.fb ∧ vf 0 = 0x00#8 ∧
      t.fb = fb n.toNat ∧ t.getV VF = vf n.toNat ∧
      ∀ k < n.toNat, ∀ cx cy : Byte,
        cx = (if x = VF then vf k else s.getV x) → cy = (if y = VF then vf k else s.getV y) →
        fb (k + 1) = (blit s.cfg.spriteY (fb k) cx.toNat (cy.toNat + k)
          (s.readByte (s.i.toNat + k))).1 ∧
        vf (k + 1) = if (blit s.cfg.spriteY (fb k) cx.toNat (cy.toNat + k)
          (s.readByte (s.i.toNat + k))).2 then 0x01#8 else vf k

/-- DXYN that needs a byte at or above 4096 raises OutOfBounds of the lowest one, sets no PRESENT and keeps every register but VF. Every cell that no sprite row with a byte below 4096 covers is kept: for X and Y other than VF the rows at (V[X], V[Y]), and for every X and Y the rows with VF at 0 or at 1, the values VF can have while drawing (R216, R214, 40_cycle.md R128, 60_exceptions.md R261; the free partial effects are the spec's own decision 92 D17, log 4, the coordinates its D11, log 7, the record its D16 and D27, log 6). -/
def Obligations.DrawOutOfMemoryFaults : Prop :=
  ∀ (x y : Reg) (n : Nibble) (s : State), n ≠ 0#4 → 4096 ≤ s.i.toNat + n.toNat - 1 →
    RaisesIn (.drw x y n) s (.outOfBounds (max s.i.toNat 4096)) [.v, .fb] fun t =>
      RegsKeptBut [VF] s t ∧
      (x ≠ VF → y ≠ VF → ∀ yy xx, ¬ SpriteCovers s x y (min n.toNat (4096 - s.i.toNat)) yy xx →
        t.fb.cell yy xx = s.fb.cell yy xx) ∧
      (∀ yy xx,
        ¬ SpriteCovers (s.setV VF 0x00#8) x y (min n.toNat (4096 - s.i.toNat)) yy xx →
        ¬ SpriteCovers (s.setV VF 0x01#8) x y (min n.toNat (4096 - s.i.toNat)) yy xx →
        t.fb.cell yy xx = s.fb.cell yy xx)

/-! ### Keys and timers (spec/45_keys_timers.md) -/

/-- EX9E and EXA1 with a key code up to 0xF skip exactly when the Step's sample has that key held, or not held; with a larger one they raise KeyOutOfRange of it (R241, R242 with R240; KeyOutOfRange is the spec's own decision 92 D13, log 7; the frame is R127 with its decision D18, log 8; the record and what a raise keeps are R261 and R128 with its decisions D16 and D17, logs 4 and 6). -/
def Obligations.KeySkipsReadTheHeldKeys : Prop :=
  ∀ (x : Reg) (d : Nibble) (s : State),
    ((s.getV x).toNat ≤ 0xF →
      (∃ t, exec (.skp x d) s = .next t ∧ SameBut [.pc] s t ∧
        t.pc = if s.sample.held.getLsbD (s.getV x).toNat then s.pc + 2#16 else s.pc) ∧
      (∃ t, exec (.sknp x d) s = .next t ∧ SameBut [.pc] s t ∧
        t.pc = if s.sample.held.getLsbD (s.getV x).toNat then s.pc else s.pc + 2#16)) ∧
    (0xF < (s.getV x).toNat →
      RaisesIn (.skp x d) s (.keyOutOfRange (s.getV x)) [] (fun _ => True) ∧
      RaisesIn (.sknp x d) s (.keyOutOfRange (s.getV x)) [] (fun _ => True))

/-- FX0A writes the pressed key's code to V[X], or moves PC back to itself and changes nothing else (R244; the frame is R127 with the spec's own decision 92 D18, log 8). -/
def Obligations.KeyWaitWritesTheKeyOrRetries : Prop :=
  RowDecodes 0xF0FF#16 0xF00A#16 (fun op => .ldRegKey (fieldX op)) ∧
  ∀ (x : Reg) (s : State), ∃ t, exec (.ldRegKey x) s = .next t ∧
    (∀ k, s.sample.pressed = some k →
      (t.getV x).toNat = k.toNat ∧ RegsKeptBut [x] s t ∧ SameBut [.v] s t) ∧
    (s.sample.pressed = none → t.pc = s.pc - 2#16 ∧ SameBut [.pc] s t)

/-- FX07 copies DT to V[X]; FX15 and FX18 copy V[X] to DT and to ST; nothing else changes (the effects of R243, R245, R246; the frame is R127 with the spec's own decision 92 D18, log 8). -/
def Obligations.TimerMoves : Prop :=
  RowDecodes 0xF0FF#16 0xF007#16 (fun op => .ldRegDt (fieldX op)) ∧
  RowDecodes 0xF0FF#16 0xF015#16 (fun op => .ldDtReg (fieldX op)) ∧
  RowDecodes 0xF0FF#16 0xF018#16 (fun op => .ldStReg (fieldX op)) ∧
  ∀ (x : Reg) (s : State),
    (∃ t, exec (.ldRegDt x) s = .next t ∧ t.getV x = s.dt ∧ RegsKeptBut [x] s t ∧
      SameBut [.v] s t) ∧
    (∃ t, exec (.ldDtReg x) s = .next t ∧ t.dt = s.getV x ∧ SameBut [.dt] s t) ∧
    (∃ t, exec (.ldStReg x) s = .next t ∧ t.st = s.getV x ∧ SameBut [.st] s t)

/-- The order of effect and tick in a whole Step: after FX15 or FX18 the timer is V[X] − 1 floored at 0, so sound_on needs V[X] ≥ 2; FX07 reads DT before the tick (R243, R245, R246, 70_reset_and_hazards.md R295). -/
def Obligations.TimerWriteIsTickedInItsOwnCycle : Prop :=
  ∀ (s : State) (x : Reg),
    (s.nextIs (.ldDtReg x) → ∃ u, step s = .next u ∧ u.run = .running ∧
      u.dt.toNat = (s.getV x).toNat - 1) ∧
    (s.nextIs (.ldStReg x) → ∃ u, step s = .next u ∧ u.run = .running ∧
      u.st.toNat = (s.getV x).toNat - 1 ∧ (u.soundOn = true ↔ 2 ≤ (s.getV x).toNat)) ∧
    (s.nextIs (.ldRegDt x) → ∃ u, step s = .next u ∧ u.run = .running ∧
      u.getV x = s.dt ∧ u.dt.toNat = s.dt.toNat - 1)

/-- A waiting FX0A is a complete cycle: PC stays on it, both timers tick, and nothing else the program can see changes (R244, 40_cycle.md R125; that nothing else changes is R127 with the spec's own decision 92 D18, log 8). -/
def Obligations.WaitingStepOnlyTicks : Prop :=
  ∀ (s : State) (x : Reg), s.nextIs (.ldRegKey x) → s.sample.pressed = none →
    ∃ u, step s = .next u ∧ u.run = .running ∧ u.pc = s.pc ∧
      u.dt.toNat = s.dt.toNat - 1 ∧ u.st.toNat = s.st.toNat - 1 ∧
      KeptBut [.dt, .st, .run] s u

/-! ### The whole machine -/

/-- A Step is accepted exactly in LOADED and RUNNING, and then answers a next state in RUNNING or FAULTED; in READY and in FAULTED it is refused (10_state.md R40, R53, R54; the refusals are the spec's own decisions 92 D16 and D19; log 6). -/
def Obligations.StepIsRefusedOrRunsOneCycle : Prop :=
  (∀ s : State, (s.run = .loaded ∨ s.run = .running) →
    ∃ u, step s = .next u ∧ (u.run = .running ∨ ∃ r, u.run = .faulted r)) ∧
  (∀ s : State, s.run = .ready → step s = .refused .stepBeforeLoad) ∧
  (∀ (s : State) (r : FaultRecord), s.run = .faulted r → step s = .refused .stepAfterFault)

/-- A Step whose word decodes to `i` completes exactly when R263 lists no fault for it in this state, and else RUN holds the record of that fault: its kind with its address or key, the PC and the fetched word (60_exceptions.md R261, R263; FAULTED and the record are the spec's own decision 92 D16, the lowest bad address its D27; log 6). -/
def Obligations.StepFaultsExactlyWhenListed : Prop :=
  ∀ (s : State) (i : Instr), s.nextIs i → ∃ u, step s = .next u ∧
    (u.run = .running ↔ s.ownFault i = none) ∧
    (∀ f, s.ownFault i = some f →
      u.run = .faulted { fault := f, pc := s.pc, opcode := some s.opcodeAtPc })

/-- A faulting Step keeps I, the stack, PRESENT and the parameters, and of the rest all but what its instruction wrote before the raise: a register is open only as VF of DXYN or as a register of FX65 whose byte lies below 4096, a byte only as one of FX33 or FX55 from I on below 4096, a cell only as one that a row of DXYN with a byte below 4096 covers, VF being 0 or 1 (40_cycle.md R128, 60_exceptions.md R262; which partial effects are open is the spec's own decision 92 D17, log 4, the coordinates its D11, log 7). -/
def Obligations.FaultingStepKeepsTheRest : Prop :=
  ∀ (s u : State) (i : Instr), s.nextIs i → step s = .next u → u.run.isFaulted = true →
    KeptBut [.pc, .dt, .st, .run, .v, .mem, .fb] s u ∧ u.cfg = s.cfg ∧
    (∀ r : Reg, (∀ x, i = .loadRegs x → 4096 ≤ s.i.toNat + r.val) →
      (∀ x y n, i = .drw x y n → r ≠ VF) → u.getV r = s.getV r) ∧
    (∀ a, (∀ x, i = .ldBcd x → a < s.i.toNat ∨ 4096 ≤ a) →
      (∀ x, i = .storeRegs x → a < s.i.toNat ∨ 4096 ≤ a) → u.readByte a = s.readByte a) ∧
    (∀ yy xx, (∀ x y n, i = .drw x y n →
        ¬ SpriteCovers (s.setV VF 0x00#8) x y (min n.toNat (4096 - s.i.toNat)) yy xx ∧
        ¬ SpriteCovers (s.setV VF 0x01#8) x y (min n.toNat (4096 - s.i.toNat)) yy xx) →
      u.fb.cell yy xx = s.fb.cell yy xx)

/-- Who writes what, over every Step: V[r] only the instructions R23 and R22 name for it; I only ANNN, FX1E, FX29; the stack only 2NNN and 00EE; the framebuffer only 00E0 and DXYN; memory only FX33 and FX55; PRESENT only DXYN; the parameters nothing. RUN becomes RUNNING or FAULTED, and in a Step that completes PC is A + 2 but for the instructions R27 lists, and DT and ST only tick but for FX15 and FX18 (10_state.md R22, R23, R25, R27, R31, R36, R40 to R43, 20_memory.md R61; the reading of 40_cycle.md R127 for every row is the spec's own decision 92 D18, log 8). -/
def Obligations.OnlyTheNamedInstructionsWrite : Prop :=
  ∀ (s u : State) (i : Instr), s.nextIs i → step s = .next u →
    u.cfg = s.cfg ∧
    (∀ r, writesReg i r = false → u.getV r = s.getV r) ∧
    ((∀ a, i ≠ .ldI a) → (∀ x, i ≠ .addI x) → (∀ x, i ≠ .ldFont x) → Part.i.Kept s u) ∧
    ((∀ a, i ≠ .call a) → (∀ b, i ≠ .ret b) → Part.stack.Kept s u) ∧
    ((∀ b, i ≠ .cls b) → (∀ x y n, i ≠ .drw x y n) → Part.fb.Kept s u) ∧
    ((∀ x, i ≠ .ldBcd x) → (∀ x, i ≠ .storeRegs x) → Part.mem.Kept s u) ∧
    ((∀ x y n, i ≠ .drw x y n) → Part.present.Kept s u) ∧
    (u.run = .running ∨ u.run.isFaulted = true) ∧
    (u.run = .running →
      (movesPc i = false → u.pc = s.pc + 2#16) ∧
      ((∀ x, i ≠ .ldDtReg x) → u.dt.toNat = s.dt.toNat - 1) ∧
      ((∀ x, i ≠ .ldStReg x) → u.st.toNat = s.st.toNat - 1))

/-- VF changes only in a Step of one of the six flag-writing instructions or of one that names VF as its destination (10_state.md R22). -/
def Obligations.OnlyFlagWritersAndNamedDestinationsChangeVF : Prop :=
  ∀ (s u : State) (i : Instr), s.nextIs i → step s = .next u → writesVF i = false →
    u.getV VF = s.getV VF

/-- Stack entries at or above the depth are not observable: two states that differ at most there step to states that differ at most there, with the same answer (10_state.md R31; the spec's own decision 92 D26). -/
def Obligations.DeadStackEntriesAreInvisible : Prop :=
  ∀ s s' : State, SameLiveState s s' →
    (∀ u, step s = .next u → ∃ u', step s' = .next u' ∧ SameLiveState u u') ∧
    (∀ r, step s = .refused r → step s' = .refused r)

/-- The host's sample is read only by CXNN, EX9E, EXA1 and FX0A: every other instruction has the same effect under every sample (00_scope.md R9). -/
def Obligations.OnlyInputInstructionsReadTheSample : Prop :=
  ∀ (i : Instr) (s t : State) (queue : List StepInput),
    (∀ x nn, i ≠ .rnd x nn) → (∀ x d, i ≠ .skp x d) → (∀ x d, i ≠ .sknp x d) →
    (∀ x, i ≠ .ldRegKey x) → exec i s = .next t →
    exec i { s with inputs := queue } = .next { t with inputs := queue }

/-- The invariant is kept by every Step from every state that meets it: canonical memory below 4096, live stack entries at most 0x1000, and outside FAULTED a PC of at most 0x10FE (10_state.md R28, 20_memory.md R62; the canonical form is the model's, log 3). -/
def Obligations.InvariantIsKeptByEveryStep : Prop :=
  ∀ s u : State, s.Inv → step s = .next u → u.Inv

/-- The invariant holds right after reset (10_state.md R44, R28; its canonical form of memory is the model's own, log 3). -/
def Obligations.InvariantHoldsAtReset : Prop :=
  State.reset.Inv

/-- The host's operations keep the invariant: Reset, Load and present_ack (10_state.md R51, R52, R55, with the PC and stack ranges of R28; the canonical form of memory is the model's own, log 3). And present_ack makes PRESENT false and changes nothing else (R55). -/
def Obligations.HostOperationsKeepTheInvariant : Prop :=
  ∀ (s : State) (bytes : List Byte),
    (s.Inv → (hostReset s).Inv ∧ (hostLoad bytes s).2.Inv ∧ (hostPresentAck s).Inv) ∧
    (hostPresentAck s).presentReq = false ∧ SameBut [.present] s (hostPresentAck s)

/-! ### Reset, Load and the halt loop -/

/-- A host Step runs on the sample it brings: CXNN masks its random byte, EX9E and EXA1 test its held keys, FX0A takes its pressed key; the response is OK, and the samples waiting in the queue stay (10_state.md R53, R54, 70_reset_and_hazards.md R298; the interface is the spec's own decision 92 D1, the queue the model's, log 2). -/
def Obligations.HostStepRunsOnItsOwnSample : Prop :=
  ∀ (s : State) (inp : StepInput) (x : Reg),
    (∀ nn, s.nextIs (.rnd x nn) → ∃ u, hostStep inp s = .next u ∧ u.response = .ok ∧
      u.inputs = s.inputs ∧ u.getV x = inp.rand &&& nn) ∧
    (∀ d, s.nextIs (.skp x d) → (s.getV x).toNat ≤ 0xF → ∃ u, hostStep inp s = .next u ∧
      u.response = .ok ∧ u.inputs = s.inputs ∧
      u.pc.toNat = s.pc.toNat + if inp.held.getLsbD (s.getV x).toNat then 4 else 2) ∧
    (∀ d, s.nextIs (.sknp x d) → (s.getV x).toNat ≤ 0xF → ∃ u, hostStep inp s = .next u ∧
      u.response = .ok ∧ u.inputs = s.inputs ∧
      u.pc.toNat = s.pc.toNat + if inp.held.getLsbD (s.getV x).toNat then 2 else 4) ∧
    (∀ k, s.nextIs (.ldRegKey x) → inp.pressed = some k → ∃ u, hostStep inp s = .next u ∧
      u.response = .ok ∧ u.inputs = s.inputs ∧ (u.getV x).toNat = k.toNat ∧
      u.pc.toNat = s.pc.toNat + 2)

/-- After a Reset from any state: registers, I, stack, SP and timers zero, PC 0x0200, a clear screen, RUN READY, PRESENT false, the font at 0x050..0x09F and INIT_MEM elsewhere, the parameters as they were (10_state.md R44, R51, 70_reset_and_hazards.md R290; INIT_MEM is the free byte of 92 D3; log 3). -/
def Obligations.ResetRestoresEveryComponent : Prop :=
  ∀ s : State,
    (∀ r, (hostReset s).getV r = 0x00#8) ∧ (hostReset s).i = 0x0000#16 ∧
    (hostReset s).pc = 0x0200#16 ∧ (∀ k : Fin 16, (hostReset s).stack[k] = 0x0000#16) ∧
    (hostReset s).sp = 0 ∧ (hostReset s).dt = 0x00#8 ∧ (hostReset s).st = 0x00#8 ∧
    (∀ y x, (hostReset s).fb.cell y x = false) ∧ (hostReset s).run = .ready ∧
    (hostReset s).present = false ∧ (hostReset s).cfg = s.cfg ∧
    (∀ k : Fin 80, (hostReset s).readByte (0x050 + k.val) = s.cfg.font[k]) ∧
    (∀ a, a < 0x050 ∨ 0x0A0 ≤ a → (hostReset s).readByte a = Config.initMem a)

/-- Load in READY with at most 3584 bytes writes them from 0x200 on, changes nothing else and answers OK with RUN LOADED; with more it answers OutOfBounds and changes nothing; outside READY it is refused (10_state.md R52; the refusal is the spec's own decision 92 D19). -/
def Obligations.LoadWritesTheProgramOnce : Prop :=
  (∀ (s : State) (bytes : List Byte), s.run = .ready → bytes.length ≤ 3584 →
    ∃ t, hostLoad bytes s = (.ok, t) ∧ t.run = .loaded ∧
      (∀ k, (h : k < bytes.length) → t.readByte (0x200 + k) = bytes[k]) ∧
      BytesKeptBut 0x200 bytes.length s t ∧ SameBut [.mem, .run] s t) ∧
  (∀ (s : State) (bytes : List Byte), s.run = .ready → 3584 < bytes.length →
    hostLoad bytes s = (.outOfBounds, s)) ∧
  (∀ (s : State) (bytes : List Byte), s.run ≠ .ready → hostLoad bytes s = (.refused, s))

/-- At a halt loop a Step completes, the timers tick, and nothing else the program or the screen shows changes: the state is a halt loop again. So the end state of a run is its first halt loop: the run reaches it with no fault and no halt loop before it, it is one state after one number of Steps, and every halt loop that a run without a fault reaches differs from it in DT, ST and RUN alone (70_reset_and_hazards.md R300, the spec's own decision 92 D28, log 12, with 41_control_flow.md R142 and 40_cycle.md R125; that nothing else changes is R127 with its decision D18, log 8; that a run is Steps alone, with no present_ack between them, is the model's choice, log 13). -/
def Obligations.HaltLoopOnlyTicks : Prop :=
  (∀ s : State, (s.run = .loaded ∨ s.run = .running) → s.haltLoop →
    ∃ u, step s = .next u ∧ u.run = .running ∧ u.haltLoop ∧
      u.dt.toNat = s.dt.toNat - 1 ∧ u.st.toNat = s.st.toNat - 1 ∧
      KeptBut [.dt, .st, .run] s u) ∧
  (∀ (s t : State) (n : Nat), s.endsIn n t →
    s.runsTo n t ∧ t.haltLoop ∧ ∀ m < n, ∀ u, s.runsTo m u → ¬ u.haltLoop) ∧
  (∀ (s t t' : State) (n n' : Nat), s.endsIn n t → s.endsIn n' t' → n = n' ∧ t = t') ∧
  (∀ (s u : State) (n : Nat), (s.run = .loaded ∨ s.run = .running) → s.runsTo n u → u.haltLoop →
    ∃ k t, k ≤ n ∧ s.endsIn k t ∧ KeptBut [.dt, .st, .run] t u)

/-- The word the host places with `withFetchWord` is the one the very next Step runs, for every state and every word: a Step is accepted, its fetch reads the word, and where the word decodes to `i` the Step is the effect of `i` on the advanced state, then the end of the cycle (the model's own entry for a program, log 9; the fetch is 40_cycle.md R121, the cycle R120). -/
def Obligations.PlacedWordRunsNext : Prop :=
  ∀ (s p : State) (op : Word), p = s.withFetchWord 16 op.toNat →
    (p.run = .loaded ∨ p.run = .running) ∧ p.pc.toNat + 1 < 4096 ∧ p.opcodeAtPc = op ∧
    (∀ i, decodeWord op = .ok i ↔ decodeTableWord 16 op.toNat = some i) ∧
    (∀ i, decodeWord op = .ok i → p.nextIs i ∧
      ∃ t, exec i (p.setPc (p.pc + 2#16)) = .next t ∧ step p = .next t.endCycle)
end

