-- ==== Sys2Proof/Laws/Encoding.lean ====
section
/-! SUPPORT. The fields of a packed word, layout by layout (spec/30_encoding.md R93), and of a word cut by a mask (R95). -/

namespace Sys2Proof

/-! ### Fields of concatenations -/

theorem extract_whole {n : Nat} (a : BitVec n) : a.extractLsb' 0 n = a := by
  ext j hj
  simp

theorem extract_low {m n : Nat} (a : BitVec m) (b : BitVec n) : (a ++ b).extractLsb' 0 n = b := by
  ext k hk
  simp [BitVec.getElem_extractLsb', BitVec.getLsbD_append, hk, BitVec.getLsbD_eq_getElem]

theorem extract_inside_low {m n : Nat} (a : BitVec m) (b : BitVec n) (i k : Nat)
    (h : i + k ≤ n) : (a ++ b).extractLsb' i k = b.extractLsb' i k := by
  ext j hj
  have : i + j < n := by omega
  simp [BitVec.getElem_extractLsb', BitVec.getLsbD_append, this]

theorem extract_above {m n : Nat} (a : BitVec m) (b : BitVec n) (i k : Nat) (h : n ≤ i) :
    (a ++ b).extractLsb' i k = a.extractLsb' (i - n) k := by
  ext j hj
  have : ¬ i + j < n := by omega
  simp only [BitVec.getElem_extractLsb', BitVec.getLsbD_append, this, if_false]
  congr 1
  omega

/-! ### Fields of the layouts -/

@[simp] theorem fieldA_packL0 (bc : Byte) (d : Nibble) : fieldA (packL0 bc d) = 0x0#4 := by
  simp only [fieldA, packL0]
  rw [extract_above _ _ _ _ (by decide), extract_above _ _ _ _ (by decide)]
  exact extract_whole _

@[simp] theorem fieldBC_packL0 (bc : Byte) (d : Nibble) : fieldBC (packL0 bc d) = bc := by
  simp only [fieldBC, packL0]
  rw [extract_above _ _ _ _ (by decide)]
  exact extract_low _ _

@[simp] theorem fieldD_packL0 (bc : Byte) (d : Nibble) : fieldD (packL0 bc d) = d := by
  simp only [fieldD, packL0]
  exact extract_low _ _

@[simp] theorem fieldA_packLA (a : Nibble) (nnn : Addr12) : fieldA (packLA a nnn) = a := by
  simp only [fieldA, packLA]
  rw [extract_above _ _ _ _ (by decide)]
  exact extract_whole _

@[simp] theorem fieldNNN_packLA (a : Nibble) (nnn : Addr12) : fieldNNN (packLA a nnn) = nnn := by
  simp only [fieldNNN, packLA]
  exact extract_low _ _

@[simp] theorem fieldA_packLI (a : Nibble) (x : Reg) (nn : Byte) : fieldA (packLI a x nn) = a := by
  simp only [fieldA, packLI]
  rw [extract_above _ _ _ _ (by decide), extract_above _ _ _ _ (by decide)]
  exact extract_whole _

@[simp] theorem fieldX_packLI (a : Nibble) (x : Reg) (nn : Byte) : fieldX (packLI a x nn) = x := by
  simp only [fieldX, packLI]
  rw [extract_above _ _ _ _ (by decide), extract_low]

@[simp] theorem fieldNN_packLI (a : Nibble) (x : Reg) (nn : Byte) :
    fieldNN (packLI a x nn) = nn := by
  simp only [fieldNN, packLI]
  exact extract_low _ _

@[simp] theorem fieldA_packLR (a : Nibble) (x y : Reg) (d : Nibble) :
    fieldA (packLR a x y d) = a := by
  simp only [fieldA, packLR]
  rw [extract_above _ _ _ _ (by decide), extract_above _ _ _ _ (by decide),
    extract_above _ _ _ _ (by decide)]
  exact extract_whole _

@[simp] theorem fieldX_packLR (a : Nibble) (x y : Reg) (d : Nibble) :
    fieldX (packLR a x y d) = x := by
  simp only [fieldX, packLR]
  rw [extract_above _ _ _ _ (by decide), extract_above _ _ _ _ (by decide), extract_low]

@[simp] theorem fieldY_packLR (a : Nibble) (x y : Reg) (d : Nibble) :
    fieldY (packLR a x y d) = y := by
  simp only [fieldY, packLR]
  rw [extract_above _ _ _ _ (by decide), extract_low]

@[simp] theorem fieldD_packLR (a : Nibble) (x y : Reg) (d : Nibble) :
    fieldD (packLR a x y d) = d := by
  simp only [fieldD, packLR]
  exact extract_low _ _

@[simp] theorem fieldA_packLE (x : Reg) (c d : Nibble) : fieldA (packLE x c d) = 0xE#4 := by
  simp only [fieldA, packLE]
  rw [extract_above _ _ _ _ (by decide), extract_above _ _ _ _ (by decide),
    extract_above _ _ _ _ (by decide)]
  exact extract_whole _

@[simp] theorem fieldX_packLE (x : Reg) (c d : Nibble) : fieldX (packLE x c d) = x := by
  simp only [fieldX, packLE]
  rw [extract_above _ _ _ _ (by decide), extract_above _ _ _ _ (by decide), extract_low]

@[simp] theorem fieldC_packLE (x : Reg) (c d : Nibble) : fieldC (packLE x c d) = c := by
  simp only [fieldC, packLE]
  rw [extract_above _ _ _ _ (by decide), extract_low]

@[simp] theorem fieldD_packLE (x : Reg) (c d : Nibble) : fieldD (packLE x c d) = d := by
  simp only [fieldD, packLE]
  exact extract_low _ _

/-! ### Packing the fields of a word -/

/-- A word is its four nibbles. -/
theorem nibbles_of_word (op : Word) :
    op.extractLsb' 12 4 ++ op.extractLsb' 8 4 ++ op.extractLsb' 4 4 ++ op.extractLsb' 0 4 = op := by
  ext k hk
  simp only [← BitVec.getLsbD_eq_getElem, BitVec.getLsbD_append, BitVec.getLsbD_extractLsb']
  have hk' : k < 16 := hk
  interval_cases k <;> simp

theorem packL0_fields (op : Word) (h : fieldA op = 0x0#4) :
    packL0 (fieldBC op) (fieldD op) = op := by
  have e : op.extractLsb' 8 4 ++ op.extractLsb' 4 4 = fieldBC op := by
    ext k hk
    simp only [← BitVec.getLsbD_eq_getElem, BitVec.getLsbD_append, BitVec.getLsbD_extractLsb',
      fieldBC]
    have hk' : k < 8 := hk
    interval_cases k <;> simp
  conv_rhs => rw [← nibbles_of_word op]
  rw [packL0, ← e, ← h]
  ext k hk
  simp only [← BitVec.getLsbD_eq_getElem, BitVec.getLsbD_append, fieldA, fieldD]
  have hk' : k < 16 := hk
  interval_cases k <;> simp

theorem packLA_fields (op : Word) : packLA (fieldA op) (fieldNNN op) = op := by
  ext k hk
  simp only [← BitVec.getLsbD_eq_getElem, packLA, BitVec.getLsbD_append,
    BitVec.getLsbD_extractLsb', fieldA, fieldNNN]
  have hk' : k < 16 := hk
  interval_cases k <;> simp

theorem packLI_fields (op : Word) : packLI (fieldA op) (fieldX op) (fieldNN op) = op := by
  ext k hk
  simp only [← BitVec.getLsbD_eq_getElem, packLI, BitVec.getLsbD_append,
    BitVec.getLsbD_extractLsb', fieldA, fieldX, fieldNN, BitVec.ofFin_toFin]
  have hk' : k < 16 := hk
  interval_cases k <;> simp

theorem packLR_fields (op : Word) :
    packLR (fieldA op) (fieldX op) (fieldY op) (fieldD op) = op := by
  simp only [packLR, fieldX, fieldY]
  exact nibbles_of_word op

theorem packLE_fields (op : Word) (h : fieldA op = 0xE#4) :
    packLE (fieldX op) (fieldC op) (fieldD op) = op := by
  simp only [packLE, ← h, fieldX]
  exact nibbles_of_word op

/-! ### Fields of a masked word -/

theorem extract_of_masked {op mask pattern : Word} (h : op &&& mask = pattern) (i n : Nat) :
    op.extractLsb' i n &&& mask.extractLsb' i n = pattern.extractLsb' i n := by
  rw [← BitVec.extractLsb'_and, h]

/-- Where the mask has ones in a field, the word's field is the pattern's. -/
theorem extract_eq_of_masked {op mask pattern : Word} (h : op &&& mask = pattern) (i n : Nat)
    (hm : mask.extractLsb' i n = BitVec.allOnes n) :
    op.extractLsb' i n = pattern.extractLsb' i n := by
  have := extract_of_masked h i n
  rwa [hm, BitVec.and_allOnes] at this

/-! ### What a decoded instruction packs -/

/-- A field whose number is known is that literal. -/
theorem eq_ofNat_of_toNat {w n : Nat} {a : BitVec w} (h : a.toNat = n) : a = BitVec.ofNat w n := by
  rw [← h, BitVec.ofNat_toNat, BitVec.setWidth_eq]

/-- Class 8 decodes to an instruction that packs the word's own fields. -/
theorem encode_of_decodeClass8 {op : Word} {i : Instr} (h : decodeClass8 op = .ok i) :
    encode i = packLR 0x8#4 (fieldX op) (fieldY op) (fieldD op) := by
  unfold decodeClass8 at h
  split at h
  all_goals first
    | (rename_i hd
       obtain rfl := Except.ok.inj h
       rw [eq_ofNat_of_toNat hd]
       rfl)
    | exact absurd h (by simp)

/-- Class F decodes to an instruction that packs the word's own fields. -/
theorem encode_of_decodeClassF {op : Word} {i : Instr} (h : decodeClassF op = .ok i) :
    encode i = packLI 0xF#4 (fieldX op) (fieldNN op) := by
  unfold decodeClassF at h
  split at h
  all_goals first
    | (rename_i hd
       obtain rfl := Except.ok.inj h
       rw [eq_ofNat_of_toNat hd]
       rfl)
    | exact absurd h (by simp)

end Sys2Proof
end

