-- ==== Sys2Proof/Laws/State.lean ====
section
/-! SUPPORT. One lemma per field per update of the state, each true by rfl, so that no later proof unfolds a record update; and what the derived reads (a register, a byte, the sample) see of each update. -/

namespace Sys2Proof.Machine

variable (s : State)

/-! ### setV -/

@[simp] theorem State.setV_v (r : Reg) (b : Byte) : (s.setV r b).v = s.v.set r b := rfl
@[simp] theorem State.setV_i (r : Reg) (b : Byte) : (s.setV r b).i = s.i := rfl
@[simp] theorem State.setV_pc (r : Reg) (b : Byte) : (s.setV r b).pc = s.pc := rfl
@[simp] theorem State.setV_stack (r : Reg) (b : Byte) : (s.setV r b).stack = s.stack := rfl
@[simp] theorem State.setV_sp (r : Reg) (b : Byte) : (s.setV r b).sp = s.sp := rfl
@[simp] theorem State.setV_dt (r : Reg) (b : Byte) : (s.setV r b).dt = s.dt := rfl
@[simp] theorem State.setV_st (r : Reg) (b : Byte) : (s.setV r b).st = s.st := rfl
@[simp] theorem State.setV_fb (r : Reg) (b : Byte) : (s.setV r b).fb = s.fb := rfl
@[simp] theorem State.setV_mem (r : Reg) (b : Byte) : (s.setV r b).mem = s.mem := rfl
@[simp] theorem State.setV_run (r : Reg) (b : Byte) : (s.setV r b).run = s.run := rfl
@[simp] theorem State.setV_present (r : Reg) (b : Byte) : (s.setV r b).present = s.present := rfl
@[simp] theorem State.setV_cfg (r : Reg) (b : Byte) : (s.setV r b).cfg = s.cfg := rfl
@[simp] theorem State.setV_inputs (r : Reg) (b : Byte) : (s.setV r b).inputs = s.inputs := rfl
@[simp] theorem State.setV_draws (r : Reg) (b : Byte) : (s.setV r b).draws = s.draws := rfl
@[simp] theorem State.readByte_setV (r : Reg) (b : Byte) (q : Nat) : (s.setV r b).readByte q = s.readByte q := rfl
@[simp] theorem State.sample_setV (r : Reg) (b : Byte) : (s.setV r b).sample = s.sample := rfl

/-! ### setI -/

@[simp] theorem State.setI_v (w : Word) : (s.setI w).v = s.v := rfl
@[simp] theorem State.setI_i (w : Word) : (s.setI w).i = w := rfl
@[simp] theorem State.setI_pc (w : Word) : (s.setI w).pc = s.pc := rfl
@[simp] theorem State.setI_stack (w : Word) : (s.setI w).stack = s.stack := rfl
@[simp] theorem State.setI_sp (w : Word) : (s.setI w).sp = s.sp := rfl
@[simp] theorem State.setI_dt (w : Word) : (s.setI w).dt = s.dt := rfl
@[simp] theorem State.setI_st (w : Word) : (s.setI w).st = s.st := rfl
@[simp] theorem State.setI_fb (w : Word) : (s.setI w).fb = s.fb := rfl
@[simp] theorem State.setI_mem (w : Word) : (s.setI w).mem = s.mem := rfl
@[simp] theorem State.setI_run (w : Word) : (s.setI w).run = s.run := rfl
@[simp] theorem State.setI_present (w : Word) : (s.setI w).present = s.present := rfl
@[simp] theorem State.setI_cfg (w : Word) : (s.setI w).cfg = s.cfg := rfl
@[simp] theorem State.setI_inputs (w : Word) : (s.setI w).inputs = s.inputs := rfl
@[simp] theorem State.setI_draws (w : Word) : (s.setI w).draws = s.draws := rfl
@[simp] theorem State.getV_setI (w : Word) (q : Reg) : (s.setI w).getV q = s.getV q := rfl
@[simp] theorem State.readByte_setI (w : Word) (q : Nat) : (s.setI w).readByte q = s.readByte q := rfl
@[simp] theorem State.sample_setI (w : Word) : (s.setI w).sample = s.sample := rfl

/-! ### setPc -/

@[simp] theorem State.setPc_v (w : Word) : (s.setPc w).v = s.v := rfl
@[simp] theorem State.setPc_i (w : Word) : (s.setPc w).i = s.i := rfl
@[simp] theorem State.setPc_pc (w : Word) : (s.setPc w).pc = w := rfl
@[simp] theorem State.setPc_stack (w : Word) : (s.setPc w).stack = s.stack := rfl
@[simp] theorem State.setPc_sp (w : Word) : (s.setPc w).sp = s.sp := rfl
@[simp] theorem State.setPc_dt (w : Word) : (s.setPc w).dt = s.dt := rfl
@[simp] theorem State.setPc_st (w : Word) : (s.setPc w).st = s.st := rfl
@[simp] theorem State.setPc_fb (w : Word) : (s.setPc w).fb = s.fb := rfl
@[simp] theorem State.setPc_mem (w : Word) : (s.setPc w).mem = s.mem := rfl
@[simp] theorem State.setPc_run (w : Word) : (s.setPc w).run = s.run := rfl
@[simp] theorem State.setPc_present (w : Word) : (s.setPc w).present = s.present := rfl
@[simp] theorem State.setPc_cfg (w : Word) : (s.setPc w).cfg = s.cfg := rfl
@[simp] theorem State.setPc_inputs (w : Word) : (s.setPc w).inputs = s.inputs := rfl
@[simp] theorem State.setPc_draws (w : Word) : (s.setPc w).draws = s.draws := rfl
@[simp] theorem State.getV_setPc (w : Word) (q : Reg) : (s.setPc w).getV q = s.getV q := rfl
@[simp] theorem State.readByte_setPc (w : Word) (q : Nat) : (s.setPc w).readByte q = s.readByte q := rfl
@[simp] theorem State.sample_setPc (w : Word) : (s.setPc w).sample = s.sample := rfl

/-! ### setDt -/

@[simp] theorem State.setDt_v (b : Byte) : (s.setDt b).v = s.v := rfl
@[simp] theorem State.setDt_i (b : Byte) : (s.setDt b).i = s.i := rfl
@[simp] theorem State.setDt_pc (b : Byte) : (s.setDt b).pc = s.pc := rfl
@[simp] theorem State.setDt_stack (b : Byte) : (s.setDt b).stack = s.stack := rfl
@[simp] theorem State.setDt_sp (b : Byte) : (s.setDt b).sp = s.sp := rfl
@[simp] theorem State.setDt_dt (b : Byte) : (s.setDt b).dt = b := rfl
@[simp] theorem State.setDt_st (b : Byte) : (s.setDt b).st = s.st := rfl
@[simp] theorem State.setDt_fb (b : Byte) : (s.setDt b).fb = s.fb := rfl
@[simp] theorem State.setDt_mem (b : Byte) : (s.setDt b).mem = s.mem := rfl
@[simp] theorem State.setDt_run (b : Byte) : (s.setDt b).run = s.run := rfl
@[simp] theorem State.setDt_present (b : Byte) : (s.setDt b).present = s.present := rfl
@[simp] theorem State.setDt_cfg (b : Byte) : (s.setDt b).cfg = s.cfg := rfl
@[simp] theorem State.setDt_inputs (b : Byte) : (s.setDt b).inputs = s.inputs := rfl
@[simp] theorem State.setDt_draws (b : Byte) : (s.setDt b).draws = s.draws := rfl
@[simp] theorem State.getV_setDt (b : Byte) (q : Reg) : (s.setDt b).getV q = s.getV q := rfl
@[simp] theorem State.readByte_setDt (b : Byte) (q : Nat) : (s.setDt b).readByte q = s.readByte q := rfl
@[simp] theorem State.sample_setDt (b : Byte) : (s.setDt b).sample = s.sample := rfl

/-! ### setSt -/

@[simp] theorem State.setSt_v (b : Byte) : (s.setSt b).v = s.v := rfl
@[simp] theorem State.setSt_i (b : Byte) : (s.setSt b).i = s.i := rfl
@[simp] theorem State.setSt_pc (b : Byte) : (s.setSt b).pc = s.pc := rfl
@[simp] theorem State.setSt_stack (b : Byte) : (s.setSt b).stack = s.stack := rfl
@[simp] theorem State.setSt_sp (b : Byte) : (s.setSt b).sp = s.sp := rfl
@[simp] theorem State.setSt_dt (b : Byte) : (s.setSt b).dt = s.dt := rfl
@[simp] theorem State.setSt_st (b : Byte) : (s.setSt b).st = b := rfl
@[simp] theorem State.setSt_fb (b : Byte) : (s.setSt b).fb = s.fb := rfl
@[simp] theorem State.setSt_mem (b : Byte) : (s.setSt b).mem = s.mem := rfl
@[simp] theorem State.setSt_run (b : Byte) : (s.setSt b).run = s.run := rfl
@[simp] theorem State.setSt_present (b : Byte) : (s.setSt b).present = s.present := rfl
@[simp] theorem State.setSt_cfg (b : Byte) : (s.setSt b).cfg = s.cfg := rfl
@[simp] theorem State.setSt_inputs (b : Byte) : (s.setSt b).inputs = s.inputs := rfl
@[simp] theorem State.setSt_draws (b : Byte) : (s.setSt b).draws = s.draws := rfl
@[simp] theorem State.getV_setSt (b : Byte) (q : Reg) : (s.setSt b).getV q = s.getV q := rfl
@[simp] theorem State.readByte_setSt (b : Byte) (q : Nat) : (s.setSt b).readByte q = s.readByte q := rfl
@[simp] theorem State.sample_setSt (b : Byte) : (s.setSt b).sample = s.sample := rfl

/-! ### setFb -/

@[simp] theorem State.setFb_v (f : Framebuffer) : (s.setFb f).v = s.v := rfl
@[simp] theorem State.setFb_i (f : Framebuffer) : (s.setFb f).i = s.i := rfl
@[simp] theorem State.setFb_pc (f : Framebuffer) : (s.setFb f).pc = s.pc := rfl
@[simp] theorem State.setFb_stack (f : Framebuffer) : (s.setFb f).stack = s.stack := rfl
@[simp] theorem State.setFb_sp (f : Framebuffer) : (s.setFb f).sp = s.sp := rfl
@[simp] theorem State.setFb_dt (f : Framebuffer) : (s.setFb f).dt = s.dt := rfl
@[simp] theorem State.setFb_st (f : Framebuffer) : (s.setFb f).st = s.st := rfl
@[simp] theorem State.setFb_fb (f : Framebuffer) : (s.setFb f).fb = f := rfl
@[simp] theorem State.setFb_mem (f : Framebuffer) : (s.setFb f).mem = s.mem := rfl
@[simp] theorem State.setFb_run (f : Framebuffer) : (s.setFb f).run = s.run := rfl
@[simp] theorem State.setFb_present (f : Framebuffer) : (s.setFb f).present = s.present := rfl
@[simp] theorem State.setFb_cfg (f : Framebuffer) : (s.setFb f).cfg = s.cfg := rfl
@[simp] theorem State.setFb_inputs (f : Framebuffer) : (s.setFb f).inputs = s.inputs := rfl
@[simp] theorem State.setFb_draws (f : Framebuffer) : (s.setFb f).draws = s.draws := rfl
@[simp] theorem State.getV_setFb (f : Framebuffer) (q : Reg) : (s.setFb f).getV q = s.getV q := rfl
@[simp] theorem State.readByte_setFb (f : Framebuffer) (q : Nat) : (s.setFb f).readByte q = s.readByte q := rfl
@[simp] theorem State.sample_setFb (f : Framebuffer) : (s.setFb f).sample = s.sample := rfl

/-! ### setMem -/

@[simp] theorem State.setMem_v (m : Memory) : (s.setMem m).v = s.v := rfl
@[simp] theorem State.setMem_i (m : Memory) : (s.setMem m).i = s.i := rfl
@[simp] theorem State.setMem_pc (m : Memory) : (s.setMem m).pc = s.pc := rfl
@[simp] theorem State.setMem_stack (m : Memory) : (s.setMem m).stack = s.stack := rfl
@[simp] theorem State.setMem_sp (m : Memory) : (s.setMem m).sp = s.sp := rfl
@[simp] theorem State.setMem_dt (m : Memory) : (s.setMem m).dt = s.dt := rfl
@[simp] theorem State.setMem_st (m : Memory) : (s.setMem m).st = s.st := rfl
@[simp] theorem State.setMem_fb (m : Memory) : (s.setMem m).fb = s.fb := rfl
@[simp] theorem State.setMem_mem (m : Memory) : (s.setMem m).mem = m := rfl
@[simp] theorem State.setMem_run (m : Memory) : (s.setMem m).run = s.run := rfl
@[simp] theorem State.setMem_present (m : Memory) : (s.setMem m).present = s.present := rfl
@[simp] theorem State.setMem_cfg (m : Memory) : (s.setMem m).cfg = s.cfg := rfl
@[simp] theorem State.setMem_inputs (m : Memory) : (s.setMem m).inputs = s.inputs := rfl
@[simp] theorem State.setMem_draws (m : Memory) : (s.setMem m).draws = s.draws := rfl
@[simp] theorem State.getV_setMem (m : Memory) (q : Reg) : (s.setMem m).getV q = s.getV q := rfl
@[simp] theorem State.sample_setMem (m : Memory) : (s.setMem m).sample = s.sample := rfl

/-! ### setPresent -/

@[simp] theorem State.setPresent_v (p : Bool) : (s.setPresent p).v = s.v := rfl
@[simp] theorem State.setPresent_i (p : Bool) : (s.setPresent p).i = s.i := rfl
@[simp] theorem State.setPresent_pc (p : Bool) : (s.setPresent p).pc = s.pc := rfl
@[simp] theorem State.setPresent_stack (p : Bool) : (s.setPresent p).stack = s.stack := rfl
@[simp] theorem State.setPresent_sp (p : Bool) : (s.setPresent p).sp = s.sp := rfl
@[simp] theorem State.setPresent_dt (p : Bool) : (s.setPresent p).dt = s.dt := rfl
@[simp] theorem State.setPresent_st (p : Bool) : (s.setPresent p).st = s.st := rfl
@[simp] theorem State.setPresent_fb (p : Bool) : (s.setPresent p).fb = s.fb := rfl
@[simp] theorem State.setPresent_mem (p : Bool) : (s.setPresent p).mem = s.mem := rfl
@[simp] theorem State.setPresent_run (p : Bool) : (s.setPresent p).run = s.run := rfl
@[simp] theorem State.setPresent_present (p : Bool) : (s.setPresent p).present = p := rfl
@[simp] theorem State.setPresent_cfg (p : Bool) : (s.setPresent p).cfg = s.cfg := rfl
@[simp] theorem State.setPresent_inputs (p : Bool) : (s.setPresent p).inputs = s.inputs := rfl
@[simp] theorem State.setPresent_draws (p : Bool) : (s.setPresent p).draws = s.draws := rfl
@[simp] theorem State.getV_setPresent (p : Bool) (q : Reg) : (s.setPresent p).getV q = s.getV q := rfl
@[simp] theorem State.readByte_setPresent (p : Bool) (q : Nat) : (s.setPresent p).readByte q = s.readByte q := rfl
@[simp] theorem State.sample_setPresent (p : Bool) : (s.setPresent p).sample = s.sample := rfl

/-! ### setRun -/

@[simp] theorem State.setRun_v (r : Run) : (s.setRun r).v = s.v := rfl
@[simp] theorem State.setRun_i (r : Run) : (s.setRun r).i = s.i := rfl
@[simp] theorem State.setRun_pc (r : Run) : (s.setRun r).pc = s.pc := rfl
@[simp] theorem State.setRun_stack (r : Run) : (s.setRun r).stack = s.stack := rfl
@[simp] theorem State.setRun_sp (r : Run) : (s.setRun r).sp = s.sp := rfl
@[simp] theorem State.setRun_dt (r : Run) : (s.setRun r).dt = s.dt := rfl
@[simp] theorem State.setRun_st (r : Run) : (s.setRun r).st = s.st := rfl
@[simp] theorem State.setRun_fb (r : Run) : (s.setRun r).fb = s.fb := rfl
@[simp] theorem State.setRun_mem (r : Run) : (s.setRun r).mem = s.mem := rfl
@[simp] theorem State.setRun_run (r : Run) : (s.setRun r).run = r := rfl
@[simp] theorem State.setRun_present (r : Run) : (s.setRun r).present = s.present := rfl
@[simp] theorem State.setRun_cfg (r : Run) : (s.setRun r).cfg = s.cfg := rfl
@[simp] theorem State.setRun_inputs (r : Run) : (s.setRun r).inputs = s.inputs := rfl
@[simp] theorem State.setRun_draws (r : Run) : (s.setRun r).draws = s.draws := rfl
@[simp] theorem State.getV_setRun (r : Run) (q : Reg) : (s.setRun r).getV q = s.getV q := rfl
@[simp] theorem State.readByte_setRun (r : Run) (q : Nat) : (s.setRun r).readByte q = s.readByte q := rfl
@[simp] theorem State.sample_setRun (r : Run) : (s.setRun r).sample = s.sample := rfl

/-! ### raiseAt -/

@[simp] theorem State.raiseAt_v (a : Word) (op : Option Word) (f : Fault) : (s.raiseAt a op f).v = s.v := rfl
@[simp] theorem State.raiseAt_i (a : Word) (op : Option Word) (f : Fault) : (s.raiseAt a op f).i = s.i := rfl
@[simp] theorem State.raiseAt_pc (a : Word) (op : Option Word) (f : Fault) : (s.raiseAt a op f).pc = Config.freePc s.draws := rfl
@[simp] theorem State.raiseAt_stack (a : Word) (op : Option Word) (f : Fault) : (s.raiseAt a op f).stack = s.stack := rfl
@[simp] theorem State.raiseAt_sp (a : Word) (op : Option Word) (f : Fault) : (s.raiseAt a op f).sp = s.sp := rfl
@[simp] theorem State.raiseAt_dt (a : Word) (op : Option Word) (f : Fault) : (s.raiseAt a op f).dt = Config.freeDt s.draws := rfl
@[simp] theorem State.raiseAt_st (a : Word) (op : Option Word) (f : Fault) : (s.raiseAt a op f).st = Config.freeSt s.draws := rfl
@[simp] theorem State.raiseAt_fb (a : Word) (op : Option Word) (f : Fault) : (s.raiseAt a op f).fb = s.fb := rfl
@[simp] theorem State.raiseAt_mem (a : Word) (op : Option Word) (f : Fault) : (s.raiseAt a op f).mem = s.mem := rfl
@[simp] theorem State.raiseAt_run (a : Word) (op : Option Word) (f : Fault) : (s.raiseAt a op f).run = .faulted { fault := f, pc := a, opcode := op } := rfl
@[simp] theorem State.raiseAt_present (a : Word) (op : Option Word) (f : Fault) : (s.raiseAt a op f).present = s.present := rfl
@[simp] theorem State.raiseAt_cfg (a : Word) (op : Option Word) (f : Fault) : (s.raiseAt a op f).cfg = s.cfg := rfl
@[simp] theorem State.raiseAt_inputs (a : Word) (op : Option Word) (f : Fault) : (s.raiseAt a op f).inputs = s.inputs := rfl
@[simp] theorem State.raiseAt_draws (a : Word) (op : Option Word) (f : Fault) : (s.raiseAt a op f).draws = s.draws := rfl
@[simp] theorem State.getV_raiseAt (a : Word) (op : Option Word) (f : Fault) (q : Reg) : (s.raiseAt a op f).getV q = s.getV q := rfl
@[simp] theorem State.readByte_raiseAt (a : Word) (op : Option Word) (f : Fault) (q : Nat) : (s.raiseAt a op f).readByte q = s.readByte q := rfl
@[simp] theorem State.sample_raiseAt (a : Word) (op : Option Word) (f : Fault) : (s.raiseAt a op f).sample = s.sample := rfl

/-! ### raise -/

@[simp] theorem State.raise_v (i : Instr) (f : Fault) : (s.raise i f).v = s.v := rfl
@[simp] theorem State.raise_i (i : Instr) (f : Fault) : (s.raise i f).i = s.i := rfl
@[simp] theorem State.raise_pc (i : Instr) (f : Fault) : (s.raise i f).pc = Config.freePc s.draws := rfl
@[simp] theorem State.raise_stack (i : Instr) (f : Fault) : (s.raise i f).stack = s.stack := rfl
@[simp] theorem State.raise_sp (i : Instr) (f : Fault) : (s.raise i f).sp = s.sp := rfl
@[simp] theorem State.raise_dt (i : Instr) (f : Fault) : (s.raise i f).dt = Config.freeDt s.draws := rfl
@[simp] theorem State.raise_st (i : Instr) (f : Fault) : (s.raise i f).st = Config.freeSt s.draws := rfl
@[simp] theorem State.raise_fb (i : Instr) (f : Fault) : (s.raise i f).fb = s.fb := rfl
@[simp] theorem State.raise_mem (i : Instr) (f : Fault) : (s.raise i f).mem = s.mem := rfl
@[simp] theorem State.raise_run (i : Instr) (f : Fault) : (s.raise i f).run = .faulted { fault := f, pc := s.pc - 2#16, opcode := some (encode i) } := rfl
@[simp] theorem State.raise_present (i : Instr) (f : Fault) : (s.raise i f).present = s.present := rfl
@[simp] theorem State.raise_cfg (i : Instr) (f : Fault) : (s.raise i f).cfg = s.cfg := rfl
@[simp] theorem State.raise_inputs (i : Instr) (f : Fault) : (s.raise i f).inputs = s.inputs := rfl
@[simp] theorem State.raise_draws (i : Instr) (f : Fault) : (s.raise i f).draws = s.draws := rfl
@[simp] theorem State.getV_raise (i : Instr) (f : Fault) (q : Reg) : (s.raise i f).getV q = s.getV q := rfl
@[simp] theorem State.readByte_raise (i : Instr) (f : Fault) (q : Nat) : (s.raise i f).readByte q = s.readByte q := rfl
@[simp] theorem State.sample_raise (i : Instr) (f : Fault) : (s.raise i f).sample = s.sample := rfl

/-! ### skipIf -/

@[simp] theorem State.skipIf_v (c : Bool) : (s.skipIf c).v = s.v := rfl
@[simp] theorem State.skipIf_i (c : Bool) : (s.skipIf c).i = s.i := rfl
@[simp] theorem State.skipIf_pc (c : Bool) : (s.skipIf c).pc = if c then s.pc + 2#16 else s.pc := rfl
@[simp] theorem State.skipIf_stack (c : Bool) : (s.skipIf c).stack = s.stack := rfl
@[simp] theorem State.skipIf_sp (c : Bool) : (s.skipIf c).sp = s.sp := rfl
@[simp] theorem State.skipIf_dt (c : Bool) : (s.skipIf c).dt = s.dt := rfl
@[simp] theorem State.skipIf_st (c : Bool) : (s.skipIf c).st = s.st := rfl
@[simp] theorem State.skipIf_fb (c : Bool) : (s.skipIf c).fb = s.fb := rfl
@[simp] theorem State.skipIf_mem (c : Bool) : (s.skipIf c).mem = s.mem := rfl
@[simp] theorem State.skipIf_run (c : Bool) : (s.skipIf c).run = s.run := rfl
@[simp] theorem State.skipIf_present (c : Bool) : (s.skipIf c).present = s.present := rfl
@[simp] theorem State.skipIf_cfg (c : Bool) : (s.skipIf c).cfg = s.cfg := rfl
@[simp] theorem State.skipIf_inputs (c : Bool) : (s.skipIf c).inputs = s.inputs := rfl
@[simp] theorem State.skipIf_draws (c : Bool) : (s.skipIf c).draws = s.draws := rfl
@[simp] theorem State.getV_skipIf (c : Bool) (q : Reg) : (s.skipIf c).getV q = s.getV q := rfl
@[simp] theorem State.readByte_skipIf (c : Bool) (q : Nat) : (s.skipIf c).readByte q = s.readByte q := rfl
@[simp] theorem State.sample_skipIf (c : Bool) : (s.skipIf c).sample = s.sample := rfl

/-! ### freeRegs -/

@[simp] theorem State.freeRegs_i (n : Nat) : (s.freeRegs n).i = s.i := by
  unfold State.freeRegs; rfl
@[simp] theorem State.freeRegs_pc (n : Nat) : (s.freeRegs n).pc = s.pc := by
  unfold State.freeRegs; rfl
@[simp] theorem State.freeRegs_stack (n : Nat) : (s.freeRegs n).stack = s.stack := by
  unfold State.freeRegs; rfl
@[simp] theorem State.freeRegs_sp (n : Nat) : (s.freeRegs n).sp = s.sp := by
  unfold State.freeRegs; rfl
@[simp] theorem State.freeRegs_dt (n : Nat) : (s.freeRegs n).dt = s.dt := by
  unfold State.freeRegs; rfl
@[simp] theorem State.freeRegs_st (n : Nat) : (s.freeRegs n).st = s.st := by
  unfold State.freeRegs; rfl
@[simp] theorem State.freeRegs_fb (n : Nat) : (s.freeRegs n).fb = s.fb := by
  unfold State.freeRegs; rfl
@[simp] theorem State.freeRegs_mem (n : Nat) : (s.freeRegs n).mem = s.mem := by
  unfold State.freeRegs; rfl
@[simp] theorem State.freeRegs_run (n : Nat) : (s.freeRegs n).run = s.run := by
  unfold State.freeRegs; rfl
@[simp] theorem State.freeRegs_present (n : Nat) : (s.freeRegs n).present = s.present := by
  unfold State.freeRegs; rfl
@[simp] theorem State.freeRegs_cfg (n : Nat) : (s.freeRegs n).cfg = s.cfg := by
  unfold State.freeRegs; rfl
@[simp] theorem State.freeRegs_inputs (n : Nat) : (s.freeRegs n).inputs = s.inputs := by
  unfold State.freeRegs; rfl
@[simp] theorem State.freeRegs_draws (n : Nat) : (s.freeRegs n).draws = s.draws := by
  unfold State.freeRegs; rfl
@[simp] theorem State.readByte_freeRegs (n : Nat) (q : Nat) : (s.freeRegs n).readByte q = s.readByte q := by
  unfold State.freeRegs; rfl
@[simp] theorem State.sample_freeRegs (n : Nat) : (s.freeRegs n).sample = s.sample := by
  unfold State.freeRegs; rfl

/-! ### advance -/

@[simp] theorem State.advance_v : (s.advance).v = s.v := rfl
@[simp] theorem State.advance_i : (s.advance).i = s.i := rfl
@[simp] theorem State.advance_pc : (s.advance).pc = s.pc + 2#16 := rfl
@[simp] theorem State.advance_stack : (s.advance).stack = s.stack := rfl
@[simp] theorem State.advance_sp : (s.advance).sp = s.sp := rfl
@[simp] theorem State.advance_dt : (s.advance).dt = s.dt := rfl
@[simp] theorem State.advance_st : (s.advance).st = s.st := rfl
@[simp] theorem State.advance_fb : (s.advance).fb = s.fb := rfl
@[simp] theorem State.advance_mem : (s.advance).mem = s.mem := rfl
@[simp] theorem State.advance_run : (s.advance).run = s.run := rfl
@[simp] theorem State.advance_present : (s.advance).present = s.present := rfl
@[simp] theorem State.advance_cfg : (s.advance).cfg = s.cfg := rfl
@[simp] theorem State.advance_inputs : (s.advance).inputs = s.inputs := rfl
@[simp] theorem State.advance_draws : (s.advance).draws = s.draws := rfl
@[simp] theorem State.getV_advance (q : Reg) : (s.advance).getV q = s.getV q := rfl
@[simp] theorem State.readByte_advance (q : Nat) : (s.advance).readByte q = s.readByte q := rfl
@[simp] theorem State.sample_advance : (s.advance).sample = s.sample := rfl

/-! ### useSample -/

@[simp] theorem State.useSample_v : (s.useSample).v = s.v := rfl
@[simp] theorem State.useSample_i : (s.useSample).i = s.i := rfl
@[simp] theorem State.useSample_pc : (s.useSample).pc = s.pc := rfl
@[simp] theorem State.useSample_stack : (s.useSample).stack = s.stack := rfl
@[simp] theorem State.useSample_sp : (s.useSample).sp = s.sp := rfl
@[simp] theorem State.useSample_dt : (s.useSample).dt = s.dt := rfl
@[simp] theorem State.useSample_st : (s.useSample).st = s.st := rfl
@[simp] theorem State.useSample_fb : (s.useSample).fb = s.fb := rfl
@[simp] theorem State.useSample_mem : (s.useSample).mem = s.mem := rfl
@[simp] theorem State.useSample_run : (s.useSample).run = s.run := rfl
@[simp] theorem State.useSample_present : (s.useSample).present = s.present := rfl
@[simp] theorem State.useSample_cfg : (s.useSample).cfg = s.cfg := rfl
@[simp] theorem State.useSample_inputs : (s.useSample).inputs = s.inputs.tail := rfl
@[simp] theorem State.useSample_draws : (s.useSample).draws = s.draws + 1 := rfl
@[simp] theorem State.getV_useSample (q : Reg) : (s.useSample).getV q = s.getV q := rfl
@[simp] theorem State.readByte_useSample (q : Nat) : (s.useSample).readByte q = s.readByte q := rfl

/-! ### complete -/

@[simp] theorem State.complete_v : (s.complete).v = s.v := rfl
@[simp] theorem State.complete_i : (s.complete).i = s.i := rfl
@[simp] theorem State.complete_pc : (s.complete).pc = s.pc := rfl
@[simp] theorem State.complete_stack : (s.complete).stack = s.stack := rfl
@[simp] theorem State.complete_sp : (s.complete).sp = s.sp := rfl
@[simp] theorem State.complete_dt : (s.complete).dt = tick s.dt := rfl
@[simp] theorem State.complete_st : (s.complete).st = tick s.st := rfl
@[simp] theorem State.complete_fb : (s.complete).fb = s.fb := rfl
@[simp] theorem State.complete_mem : (s.complete).mem = s.mem := rfl
@[simp] theorem State.complete_run : (s.complete).run = .running := rfl
@[simp] theorem State.complete_present : (s.complete).present = s.present := rfl
@[simp] theorem State.complete_cfg : (s.complete).cfg = s.cfg := rfl
@[simp] theorem State.complete_inputs : (s.complete).inputs = s.inputs := rfl
@[simp] theorem State.complete_draws : (s.complete).draws = s.draws := rfl
@[simp] theorem State.getV_complete (q : Reg) : (s.complete).getV q = s.getV q := rfl
@[simp] theorem State.readByte_complete (q : Nat) : (s.complete).readByte q = s.readByte q := rfl
@[simp] theorem State.sample_complete : (s.complete).sample = s.sample := rfl

/-! ### Register reads after register writes -/

@[simp] theorem State.getV_setV_same (r : Reg) (b : Byte) : (s.setV r b).getV r = b := by
  simp [State.getV, State.setV]

theorem State.getV_setV_ne {r q : Reg} (b : Byte) (h : q ≠ r) :
    (s.setV r b).getV q = s.getV q := by
  have hv : r.val ≠ q.val := fun e => h (Fin.ext e.symm)
  simp [State.getV, State.setV, hv]

/-- A register after a write, in one line. -/
theorem State.getV_setV (r q : Reg) (b : Byte) :
    (s.setV r b).getV q = if q = r then b else s.getV q := by
  by_cases h : q = r
  · subst h; simp
  · rw [if_neg h]; exact s.getV_setV_ne b h

/-- A faulting load leaves the registers from `n` on alone. -/
theorem State.getV_freeRegs (n : Nat) (q : Reg) :
    (s.freeRegs n).getV q = if q.val < n then Config.freeReg s.draws q else s.getV q := by
  simp [State.getV, State.freeRegs, State.freedRegs]

/-! ### The end of a cycle -/

/-- A cycle that did not fault ticks, runs on and uses its sample. -/
theorem State.endCycle_of_not_faulted (h : ∀ r, s.run ≠ .faulted r) :
    s.endCycle = s.complete.useSample := by
  unfold State.endCycle
  split
  · rename_i r hr; exact absurd hr (h r)
  all_goals rfl

/-- A cycle that faulted keeps everything its raise left. -/
theorem State.endCycle_of_faulted {r : FaultRecord} (h : s.run = .faulted r) :
    s.endCycle = s.useSample := by
  simp [State.endCycle, h]

end Sys2Proof.Machine
end

