-- ==== Sys2Proof/Laws/Memory.lean ====
section
/-! SUPPORT. MEM: reads after writes, the canonical form, and what the byte accesses of spec/20_memory.md R62 can answer. -/

namespace Sys2Proof.Machine

/-! ### The list -/

theorem Memory.lookup_insert (a b : Nat) (x : Byte) (m : Memory) :
    Memory.lookup b (Memory.insert a x m) = if b = a then some x else Memory.lookup b m := by
  induction m with
  | nil => simp [Memory.insert, Memory.lookup]
  | cons c rest ih =>
    obtain ⟨k, v⟩ := c
    simp only [Memory.insert]
    by_cases h1 : a < k
    · simp [h1, Memory.lookup]
    · by_cases h2 : a = k
      · subst h2
        by_cases hb : b = a <;> simp [Memory.lookup, hb]
      · by_cases hk : b = k
        · have : b ≠ a := fun e => h2 (e ▸ hk)
          simp [h1, h2, Memory.lookup, hk, Ne.symm h2]
        · simp [h1, h2, Memory.lookup, hk, ih]

theorem Memory.lookup_erase (a b : Nat) (m : Memory) :
    Memory.lookup b (Memory.erase a m) = if b = a then none else Memory.lookup b m := by
  induction m with
  | nil => simp [Memory.erase, Memory.lookup]
  | cons c rest ih =>
    obtain ⟨k, v⟩ := c
    simp only [Memory.erase]
    by_cases hak : a = k
    · subst hak
      rw [if_pos rfl, ih]
      by_cases hb : b = a <;> simp [Memory.lookup, hb]
    · by_cases hbk : b = k
      · have : b ≠ a := fun e => hak (e ▸ hbk)
        simp [hak, Memory.lookup, hbk, Ne.symm hak]
      · simp [hak, Memory.lookup, hbk, ih]

/-! ### The canonical form -/

theorem Memory.wfFrom_mono {cfg : Config} {lo lo' : Nat} {m : Memory}
    (h : Memory.wfFrom cfg lo m = true) (hl : lo' ≤ lo) : Memory.wfFrom cfg lo' m = true := by
  cases m with
  | nil => rfl
  | cons c rest =>
    obtain ⟨k, v⟩ := c
    simp only [Memory.wfFrom, Bool.and_eq_true, decide_eq_true_eq] at h ⊢
    exact ⟨⟨⟨by omega, h.1.1.2⟩, h.1.2⟩, h.2⟩

theorem Memory.wfFrom_insert {cfg : Config} {lo a : Nat} {x : Byte} {m : Memory}
    (h : Memory.wfFrom cfg lo m = true) (hlo : lo ≤ a) (ha : a < memSize)
    (hx : Memory.unlisted cfg a ≠ some x) : Memory.wfFrom cfg lo (Memory.insert a x m) = true := by
  induction m generalizing lo with
  | nil => simp [Memory.insert, Memory.wfFrom, hlo, ha, hx]
  | cons c rest ih =>
    obtain ⟨k, v⟩ := c
    simp only [Memory.wfFrom, Bool.and_eq_true, decide_eq_true_eq] at h
    simp only [Memory.insert]
    by_cases h1 : a < k
    · simp only [h1, if_true, Memory.wfFrom, Bool.and_eq_true, decide_eq_true_eq]
      exact ⟨⟨⟨hlo, ha⟩, hx⟩, ⟨⟨by omega, h.1.1.2⟩, h.1.2⟩, h.2⟩
    · by_cases h2 : a = k
      · subst h2
        simp only [Nat.lt_irrefl, if_false, if_true, Memory.wfFrom, Bool.and_eq_true,
          decide_eq_true_eq]
        exact ⟨⟨⟨hlo, ha⟩, hx⟩, h.2⟩
      · simp only [h1, h2, if_false, Memory.wfFrom, Bool.and_eq_true, decide_eq_true_eq]
        exact ⟨h.1, ih h.2 (by omega)⟩

theorem Memory.wfFrom_erase {cfg : Config} {lo a : Nat} {m : Memory}
    (h : Memory.wfFrom cfg lo m = true) : Memory.wfFrom cfg lo (Memory.erase a m) = true := by
  induction m generalizing lo with
  | nil => rfl
  | cons c rest ih =>
    obtain ⟨k, v⟩ := c
    simp only [Memory.wfFrom, Bool.and_eq_true, decide_eq_true_eq] at h
    simp only [Memory.erase]
    by_cases hak : a = k
    · simp only [hak, if_true]
      exact hak ▸ Memory.wfFrom_mono (ih h.2) (by omega)
    · simp only [hak, if_false, Memory.wfFrom, Bool.and_eq_true, decide_eq_true_eq]
      exact ⟨h.1, ih h.2⟩

/-- A write below 4096 keeps the canonical form. -/
theorem Memory.wf_write {cfg : Config} {a : Nat} {m : Memory} (x : Byte)
    (h : Memory.wf cfg m = true) (ha : a < memSize) :
    Memory.wf cfg (Memory.write cfg m a x) = true := by
  unfold Memory.write
  split
  · exact Memory.wfFrom_erase h
  · rename_i hx
    exact Memory.wfFrom_insert h (Nat.zero_le a) ha hx

/-! ### Reads after writes (20_memory.md R72) -/

theorem Memory.read_write (cfg : Config) (m : Memory) (a b : Nat) (x : Byte) :
    Memory.read cfg (Memory.write cfg m a x) b = if b = a then x else Memory.read cfg m b := by
  unfold Memory.write
  split
  · rename_i hu
    simp only [Memory.read, Memory.lookup_erase]
    by_cases hb : b = a <;> simp [hb, hu]
  · simp only [Memory.read, Memory.lookup_insert]
    by_cases hb : b = a <;> simp [hb]

theorem Memory.read_write_ne (cfg : Config) (m : Memory) {a b : Nat} (x : Byte) (hb : b ≠ a) :
    Memory.read cfg (Memory.write cfg m a x) b = Memory.read cfg m b := by
  rw [Memory.read_write, if_neg hb]

/-! ### The byte accesses (R62) -/

variable (s : State)

theorem State.memRead_ok {a : Nat} (h : a < memSize) : s.memRead a = .ok (s.readByte a) := by
  simp [State.memRead, Nat.not_le.mpr h]

theorem State.memRead_error {a : Nat} (h : memSize ≤ a) :
    s.memRead a = .error (.outOfBounds a) := by
  simp [State.memRead, h]

/-- A run of reads that stays in memory answers its bytes, in order. -/
theorem State.memReads_ok (a n : Nat) (h : a + n ≤ memSize) :
    s.memReads a n = .ok ((List.range n).map fun k => s.readByte (a + k)) := by
  induction n generalizing a with
  | zero => rfl
  | succ n ih =>
    simp only [State.memReads, s.memRead_ok (show a < memSize by omega), ih (a + 1) (by omega),
      List.range_succ_eq_map, List.map_cons, List.map_map, Nat.add_zero]
    congr 2
    apply List.map_congr_left
    intro k _
    simp only [Function.comp, Nat.succ_eq_add_one]
    congr 1
    omega

/-- A run of reads that leaves memory raises its lowest bad address. -/
theorem State.memReads_error (a n : Nat) (hn : 0 < n) (h : memSize < a + n) :
    s.memReads a n = .error (.outOfBounds (max a memSize)) := by
  induction n generalizing a with
  | zero => omega
  | succ n ih =>
    by_cases ha : memSize ≤ a
    · simp only [State.memReads, s.memRead_error ha, Nat.max_eq_left ha]
    · have hlt : a < memSize := by omega
      have hm : max (a + 1) memSize = max a memSize := by omega
      simp only [State.memReads, s.memRead_ok hlt, ih (a + 1) (by omega) (by omega), hm]

/-- Bytes put at `a, a + 1, …`: the memory a completed run of writes leads to. -/
def Memory.writeAll (cfg : Config) (m : Memory) (a : Nat) : List Byte → Memory
  | [] => m
  | b :: rest => Memory.writeAll cfg (Memory.write cfg m a b) (a + 1) rest

/-- A run of writes that stays in memory changes MEM alone. -/
theorem State.memWrites_ok (a : Nat) (bs : List Byte) (h : a + bs.length ≤ memSize) :
    s.memWrites a bs = .ok (s.setMem (Memory.writeAll s.cfg s.mem a bs)) := by
  induction bs generalizing a s with
  | nil => rfl
  | cons b rest ih =>
    simp only [List.length_cons] at h
    have hlt : ¬ memSize ≤ a := by omega
    simp only [State.memWrites, State.memWrite, hlt, if_false]
    rw [ih _ (a + 1) (by omega)]
    rfl

/-- A run of writes that leaves memory raises its lowest bad address. -/
theorem State.memWrites_error (a : Nat) (bs : List Byte) (hn : bs ≠ [])
    (h : memSize < a + bs.length) :
    s.memWrites a bs = .error (.outOfBounds (max a memSize)) := by
  induction bs generalizing a s with
  | nil => exact absurd rfl hn
  | cons b rest ih =>
    simp only [List.length_cons] at h
    by_cases ha : memSize ≤ a
    · simp [State.memWrites, State.memWrite, ha]
    · have hr : rest ≠ [] := by
        intro e
        subst e
        simp only [List.length_nil] at h
        omega
      have hm : max (a + 1) memSize = max a memSize := by omega
      simp only [State.memWrites, State.memWrite, ha, if_false]
      rw [ih _ (a + 1) hr (by omega), hm]

theorem Memory.wf_writeAll {cfg : Config} {m : Memory} (a : Nat) (bs : List Byte)
    (h : Memory.wf cfg m = true) (hb : a + bs.length ≤ memSize) :
    Memory.wf cfg (Memory.writeAll cfg m a bs) = true := by
  induction bs generalizing a m with
  | nil => exact h
  | cons b rest ih =>
    simp only [List.length_cons] at hb
    exact ih (a + 1) (Memory.wf_write b h (by omega)) (by omega)

/-- A byte after a run of writes: the byte written there, or what was there. -/
theorem Memory.read_writeAll (cfg : Config) (m : Memory) (a : Nat) (bs : List Byte) (c : Nat) :
    Memory.read cfg (Memory.writeAll cfg m a bs) c =
      if hc : a ≤ c ∧ c - a < bs.length then bs[c - a] else Memory.read cfg m c := by
  induction bs generalizing a m with
  | nil => simp [Memory.writeAll]
  | cons b rest ih =>
    simp only [Memory.writeAll]
    rw [ih]
    by_cases h1 : c = a
    · subst h1
      simp [Memory.read_write]
    · rw [Memory.read_write, if_neg h1]
      by_cases h2 : a + 1 ≤ c ∧ c - (a + 1) < rest.length
      · have h3 : a ≤ c ∧ c - a < (b :: rest).length := by
          simp only [List.length_cons]; omega
        have h4 : c - a = (c - (a + 1)) + 1 := by omega
        rw [dif_pos h2, dif_pos h3]
        simp only [h4, List.getElem_cons_succ]
      · have h3 : ¬ (a ≤ c ∧ c - a < (b :: rest).length) := by
          simp only [List.length_cons]; omega
        rw [dif_neg h2, dif_neg h3]

/-! ### The free bytes of a faulting store -/

/-- The free bytes change MEM alone and leave every byte outside them. -/
theorem State.freeBytes_spec (n : Nat) : ∀ (s : State) (a : Nat),
    ∃ m, s.freeBytes a n = s.setMem m ∧
      ∀ b, b < a ∨ a + n ≤ b → Memory.read s.cfg m b = Memory.read s.cfg s.mem b := by
  induction n with
  | zero => exact fun s a => ⟨s.mem, rfl, fun _ _ => rfl⟩
  | succ n ih =>
    intro s a
    obtain ⟨m, h1, h3⟩ :=
      ih (s.setMem (Memory.write s.cfg s.mem a (Config.freeMem s.draws a))) (a + 1)
    exact ⟨m, h1, fun b hb => (h3 b (by omega)).trans
      (Memory.read_write_ne s.cfg s.mem _ (show b ≠ a by omega))⟩

/-- Below 4096 the free bytes keep MEM canonical. -/
theorem State.freeBytes_wf (n : Nat) : ∀ (s : State) (a : Nat), a + n ≤ memSize →
    Memory.wf s.cfg s.mem = true → Memory.wf s.cfg (s.freeBytes a n).mem = true := by
  induction n with
  | zero => exact fun _ _ _ h => h
  | succ n ih =>
    exact fun s a ha h =>
      ih (s.setMem (Memory.write s.cfg s.mem a (Config.freeMem s.draws a))) (a + 1) (by omega)
        (Memory.wf_write (Config.freeMem s.draws a) h (by omega))

end Sys2Proof.Machine
end

