-- ==== Sys2Proof/Laws/Ops.lean ====
section
/-! SUPPORT. What the shared operations can answer: the stack (spec/10_state.md R33), register transfers (43_index_memory.md R195, R196), the fetch (40_cycle.md R121), the timers' tick (R125), and the transfers at I. -/

namespace Sys2Proof.Machine

variable (s : State)

/-! ### The stack -/

/-- A push that has room: STACK[SP] is the word, SP is one more. -/
theorem State.push_of_room (w : Word) (h : s.sp.val < 16) :
    s.push w = some { s with stack := s.stack.set s.sp.val w, sp := ⟨s.sp.val + 1, by omega⟩ } := by
  simp [State.push, h]

/-- A push on a full stack does nothing. -/
theorem State.push_of_full (w : Word) (h : s.sp.val = 16) : s.push w = none := by
  simp [State.push, h]

/-- A pop from a stack that holds something: the top entry; SP is one less. -/
theorem State.pop_of_nonempty (h : 0 < s.sp.val) :
    s.pop = some (s.stack[s.sp.val - 1]'(by have := s.sp.isLt; omega),
      { s with sp := ⟨s.sp.val - 1, by have := s.sp.isLt; omega⟩ }) := by
  simp [State.pop, h]

/-- A pop from an empty stack does nothing. -/
theorem State.pop_of_empty (h : s.sp.val = 0) : s.pop = none := by
  simp [State.pop, h]

/-! ### Register transfers -/

/-- Loading a list of bytes into consecutive registers changes V alone. -/
theorem State.setVs_eq (bs : List Byte) : ∀ (s : State) (k : Nat),
    s.setVs k bs = { s with v := (s.setVs k bs).v } := by
  induction bs with
  | nil => exact fun _ _ => rfl
  | cons b rest ih =>
    intro s k
    unfold State.setVs
    split
    · rename_i h
      exact ih (s.setV ⟨k, h⟩ b) (k + 1)
    · rfl

/-- A register after loading a list of bytes from register `k` on. -/
theorem State.getV_setVs (bs : List Byte) : ∀ (s : State) (k : Nat) (r : Reg),
    (s.setVs k bs).getV r =
      if h : k ≤ r.val ∧ r.val - k < bs.length then bs[r.val - k] else s.getV r := by
  induction bs with
  | nil => intro s k r; simp [State.setVs]
  | cons b rest ih =>
    intro s k r
    have hr := r.isLt
    unfold State.setVs
    split
    · rename_i hk
      rw [ih]
      by_cases h1 : k + 1 ≤ r.val ∧ r.val - (k + 1) < rest.length
      · have h2 : k ≤ r.val ∧ r.val - k < (b :: rest).length := by
          simp only [List.length_cons]; omega
        have h3 : r.val - k = (r.val - (k + 1)) + 1 := by omega
        rw [dif_pos h1, dif_pos h2]
        simp only [h3, List.getElem_cons_succ]
      · rw [dif_neg h1, State.getV_setV]
        by_cases h4 : r = ⟨k, hk⟩
        · have h5 : r.val = k := by rw [h4]
          have h2 : k ≤ r.val ∧ r.val - k < (b :: rest).length := by
            simp only [List.length_cons]; omega
          rw [if_pos h4, dif_pos h2]
          have h6 : r.val - k = 0 := by omega
          simp only [h6, List.getElem_cons_zero]
        · have h5 : r.val ≠ k := fun e => h4 (Fin.ext e)
          have h2 : ¬ (k ≤ r.val ∧ r.val - k < (b :: rest).length) := by
            simp only [List.length_cons]; omega
          rw [if_neg h4, dif_neg h2]
    · rename_i hk
      have h2 : ¬ (k ≤ r.val ∧ r.val - k < (b :: rest).length) := by omega
      rw [dif_neg h2]

@[simp] theorem State.length_getVs (x : Reg) : (s.getVs x).length = x.val + 1 := by
  have := x.isLt
  simp [State.getVs]

theorem State.getElem_getVs (x : Reg) (k : Nat) (h : k < (s.getVs x).length) :
    (s.getVs x)[k] = s.getV ⟨k, by rw [s.length_getVs] at h; have := x.isLt; omega⟩ := by
  simp [State.getVs, State.getV]

@[simp] theorem length_bcdDigits (b : Byte) : (bcdDigits b).length = 3 := rfl

/-! ### Transfers at I -/

/-- A store at I that stays in memory changes MEM alone. -/
theorem State.storeAtI_ok (bs : List Byte) (h : s.i.toNat + bs.length ≤ memSize) :
    s.memWrites (s.ea 0) bs = .ok (s.setMem (Memory.writeAll s.cfg s.mem s.i.toNat bs)) :=
  s.memWrites_ok s.i.toNat bs h

/-- A store at I that leaves memory. -/
theorem State.storeAtI_error (bs : List Byte) (hn : bs ≠ []) (h : memSize < s.i.toNat + bs.length) :
    s.memWrites (s.ea 0) bs = .error (.outOfBounds (max s.i.toNat memSize)) :=
  s.memWrites_error s.i.toNat bs hn h

/-- A load at I that stays in memory. -/
theorem State.loadAtI_ok (n : Nat) (h : s.i.toNat + n ≤ memSize) :
    s.memReads (s.ea 0) n = .ok ((List.range n).map fun k => s.readByte (s.i.toNat + k)) :=
  s.memReads_ok s.i.toNat n h

/-- A load at I that leaves memory. -/
theorem State.loadAtI_error (n : Nat) (hn : 0 < n) (h : memSize < s.i.toNat + n) :
    s.memReads (s.ea 0) n = .error (.outOfBounds (max s.i.toNat memSize)) :=
  s.memReads_error s.i.toNat n hn h

/-- The free bytes of a store that leaves memory stay below 4096. -/
theorem inRange_le (a n : Nat) (h : a < memSize) : a + inRange a n ≤ memSize := by
  unfold inRange
  omega

/-- A byte of memory after a run of writes that stays in memory. -/
theorem State.readByte_setMem_writeAll (a : Nat) (bs : List Byte) (c : Nat) :
    (s.setMem (Memory.writeAll s.cfg s.mem a bs)).readByte c =
      if h : a ≤ c ∧ c - a < bs.length then bs[c - a] else s.readByte c :=
  Memory.read_writeAll s.cfg s.mem a bs c

/-! ### Fetch and cycle -/

theorem State.fetch_ok (a : Nat) (h : a + 1 < memSize) :
    s.fetch a = .ok (wordOfBytes (s.readByte a) (s.readByte (a + 1))) := by
  simp only [State.fetch, s.memRead_ok (show a < memSize by omega), s.memRead_ok h]

theorem State.fetch_error (a : Nat) (h : memSize ≤ a + 1) :
    s.fetch a = .error (.outOfBounds (max a memSize)) := by
  by_cases ha : memSize ≤ a
  · simp only [State.fetch, s.memRead_error ha, Nat.max_eq_left ha]
  · have e : max a memSize = a + 1 := by omega
    simp only [State.fetch, s.memRead_ok (show a < memSize by omega), s.memRead_error h, e]

/-- The two bytes of a word make the word again. -/
theorem wordOfBytes_bytes (op : Word) :
    wordOfBytes (op.extractLsb' 8 8) (op.extractLsb' 0 8) = op := by
  ext k hk
  simp only [← BitVec.getLsbD_eq_getElem, wordOfBytes, BitVec.getLsbD_append,
    BitVec.getLsbD_extractLsb']
  have hk' : k < 16 := hk
  interval_cases k <;> simp

theorem tick_toNat (t : Byte) : (tick t).toNat = t.toNat - 1 := by
  unfold tick
  split
  · rename_i h; subst h; rfl
  · rename_i h
    have : t.toNat ≠ 0 := fun e => h (BitVec.eq_of_toNat_eq (by simpa using e))
    have := t.isLt
    simp only [BitVec.toNat_sub, BitVec.toNat_ofNat]
    omega

end Sys2Proof.Machine
end

