-- ==== Sys2Proof/Laws/Display.lean ====
section
/-! SUPPORT. The blitter in closed form: what one sprite byte does to a screen row (spec/44_display.md R211), and what a draw can change (R213). -/

namespace Sys2Proof.Machine

/-- One turn of the blit loop, at any column. -/
theorem blitPixel_get (x : Nat) (row : Byte) (acc : FbRow × Bool) (j : Nat) (xx : Fin 64) :
    (blitPixel x row acc j).1[xx] =
      (acc.1[xx] != (row.getLsbD (7 - j) && decide ((x + j) % 64 = xx.val))) := by
  unfold blitPixel
  by_cases hb : row.getLsbD (7 - j)
  · simp only [hb, if_true, Bool.true_and]
    by_cases hx : (x + j) % 64 = xx.val
    · have e : (Fin.ofNat 64 (x + j)) = xx := Fin.ext hx
      simp [hx]
    · simp [hx]
  · simp [hb]

theorem blitPixel_collision (x : Nat) (row : Byte) (acc : FbRow × Bool) (j : Nat) :
    (blitPixel x row acc j).2 =
      (acc.2 || (row.getLsbD (7 - j) && acc.1[(Fin.ofNat 64 (x + j) : Fin 64)])) := by
  unfold blitPixel
  by_cases hb : row.getLsbD (7 - j) <;> simp [hb]

/-- The loop of blit over any distinct pixel numbers below 8: each column it meets is XORed once, because eight columns in a row are distinct modulo 64. -/
theorem blitPixel_foldl (x : Nat) (row : Byte) (js : List Nat) : (∀ j ∈ js, j < 8) → js.Nodup →
    ∀ acc : FbRow × Bool,
      (∀ xx : Fin 64, (js.foldl (blitPixel x row) acc).1[xx] =
        (acc.1[xx] != decide (∃ j ∈ js, (x + j) % 64 = xx.val ∧ row.getLsbD (7 - j) = true))) ∧
      ((js.foldl (blitPixel x row) acc).2 = true ↔ acc.2 = true ∨
        ∃ j ∈ js, row.getLsbD (7 - j) = true ∧ acc.1[(Fin.ofNat 64 (x + j) : Fin 64)] = true) := by
  induction js with
  | nil => intro _ _ acc; simp
  | cons j rest ih =>
    intro hlt hnd acc
    have hj : j < 8 := hlt j (by simp)
    have hrest : ∀ k ∈ rest, k < 8 := fun k hk => hlt k (by simp [hk])
    have hne : ∀ k ∈ rest, (x + k) % 64 ≠ (x + j) % 64 := by
      intro k hk
      have h1 := hrest k hk
      have h2 : k ≠ j := fun e => (List.nodup_cons.mp hnd).1 (e ▸ hk)
      omega
    obtain ⟨ih1, ih2⟩ := ih hrest (List.nodup_cons.mp hnd).2 (blitPixel x row acc j)
    refine ⟨fun xx => ?_, ?_⟩
    · simp only [List.foldl_cons, ih1 xx, blitPixel_get, List.mem_cons, exists_eq_or_imp]
      by_cases hx : (x + j) % 64 = xx.val
      · have hno : ¬ ∃ k ∈ rest, (x + k) % 64 = xx.val ∧ row.getLsbD (7 - k) = true := by
          rintro ⟨k, hk, e, _⟩
          exact hne k hk (e.trans hx.symm)
        simp only [hno, decide_false, Bool.bne_false, or_false, hx, decide_true, Bool.and_true,
          true_and, Bool.decide_eq_true]
      · simp only [hx, decide_false, Bool.and_false, Bool.bne_false, false_and, false_or]
    · simp only [List.foldl_cons, ih2, blitPixel_collision, List.mem_cons, exists_eq_or_imp,
        Bool.or_eq_true, Bool.and_eq_true]
      have hkeep : ∀ k ∈ rest, (blitPixel x row acc j).1[(Fin.ofNat 64 (x + k) : Fin 64)] =
          acc.1[(Fin.ofNat 64 (x + k) : Fin 64)] := by
        intro k hk
        have e : ¬ (x + j) % 64 = (Fin.ofNat 64 (x + k) : Fin 64).val :=
          fun e => hne k hk e.symm
        rw [blitPixel_get]
        simp only [e, decide_false, Bool.and_false, Bool.bne_false]
      constructor
      · rintro ((h | h) | ⟨k, hk, hb, h⟩)
        · exact Or.inl h
        · exact Or.inr (Or.inl h)
        · exact Or.inr (Or.inr ⟨k, hk, hb, by rwa [hkeep k hk] at h⟩)
      · rintro (h | h | ⟨k, hk, hb, h⟩)
        · exact Or.inl (Or.inl h)
        · exact Or.inl (Or.inr h)
        · exact Or.inr ⟨k, hk, hb, by rwa [hkeep k hk]⟩

/-- The pixel numbers of one sprite byte. -/
theorem mem_pixels (j : Nat) : j ∈ [0, 1, 2, 3, 4, 5, 6, 7] ↔ j < 8 := by
  simp only [List.mem_cons, List.not_mem_nil, or_false]
  omega

/-- One sprite byte on one screen row, in closed form: a cell is XORed when a one bit falls on it. -/
theorem blitLine_cell (x : Nat) (row : Byte) (cells : FbRow) (xx : Fin 64) :
    (blitLine x row cells).1[xx] = true ↔
      ¬ (cells[xx] = true ↔
        ∃ j, j < 8 ∧ (x + j) % 64 = xx.val ∧ row.getLsbD (7 - j) = true) := by
  have h := (blitPixel_foldl x row [0, 1, 2, 3, 4, 5, 6, 7] (by decide) (by decide)
    (cells, false)).1 xx
  simp only [mem_pixels] at h
  unfold blitLine
  rw [h, bne_iff_ne, ne_eq, Bool.eq_iff_iff, decide_eq_true_iff]

/-- One sprite byte on one screen row: when the collision is reported. -/
theorem blitLine_collision (x : Nat) (row : Byte) (cells : FbRow) :
    (blitLine x row cells).2 = true ↔
      ∃ xx : Fin 64, (∃ j, j < 8 ∧ (x + j) % 64 = xx.val ∧ row.getLsbD (7 - j) = true) ∧
        cells[xx] = true := by
  have h := (blitPixel_foldl x row [0, 1, 2, 3, 4, 5, 6, 7] (by decide) (by decide)
    (cells, false)).2
  simp only [mem_pixels, Bool.false_eq_true, false_or] at h
  unfold blitLine
  rw [h]
  constructor
  · rintro ⟨j, hj, hb, hl⟩
    exact ⟨Fin.ofNat 64 (x + j), ⟨j, hj, rfl, hb⟩, hl⟩
  · rintro ⟨xx, ⟨j, hj, e, hb⟩, hl⟩
    have ex : xx = (Fin.ofNat 64 (x + j) : Fin 64) := Fin.ext e.symm
    subst ex
    exact ⟨j, hj, hb, hl⟩

/-- A register a draw cannot change: every one but VF, at every row. -/
theorem State.drawRow_eq (s : State) (x y : Reg) (i : Nat) (row : Byte) :
    s.drawRow x y i row =
      { s with fb := (s.drawRow x y i row).fb, v := (s.drawRow x y i row).v } := rfl

theorem State.drawRows_eq (rows : List Byte) : ∀ (s : State) (x y : Reg) (i : Nat),
    s.drawRows x y i rows =
      { s with fb := (s.drawRows x y i rows).fb, v := (s.drawRows x y i rows).v } := by
  induction rows with
  | nil => exact fun _ _ _ _ => rfl
  | cons row rest ih =>
    intro s x y i
    exact ih (s.drawRow x y i row) x y (i + 1)

theorem State.getV_drawRow_ne (s : State) (x y : Reg) (i : Nat) (row : Byte) {r : Reg}
    (h : r ≠ VF) : (s.drawRow x y i row).getV r = s.getV r := by
  unfold State.drawRow
  rw [State.getV_setV, if_neg h]
  rfl

theorem State.getV_drawRows_ne (rows : List Byte) : ∀ (s : State) (x y : Reg) (i : Nat) {r : Reg},
    r ≠ VF → (s.drawRows x y i rows).getV r = s.getV r := by
  induction rows with
  | nil => exact fun _ _ _ _ _ _ => rfl
  | cons row rest ih =>
    intro s x y i r h
    exact (ih (s.drawRow x y i row) x y (i + 1) h).trans (s.getV_drawRow_ne x y i row h)

/-- A draw keeps VF a flag. -/
theorem State.getV_drawRows_flag (rows : List Byte) : ∀ (s : State) (x y : Reg) (i : Nat),
    s.getV VF = 0x00#8 ∨ s.getV VF = 0x01#8 →
    (s.drawRows x y i rows).getV VF = 0x00#8 ∨ (s.drawRows x y i rows).getV VF = 0x01#8 := by
  induction rows with
  | nil => exact fun _ _ _ _ h => h
  | cons row rest ih =>
    intro s x y i h
    refine ih (s.drawRow x y i row) x y (i + 1) ?_
    unfold State.drawRow
    rw [State.getV_setV_same]
    split
    · exact Or.inr rfl
    · exact h

@[simp] theorem Framebuffer.cell_clear (y : Fin 32) (x : Fin 64) :
    Framebuffer.clear.cell y x = false := by
  simp [Framebuffer.cell, Framebuffer.clear]

/-- Two framebuffers with the same cells are the same. -/
theorem Framebuffer.ext_cells {fb fb' : Framebuffer} (h : ∀ y x, fb.cell y x = fb'.cell y x) :
    fb = fb' := by
  apply Vector.ext
  intro y hy
  apply Vector.ext
  intro x hx
  exact h ⟨y, hy⟩ ⟨x, hx⟩

/-! ### What a faulting draw leaves -/

@[simp] theorem State.freeDraw_i (s drawn : State) : (s.freeDraw drawn).i = s.i := by
  simp only [State.freeDraw, State.setV_i, State.setFb_i]
@[simp] theorem State.freeDraw_pc (s drawn : State) : (s.freeDraw drawn).pc = s.pc := by
  simp only [State.freeDraw, State.setV_pc, State.setFb_pc]
@[simp] theorem State.freeDraw_stack (s drawn : State) : (s.freeDraw drawn).stack = s.stack := by
  simp only [State.freeDraw, State.setV_stack, State.setFb_stack]
@[simp] theorem State.freeDraw_sp (s drawn : State) : (s.freeDraw drawn).sp = s.sp := by
  simp only [State.freeDraw, State.setV_sp, State.setFb_sp]
@[simp] theorem State.freeDraw_dt (s drawn : State) : (s.freeDraw drawn).dt = s.dt := by
  simp only [State.freeDraw, State.setV_dt, State.setFb_dt]
@[simp] theorem State.freeDraw_st (s drawn : State) : (s.freeDraw drawn).st = s.st := by
  simp only [State.freeDraw, State.setV_st, State.setFb_st]
@[simp] theorem State.freeDraw_mem (s drawn : State) : (s.freeDraw drawn).mem = s.mem := by
  simp only [State.freeDraw, State.setV_mem, State.setFb_mem]
@[simp] theorem State.freeDraw_run (s drawn : State) : (s.freeDraw drawn).run = s.run := by
  simp only [State.freeDraw, State.setV_run, State.setFb_run]
@[simp] theorem State.freeDraw_present (s drawn : State) : (s.freeDraw drawn).present = s.present := by
  simp only [State.freeDraw, State.setV_present, State.setFb_present]
@[simp] theorem State.freeDraw_cfg (s drawn : State) : (s.freeDraw drawn).cfg = s.cfg := by
  simp only [State.freeDraw, State.setV_cfg, State.setFb_cfg]
@[simp] theorem State.freeDraw_inputs (s drawn : State) : (s.freeDraw drawn).inputs = s.inputs := by
  simp only [State.freeDraw, State.setV_inputs, State.setFb_inputs]
@[simp] theorem State.freeDraw_draws (s drawn : State) : (s.freeDraw drawn).draws = s.draws := by
  simp only [State.freeDraw, State.setV_draws, State.setFb_draws]
@[simp] theorem State.readByte_freeDraw (s drawn : State) (q : Nat) :
    (s.freeDraw drawn).readByte q = s.readByte q := by
  simp only [State.readByte, State.freeDraw_cfg, State.freeDraw_mem]

theorem State.getV_freeDraw_ne (s drawn : State) {r : Reg} (h : r ≠ VF) :
    (s.freeDraw drawn).getV r = s.getV r := by
  rw [State.freeDraw, State.getV_setV_ne _ _ h, State.getV_setFb]

theorem Framebuffer.cell_freed (number : Nat) (before drawn : Framebuffer) (y : Fin 32)
    (x : Fin 64) : (Framebuffer.freed number before drawn).cell y x =
      if drawn.cell y x = before.cell y x then before.cell y x
      else Config.freeCell number y x := by
  rw [Framebuffer.freed, Framebuffer.cell, Fin.getElem_fin, Fin.getElem_fin, Vector.getElem_ofFn,
    Vector.getElem_ofFn]

/-- A cell that the readable rows do not change is kept. -/
theorem State.cell_freeDraw_of_same (s drawn : State) (y : Fin 32) (x : Fin 64)
    (h : drawn.fb.cell y x = s.fb.cell y x) :
    (s.freeDraw drawn).fb.cell y x = s.fb.cell y x := by
  rw [State.freeDraw, State.setV_fb, State.setFb_fb, Framebuffer.cell_freed, if_pos h]

end Sys2Proof.Machine
end

