-- ==== Sys2Proof/Laws/Exec.lean ====
section
/-! SUPPORT. The instructions that can fault, each in closed form in both of its cases, and a Step in terms of the decoded instruction's effect: what a later proof cites instead of unfolding a meaning. -/

namespace Sys2Proof.Machine

variable (s : State)

/-! ### Stack -/

theorem exec_call_ok (nnn : Addr12) (h : s.sp.val < 16) :
    exec (.call nnn) s = .next (({ s with
      stack := s.stack.set s.sp.val s.pc, sp := ⟨s.sp.val + 1, by omega⟩ } : State).setPc
        (zextAddr nnn)) := by
  simp only [exec, execCall, s.push_of_room s.pc h]

theorem exec_call_fault (nnn : Addr12) (h : s.sp.val = 16) :
    exec (.call nnn) s = .next (s.raise (.call nnn) .stackOverflow) := by
  simp only [exec, execCall, s.push_of_full s.pc h]

theorem exec_ret_ok (bc : Byte) (h : 0 < s.sp.val) :
    exec (.ret bc) s = .next (({ s with
      sp := ⟨s.sp.val - 1, by have := s.sp.isLt; omega⟩ } : State).setPc
        (s.stack[s.sp.val - 1]'(by have := s.sp.isLt; omega))) := by
  simp only [exec, execRet, s.pop_of_nonempty h]

theorem exec_ret_fault (bc : Byte) (h : s.sp.val = 0) :
    exec (.ret bc) s = .next (s.raise (.ret bc) .stackUnderflow) := by
  simp only [exec, execRet, s.pop_of_empty h]

/-! ### Stores and loads -/

theorem exec_ldBcd_ok (x : Reg) (h : s.i.toNat + 2 < 4096) :
    exec (.ldBcd x) s = .next
      (s.setMem (Memory.writeAll s.cfg s.mem s.i.toNat (bcdDigits (s.getV x)))) := by
  simp only [exec, execLdBcd]
  rw [s.storeAtI_ok _ (by simp only [length_bcdDigits, memSize]; omega)]

theorem exec_ldBcd_fault (x : Reg) (h : 4096 ≤ s.i.toNat + 2) :
    exec (.ldBcd x) s = .next ((s.freeBytes s.i.toNat (inRange s.i.toNat 3)).raise (.ldBcd x)
      (.outOfBounds (max s.i.toNat 4096))) := by
  simp only [exec, execLdBcd]
  rw [s.storeAtI_error (bcdDigits (s.getV x)) (List.cons_ne_nil _ _)
    (by simp only [length_bcdDigits, memSize]; omega)]
  rfl

theorem exec_storeRegs_ok (x : Reg) (h : s.i.toNat + x.val < 4096) :
    exec (.storeRegs x) s = .next
      (s.setMem (Memory.writeAll s.cfg s.mem s.i.toNat (s.getVs x))) := by
  simp only [exec, execStoreRegs]
  rw [s.storeAtI_ok _ (by simp only [State.length_getVs, memSize]; omega)]

theorem exec_storeRegs_fault (x : Reg) (h : 4096 ≤ s.i.toNat + x.val) :
    exec (.storeRegs x) s = .next ((s.freeBytes s.i.toNat (inRange s.i.toNat (x.val + 1))).raise
      (.storeRegs x) (.outOfBounds (max s.i.toNat 4096))) := by
  have hn : s.getVs x ≠ [] := fun e => by have := s.length_getVs x; rw [e] at this; cases this
  simp only [exec, execStoreRegs]
  rw [s.storeAtI_error _ hn (by simp only [State.length_getVs, memSize]; omega)]
  rfl

theorem exec_loadRegs_ok (x : Reg) (h : s.i.toNat + x.val < 4096) :
    exec (.loadRegs x) s = .next
      (s.setVs 0 ((List.range (x.val + 1)).map fun k => s.readByte (s.i.toNat + k))) := by
  simp only [exec, execLoadRegs]
  rw [s.loadAtI_ok _ (by simp only [memSize]; omega)]

theorem exec_loadRegs_fault (x : Reg) (h : 4096 ≤ s.i.toNat + x.val) :
    exec (.loadRegs x) s = .next ((s.freeRegs (inRange s.i.toNat (x.val + 1))).raise (.loadRegs x)
      (.outOfBounds (max s.i.toNat 4096))) := by
  simp only [exec, execLoadRegs]
  rw [s.loadAtI_error _ (Nat.succ_pos _) (by simp only [memSize]; omega)]
  rfl

/-! ### Draw -/

/-- The `n` sprite bytes at I. -/
def State.spriteRows (n : Nat) : List Byte :=
  (List.range n).map fun k => s.readByte (s.i.toNat + k)

@[simp] theorem State.length_spriteRows (n : Nat) : (s.spriteRows n).length = n := by
  simp [State.spriteRows]

@[simp] theorem State.getElem_spriteRows (n k : Nat) (h : k < (s.spriteRows n).length) :
    (s.spriteRows n)[k] = s.readByte (s.i.toNat + k) := by
  simp [State.spriteRows]

theorem exec_drw_ok (x y : Reg) (n : Nibble) (h : n = 0#4 ∨ s.i.toNat + n.toNat - 1 < 4096) :
    exec (.drw x y n) s = .next
      (((s.setV VF 0x00#8).drawRows x y 0 (s.spriteRows n.toNat)).setPresent true) := by
  simp only [exec, execDrw, State.spriteRows]
  rcases h with rfl | h
  · rfl
  · by_cases hn : n.toNat = 0
    · rw [hn]; rfl
    · rw [s.loadAtI_ok _ (by simp only [memSize]; omega)]

theorem exec_drw_fault (x y : Reg) (n : Nibble) (hn : n ≠ 0#4)
    (h : 4096 ≤ s.i.toNat + n.toNat - 1) :
    exec (.drw x y n) s = .next
      ((s.freeDraw ((s.setV VF 0x00#8).drawRows x y 0 (s.readableRows n.toNat))).raise
        (.drw x y n) (.outOfBounds (max s.i.toNat 4096))) := by
  have h0 : 0 < n.toNat := Nat.pos_of_ne_zero fun e => hn (BitVec.eq_of_toNat_eq (by simpa using e))
  simp only [exec, execDrw]
  rw [s.loadAtI_error _ h0 (by simp only [memSize]; omega)]

/-- A draw that faults at its first byte has no readable row. -/
theorem State.readableRows_nil (n : Nat) (h : 4096 ≤ s.i.toNat) : s.readableRows n = [] := by
  have e : inRange (s.ea 0) n = 0 := by simp only [inRange, State.ea, memSize]; omega
  rw [State.readableRows, e]
  rfl

/-! ### Keys -/

theorem exec_skp_ok (x : Reg) (d : Nibble) (h : (s.getV x).toNat ≤ 0xF) :
    exec (.skp x d) s = .next (s.skipIf (s.held (s.getV x))) := by
  simp only [exec, execSkp, if_neg (Nat.not_lt.mpr h)]

theorem exec_skp_fault (x : Reg) (d : Nibble) (h : 0xF < (s.getV x).toNat) :
    exec (.skp x d) s = .next (s.raise (.skp x d) (.keyOutOfRange (s.getV x))) := by
  simp only [exec, execSkp, if_pos h]

theorem exec_sknp_ok (x : Reg) (d : Nibble) (h : (s.getV x).toNat ≤ 0xF) :
    exec (.sknp x d) s = .next (s.skipIf (!s.held (s.getV x))) := by
  simp only [exec, execSknp, if_neg (Nat.not_lt.mpr h)]

theorem exec_sknp_fault (x : Reg) (d : Nibble) (h : 0xF < (s.getV x).toNat) :
    exec (.sknp x d) s = .next (s.raise (.sknp x d) (.keyOutOfRange (s.getV x))) := by
  simp only [exec, execSknp, if_pos h]

/-! ### What a draw can change -/

/-- A cell on which no one bit of the sprite byte falls is kept by its blit. -/
theorem blit_cell_of_uncovered (policy : SpriteY) (fb : Framebuffer) (x y : Nat) (row : Byte)
    (yy : Fin 32) (xx : Fin 64) (h : ¬ (OnScreenRow policy y yy ∧ OnScreenColumn x row xx)) :
    (blit policy fb x y row).1.cell yy xx = fb.cell yy xx := by
  unfold blit
  cases hr : rowIndex policy y with
  | none => rfl
  | some a =>
    simp only [Framebuffer.cell, Fin.getElem_fin, Vector.getElem_set]
    by_cases ha : a.val = yy.val
    · have hy : OnScreenRow policy y yy := by
        cases policy with
        | wrap =>
          simp only [rowIndex, Option.some.injEq] at hr
          rw [OnScreenRow, ← ha, ← hr]
          rfl
        | clip =>
          simp only [rowIndex] at hr
          split at hr
          · rw [Option.some.injEq] at hr
            rw [OnScreenRow, ← ha, ← hr]
          · cases hr
      have hc : ¬ OnScreenColumn x row xx := fun hc => h ⟨hy, hc⟩
      have e : a = yy := Fin.ext ha
      subst e
      simp only [if_true]
      have := blitLine_cell x row fb[a] xx
      rw [Bool.eq_iff_iff]
      simp only [OnScreenColumn] at hc
      simp only [hc, iff_false, not_not] at this
      exact this
    · simp only [ha, if_false]

/-- A cell that no row covers, with VF at 0 or at 1, is kept by the rows of a draw. -/
theorem State.cell_drawRows_of_uncovered (x y : Reg) (yy : Fin 32) (xx : Fin 64)
    (rows : List Byte) : ∀ (s : State) (i : Nat), s.getV VF = 0x00#8 ∨ s.getV VF = 0x01#8 →
    (∀ b : Byte, b = 0x00#8 ∨ b = 0x01#8 → ∀ k, (h : k < rows.length) →
      ¬ (OnScreenRow s.cfg.spriteY (((s.setV VF b).getV y).toNat + (i + k)) yy ∧
        OnScreenColumn ((s.setV VF b).getV x).toNat rows[k] xx)) →
    (s.drawRows x y i rows).fb.cell yy xx = s.fb.cell yy xx := by
  induction rows with
  | nil => exact fun _ _ _ _ => rfl
  | cons row rest ih =>
    intro s i hv hc
    have hflag := State.getV_drawRows_flag [row] s x y i hv
    have hreg : ∀ (b : Byte) (r : Reg),
        ((s.drawRow x y i row).setV VF b).getV r = (s.setV VF b).getV r := by
      intro b r
      by_cases hr : r = VF
      · subst hr
        rw [State.getV_setV_same, State.getV_setV_same]
      · rw [State.getV_setV_ne _ _ hr, State.getV_setV_ne _ _ hr, State.getV_drawRow_ne _ _ _ _ _ hr]
    rw [State.drawRows, ih (s.drawRow x y i row) (i + 1) hflag]
    · have h0 := hc (s.getV VF) hv 0 (by simp)
      have hs : ∀ r, (s.setV VF (s.getV VF)).getV r = s.getV r := by
        intro r
        rw [State.getV_setV]
        split
        · rename_i e
          rw [e]
        · rfl
      rw [hs, hs] at h0
      exact blit_cell_of_uncovered _ _ _ _ _ _ _ h0
    · intro b hb k hk
      have h1 := hc b hb (k + 1) (by simpa using hk)
      rw [hreg, hreg]
      rw [show i + 1 + k = i + (k + 1) by omega]
      exact h1

/-- The rows a draw can read are those whose byte lies below 4096. -/
theorem State.readableRows_eq (n : Nat) :
    s.readableRows n = s.spriteRows (min n (4096 - s.i.toNat)) := by
  rw [State.readableRows, State.spriteRows]
  by_cases h : 4096 ≤ s.i.toNat
  · have e : inRange (s.ea 0) n = min n (4096 - s.i.toNat) := by
      simp only [inRange, State.ea, memSize]
      omega
    have e' : min n (4096 - s.i.toNat) = 0 := by omega
    rw [e, e']
    rfl
  · have e : inRange (s.ea 0) n = min n (4096 - s.i.toNat) := by
      simp only [inRange, State.ea, memSize]
      omega
    rw [e, s.loadAtI_ok _ (by simp only [memSize]; omega)]

/-! ### Every instruction answers a next state -/

theorem exec_total (i : Instr) : ∃ t, exec i s = .next t := by
  cases i with
  | call nnn =>
    by_cases h : s.sp.val = 16
    · exact ⟨_, exec_call_fault s nnn h⟩
    · exact ⟨_, exec_call_ok s nnn (by have := s.sp.isLt; omega)⟩
  | ret bc =>
    by_cases h : s.sp.val = 0
    · exact ⟨_, exec_ret_fault s bc h⟩
    · exact ⟨_, exec_ret_ok s bc (by omega)⟩
  | ldBcd x =>
    by_cases h : s.i.toNat + 2 < 4096
    · exact ⟨_, exec_ldBcd_ok s x h⟩
    · exact ⟨_, exec_ldBcd_fault s x (by omega)⟩
  | storeRegs x =>
    by_cases h : s.i.toNat + x.val < 4096
    · exact ⟨_, exec_storeRegs_ok s x h⟩
    · exact ⟨_, exec_storeRegs_fault s x (by omega)⟩
  | loadRegs x =>
    by_cases h : s.i.toNat + x.val < 4096
    · exact ⟨_, exec_loadRegs_ok s x h⟩
    · exact ⟨_, exec_loadRegs_fault s x (by omega)⟩
  | drw x y n =>
    by_cases h : n = 0#4 ∨ s.i.toNat + n.toNat - 1 < 4096
    · exact ⟨_, exec_drw_ok s x y n h⟩
    · exact ⟨_, exec_drw_fault s x y n (fun e => h (.inl e)) (by omega)⟩
  | skp x d =>
    by_cases h : (s.getV x).toNat ≤ 0xF
    · exact ⟨_, exec_skp_ok s x d h⟩
    · exact ⟨_, exec_skp_fault s x d (by omega)⟩
  | sknp x d =>
    by_cases h : (s.getV x).toNat ≤ 0xF
    · exact ⟨_, exec_sknp_ok s x d h⟩
    · exact ⟨_, exec_sknp_fault s x d (by omega)⟩
  | _ => exact ⟨_, rfl⟩

/-! ### A Step -/

theorem step_of_accepts (h : s.run = .loaded ∨ s.run = .running) : step s = cycle s := by
  unfold step
  rcases h with h | h <;> rw [h]

/-- A fetch inside memory reads the word at the PC. -/
theorem State.fetch_pc (h : s.pc.toNat + 1 < memSize) : s.fetch s.pc.toNat = .ok s.opcodeAtPc :=
  s.fetch_ok _ h

/-- A Step is the decoded instruction's effect on the advanced state, then the end of the cycle. -/
theorem step_of_exec {s t : State} {i : Instr} (h : s.nextIs i)
    (e : exec i s.advance = .next t) : step s = .next t.endCycle := by
  obtain ⟨hr, hp, hd⟩ := h
  rw [step_of_accepts s hr, cycle, s.fetch_pc hp]
  simp only [hd, e]

/-- A Step whose effect leaves RUN alone completes: both timers tick and RUN is RUNNING. -/
theorem step_of_effect {s t : State} {i : Instr} (h : s.nextIs i)
    (e : exec i s.advance = .next t) (hr : t.run = s.run) :
    step s = .next t.complete.useSample := by
  rw [step_of_exec h e, State.endCycle_of_not_faulted]
  intro r hf
  rw [hr] at hf
  rcases h.1 with h | h <;> rw [h] at hf <;> cases hf

/-! ### Load -/

theorem romFits_iff (bytes : List Byte) : romFits bytes = true ↔ bytes.length ≤ 3584 := by
  rw [romFits, decide_eq_true_iff]
  simp only [progBase, memSize]
  omega

theorem hostLoad_ok (bytes : List Byte) (hr : s.run = .ready) (h : bytes.length ≤ 3584) :
    hostLoad bytes s =
      (.ok, (s.setMem (Memory.writeAll s.cfg s.mem progBase bytes)).setRun .loaded) := by
  simp only [hostLoad, hr, (romFits_iff bytes).2 h, if_true]
  rw [s.memWrites_ok _ _ (by simp only [progBase, memSize]; omega)]

theorem hostLoad_tooLong (bytes : List Byte) (hr : s.run = .ready) (h : 3584 < bytes.length) :
    hostLoad bytes s = (.outOfBounds, s) := by
  have hf : romFits bytes ≠ true := fun e => absurd ((romFits_iff bytes).1 e) (by omega)
  simp only [hostLoad, hr, if_neg hf]

end Sys2Proof.Machine
end

