-- ==== Sys2Proof/Laws/Frame.lean ====
section
/-! SUPPORT. What one instruction can do, said once for all of them: what it leaves alone, when it faults and with which record (spec/40_cycle.md R127, R128, spec/60_exceptions.md R261, R263). -/

namespace Sys2Proof.Machine

/-- What the effect of `i`, run in `s` (PC = A + 2), can change on the way to `t`. -/
structure Effect (i : Instr) (s t : State) : Prop where
  /-- The parameters stay. -/
  cfg : t.cfg = s.cfg
  /-- Without a fault of its own it completes. -/
  run_ok : s.ownFault i = none → t.run = s.run
  /-- With one it holds the record of R261. -/
  run_fault : ∀ f, s.ownFault i = some f →
    t.run = .faulted { fault := f, pc := s.pc - 2#16, opcode := some (encode i) }
  index : (∀ a, i ≠ .ldI a) → (∀ x, i ≠ .addI x) → (∀ x, i ≠ .ldFont x) → t.i = s.i
  stack : (∀ a, i ≠ .call a) → (∀ b, i ≠ .ret b) → t.stack = s.stack ∧ t.sp = s.sp
  fb : (∀ b, i ≠ .cls b) → (∀ x y n, i ≠ .drw x y n) → t.fb = s.fb
  mem : (∀ x, i ≠ .ldBcd x) → (∀ x, i ≠ .storeRegs x) → t.mem = s.mem
  present : (∀ x y n, i ≠ .drw x y n) → t.present = s.present
  dt : (∀ x, i ≠ .ldDtReg x) → s.ownFault i = none → t.dt = s.dt
  st : (∀ x, i ≠ .ldStReg x) → s.ownFault i = none → t.st = s.st
  pc : movesPc i = false → s.ownFault i = none → t.pc = s.pc
  regs : ∀ r, writesReg i r = false → t.getV r = s.getV r
  /-- A fault keeps all but what was written before the raise (R128). -/
  fault : s.ownFault i ≠ none →
    t.i = s.i ∧ t.stack = s.stack ∧ t.sp = s.sp ∧ t.present = s.present ∧
    (∀ r : Reg, (∀ x, i = .loadRegs x → 4096 ≤ s.i.toNat + r.val) →
      (∀ x y n, i = .drw x y n → r ≠ VF) → t.getV r = s.getV r) ∧
    (∀ a, (∀ x, i = .ldBcd x → a < s.i.toNat ∨ 4096 ≤ a) →
      (∀ x, i = .storeRegs x → a < s.i.toNat ∨ 4096 ≤ a) → t.readByte a = s.readByte a) ∧
    (∀ yy xx, (∀ x y n, i = .drw x y n →
        ¬ SpriteCovers (s.setV VF 0x00#8) x y (min n.toNat (4096 - s.i.toNat)) yy xx ∧
        ¬ SpriteCovers (s.setV VF 0x01#8) x y (min n.toNat (4096 - s.i.toNat)) yy xx) →
      t.fb.cell yy xx = s.fb.cell yy xx)

/-- A faulting draw keeps a cell that no readable row covers, VF being 0 or 1 while drawing. -/
theorem State.cell_freeDraw_of_uncovered (x y : Reg) (n : Nat) (s : State) (yy : Fin 32)
    (xx : Fin 64) (h0 : ¬ SpriteCovers (s.setV VF 0x00#8) x y (min n (4096 - s.i.toNat)) yy xx)
    (h1 : ¬ SpriteCovers (s.setV VF 0x01#8) x y (min n (4096 - s.i.toNat)) yy xx) :
    (s.freeDraw ((s.setV VF 0x00#8).drawRows x y 0 (s.readableRows n))).fb.cell yy xx = s.fb.cell yy xx := by
  apply State.cell_freeDraw_of_same
  rw [State.readableRows_eq]
  refine State.cell_drawRows_of_uncovered x y yy xx _ (s.setV VF 0x00#8) 0 (Or.inl (by simp)) ?_
  intro b hb k hk
  have e : (s.setV VF 0x00#8).setV VF b = s.setV VF b := by simp [State.setV]
  rw [e]
  simp only [State.length_spriteRows] at hk
  simp only [State.getElem_spriteRows, Nat.zero_add]
  rintro ⟨g1, g2⟩
  rcases hb with rfl | rfl
  · exact h0 ⟨k, hk, g1, g2⟩
  · exact h1 ⟨k, hk, g1, g2⟩

/-- R263 does not look at the PC. -/
@[simp] theorem State.ownFault_advance (s : State) (i : Instr) :
    s.advance.ownFault i = s.ownFault i := by
  cases i <;> rfl

/-! ### One lemma for each instruction that can fault -/

theorem effect_call (nnn : Addr12) (s : State) :
    ∃ t, exec (.call nnn) s = .next t ∧ Effect (.call nnn) s t := by
  by_cases h : s.sp.val = 16
  · exact ⟨_, exec_call_fault s nnn h, by
      constructor <;> simp_all [State.ownFault, writesReg, movesPc]⟩
  · exact ⟨_, exec_call_ok s nnn (by have := s.sp.isLt; omega), by
      constructor <;> simp_all [State.ownFault, writesReg, movesPc, State.getV]⟩

theorem effect_ret (bc : Byte) (s : State) :
    ∃ t, exec (.ret bc) s = .next t ∧ Effect (.ret bc) s t := by
  by_cases h : s.sp.val = 0
  · exact ⟨_, exec_ret_fault s bc h, by
      constructor <;> simp_all [State.ownFault, writesReg, movesPc]⟩
  · exact ⟨_, exec_ret_ok s bc (by omega), by
      constructor <;> simp_all [State.ownFault, writesReg, movesPc, State.getV]⟩

theorem effect_ldBcd (x : Reg) (s : State) :
    ∃ t, exec (.ldBcd x) s = .next t ∧ Effect (.ldBcd x) s t := by
  by_cases h : 4096 ≤ s.i.toNat + 2
  · have e : s.ownFault (.ldBcd x) = some (.outOfBounds (max s.i.toNat 4096)) := if_pos h
    obtain ⟨m, hm, hb⟩ := s.freeBytes_spec (inRange s.i.toNat 3) s.i.toNat
    refine ⟨_, exec_ldBcd_fault s x h, ?_⟩
    rw [hm]
    constructor <;> simp_all [writesReg, movesPc, State.getV]
    intro a ha
    simp only [State.readByte, State.setMem_mem, State.setMem_cfg]
    exact hb a (by simp only [inRange, memSize]; omega)
  · have e : s.ownFault (.ldBcd x) = none := if_neg h
    exact ⟨_, exec_ldBcd_ok s x (by omega), by
      constructor <;> simp_all [writesReg, movesPc, State.getV]⟩

theorem effect_storeRegs (x : Reg) (s : State) :
    ∃ t, exec (.storeRegs x) s = .next t ∧ Effect (.storeRegs x) s t := by
  by_cases h : 4096 ≤ s.i.toNat + x.val
  · have e : s.ownFault (.storeRegs x) = some (.outOfBounds (max s.i.toNat 4096)) := if_pos h
    obtain ⟨m, hm, hb⟩ := s.freeBytes_spec (inRange s.i.toNat (x.val + 1)) s.i.toNat
    refine ⟨_, exec_storeRegs_fault s x h, ?_⟩
    rw [hm]
    constructor <;> simp_all [writesReg, movesPc, State.getV]
    intro a ha
    simp only [State.readByte, State.setMem_mem, State.setMem_cfg]
    exact hb a (by simp only [inRange, memSize]; omega)
  · have e : s.ownFault (.storeRegs x) = none := if_neg h
    exact ⟨_, exec_storeRegs_ok s x (by omega), by
      constructor <;> simp_all [writesReg, movesPc, State.getV]⟩

theorem effect_loadRegs (x : Reg) (s : State) :
    ∃ t, exec (.loadRegs x) s = .next t ∧ Effect (.loadRegs x) s t := by
  by_cases h : 4096 ≤ s.i.toNat + x.val
  · have e : s.ownFault (.loadRegs x) = some (.outOfBounds (max s.i.toNat 4096)) := if_pos h
    have loaded (r : Reg) (hr : r.val < inRange s.i.toNat (x.val + 1)) :
        r.val ≤ x.val ∧ s.i.toNat + r.val < 4096 := by
      unfold inRange memSize at hr
      omega
    have hv := State.getV_freeRegs s (inRange s.i.toNat (x.val + 1))
    refine ⟨_, exec_loadRegs_fault s x h, ?_⟩
    constructor <;> simp_all [writesReg, movesPc]
    · intro r (h1 : x.val < r.val) h2
      have := loaded r h2
      omega
    · intro r h1 h2
      have := loaded r h2
      omega
  · have e : s.ownFault (.loadRegs x) = none := if_neg h
    refine ⟨_, exec_loadRegs_ok s x (by omega), ?_⟩
    have hv := State.getV_setVs
      ((List.range (x.val + 1)).map fun k => s.readByte (s.i.toNat + k)) s 0
    rw [State.setVs_eq] at hv ⊢
    constructor <;> simp_all [writesReg, movesPc]

theorem effect_skp (x : Reg) (d : Nibble) (s : State) :
    ∃ t, exec (.skp x d) s = .next t ∧ Effect (.skp x d) s t := by
  by_cases h : 0xF < (s.getV x).toNat
  · have e : s.ownFault (.skp x d) = some (.keyOutOfRange (s.getV x)) := if_pos h
    exact ⟨_, exec_skp_fault s x d h, by constructor <;> simp_all [writesReg, movesPc]⟩
  · have e : s.ownFault (.skp x d) = none := if_neg h
    exact ⟨_, exec_skp_ok s x d (by omega), by constructor <;> simp_all [writesReg, movesPc]⟩

theorem effect_sknp (x : Reg) (d : Nibble) (s : State) :
    ∃ t, exec (.sknp x d) s = .next t ∧ Effect (.sknp x d) s t := by
  by_cases h : 0xF < (s.getV x).toNat
  · have e : s.ownFault (.sknp x d) = some (.keyOutOfRange (s.getV x)) := if_pos h
    exact ⟨_, exec_sknp_fault s x d h, by constructor <;> simp_all [writesReg, movesPc]⟩
  · have e : s.ownFault (.sknp x d) = none := if_neg h
    exact ⟨_, exec_sknp_ok s x d (by omega), by constructor <;> simp_all [writesReg, movesPc]⟩

/-- The free effects of a faulting draw are in VF and the framebuffer alone. -/
theorem State.freeDraw_eq (s d : State) :
    s.freeDraw d = { s with v := (s.freeDraw d).v, fb := (s.freeDraw d).fb } := by
  unfold State.freeDraw
  generalize Framebuffer.freed _ _ _ = fb
  rfl

theorem effect_drw (x y : Reg) (n : Nibble) (s : State) :
    ∃ t, exec (.drw x y n) s = .next t ∧ Effect (.drw x y n) s t := by
  by_cases h : 0 < n.toNat ∧ 4096 ≤ s.i.toNat + n.toNat - 1
  · have e : s.ownFault (.drw x y n) = some (.outOfBounds (max s.i.toNat 4096)) := if_pos h
    have hn : n ≠ 0#4 := by rintro rfl; exact absurd h.1 (by decide)
    refine ⟨_, exec_drw_fault s x y n hn h.2, ?_⟩
    have kept := State.cell_freeDraw_of_uncovered x y n.toNat s
    generalize (s.setV VF 0x00#8).drawRows x y 0 (s.readableRows n.toNat) = d at kept ⊢
    have regs (r : Reg) (hr : r ≠ VF) : (s.freeDraw d).getV r = s.getV r :=
      State.getV_freeDraw_ne s d hr
    have shape := State.freeDraw_eq s d
    generalize s.freeDraw d = q at kept regs shape ⊢
    obtain ⟨v, fb, rfl⟩ : ∃ v fb, q = { s with v := v, fb := fb } := ⟨_, _, shape⟩
    constructor
    case run_fault => intro f hf; rw [e] at hf; injection hf with hf; subst hf; rfl
    case run_ok | dt | st | pc => simp [e]
    case fb => intro _ hd; exact absurd rfl (hd x y n)
    case regs => intro r hw; exact regs r (by simpa [writesReg] using hw)
    case stack => intros; exact ⟨rfl, rfl⟩
    case fault =>
      intro _
      exact ⟨rfl, rfl, rfl, rfl, fun r _ hr => regs r (hr x y n rfl), fun _ _ _ => rfl,
        fun yy xx hc => kept yy xx (hc x y n rfl).1 (hc x y n rfl).2⟩
    all_goals (intros; rfl)
  · have e : s.ownFault (.drw x y n) = none := if_neg h
    have inside : n = 0#4 ∨ s.i.toNat + n.toNat - 1 < 4096 := by
      by_cases h0 : n.toNat = 0
      · exact .inl (BitVec.eq_of_toNat_eq h0)
      · exact .inr (by omega)
    refine ⟨_, exec_drw_ok s x y n inside, ?_⟩
    have regs (r : Reg) (hr : r ≠ VF) :
        ((s.setV VF 0x00#8).drawRows x y 0 (s.spriteRows n.toNat)).getV r = s.getV r := by
      rw [State.getV_drawRows_ne _ _ _ _ _ hr, State.getV_setV_ne _ _ hr]
    rw [State.drawRows_eq] at regs ⊢
    constructor <;> simp_all [writesReg, movesPc]

theorem effect_cls (bc : Byte) (s : State) :
    ∃ t, exec (.cls bc) s = .next t ∧ Effect (.cls bc) s t := by
  refine ⟨_, rfl, ?_⟩
  generalize Framebuffer.clear = fb
  have e : s.ownFault (.cls bc) = none := rfl
  constructor
  case run_fault => intro f hf; rw [e] at hf; cases hf
  case fault => intro hf; exact absurd e hf
  case fb => intro hf _; exact absurd rfl (hf bc)
  case stack => intros; exact ⟨rfl, rfl⟩
  all_goals (intros; rfl)

/-! ### All instructions -/

/-- Every instruction answers a next state with its `Effect`: what a proof about all instructions cites instead of unfolding `exec`. -/
theorem exec_effect (i : Instr) (s : State) : ∃ t, exec i s = .next t ∧ Effect i s t := by
  cases i with
  | call nnn => exact effect_call nnn s
  | ret bc => exact effect_ret bc s
  | ldBcd x => exact effect_ldBcd x s
  | storeRegs x => exact effect_storeRegs x s
  | loadRegs x => exact effect_loadRegs x s
  | skp x d => exact effect_skp x d s
  | sknp x d => exact effect_sknp x d s
  | drw x y n => exact effect_drw x y n s
  | cls bc => exact effect_cls bc s
  | ldRegKey x =>
    refine ⟨_, rfl, ?_⟩
    cases hp : s.firstPressed <;> constructor <;>
      simp_all [State.ownFault, writesReg, movesPc, State.getV_setV]
  | shr x y =>
    refine ⟨_, rfl, ?_⟩
    cases hp : s.cfg.shiftSource <;> constructor <;>
      simp_all [State.ownFault, writesReg, movesPc, State.getV_setV]
  | shl x y =>
    refine ⟨_, rfl, ?_⟩
    cases hp : s.cfg.shiftSource <;> constructor <;>
      simp_all [State.ownFault, writesReg, movesPc, State.getV_setV]
  | _ =>
    refine ⟨_, rfl, ?_⟩
    constructor
    case fault => intro hf; exact absurd rfl hf
    all_goals simp [State.ownFault, writesReg, movesPc, State.getV_setV]
    all_goals (intro r h1 h2; first | exact absurd h2 h1 | simp [h1, h2])

end Sys2Proof.Machine
end

