-- ==== Sys2Proof/Laws/PerInstr.lean ====
section
/-! SUPPORT. Per instruction: its word lies in its row of the opcode map (spec/30_encoding.md R95), whatever its operands. -/

namespace Sys2Proof.Laws.InRow

/-- The instruction's word, cut by its row's mask, is its row's match. -/
def Statement (i : Instr) : Prop := encode i &&& i.rowMask = i.rowMatch

/-! ### What a mask leaves of each layout -/

theorem nibble_and_ones (d : Nibble) : d &&& 0xF#4 = d := BitVec.and_allOnes

theorem byte_and_ones (b : Byte) : b &&& 0xFF#8 = b := BitVec.and_allOnes

theorem masked_packL0 (bc : Byte) (d : Nibble) :
    packL0 bc d &&& 0xF00F#16 = packL0 0x00#8 d := by
  have m : (0xF00F#16 : Word) = (0xF#4 ++ 0x00#8 ++ 0xF#4 : BitVec (4 + 8 + 4)) := by decide
  rw [m]
  unfold packL0
  rw [BitVec.and_append, BitVec.and_append, nibble_and_ones, nibble_and_ones, BitVec.and_zero]

theorem masked_packLA (a : Nibble) (nnn : Addr12) :
    packLA a nnn &&& 0xF000#16 = packLA a 0x000#12 := by
  have m : (0xF000#16 : Word) = (0xF#4 ++ 0x000#12 : BitVec (4 + 12)) := by decide
  rw [m]
  unfold packLA
  rw [BitVec.and_append, nibble_and_ones, BitVec.and_zero]

theorem masked_packLI (a : Nibble) (x : Reg) (nn : Byte) :
    packLI a x nn &&& 0xF000#16 = packLI a 0 0x00#8 := by
  have m : (0xF000#16 : Word) = (0xF#4 ++ 0x0#4 ++ 0x00#8 : BitVec (4 + 4 + 8)) := by decide
  rw [m]
  unfold packLI
  rw [BitVec.and_append, BitVec.and_append, nibble_and_ones, BitVec.and_zero, BitVec.and_zero]
  rfl

theorem masked_packLF (x : Reg) (nn : Byte) :
    packLI 0xF#4 x nn &&& 0xF0FF#16 = packLI 0xF#4 0 nn := by
  have m : (0xF0FF#16 : Word) = (0xF#4 ++ 0x0#4 ++ 0xFF#8 : BitVec (4 + 4 + 8)) := by decide
  rw [m]
  unfold packLI
  rw [BitVec.and_append, BitVec.and_append, nibble_and_ones, BitVec.and_zero, byte_and_ones]
  rfl

theorem masked_packLR (a : Nibble) (x y : Reg) (d : Nibble) :
    packLR a x y d &&& 0xF00F#16 = packLR a 0 0 d := by
  have m : (0xF00F#16 : Word) = (0xF#4 ++ 0x0#4 ++ 0x0#4 ++ 0xF#4 : BitVec (4 + 4 + 4 + 4)) := by
    decide
  rw [m]
  unfold packLR
  rw [BitVec.and_append, BitVec.and_append, BitVec.and_append, nibble_and_ones, nibble_and_ones,
    BitVec.and_zero, BitVec.and_zero]
  rfl

theorem masked_packLD (x y : Reg) (n : Nibble) :
    packLR 0xD#4 x y n &&& 0xF000#16 = packLR 0xD#4 0 0 0x0#4 := by
  have m : (0xF000#16 : Word) = (0xF#4 ++ 0x0#4 ++ 0x0#4 ++ 0x0#4 : BitVec (4 + 4 + 4 + 4)) := by
    decide
  rw [m]
  unfold packLR
  rw [BitVec.and_append, BitVec.and_append, BitVec.and_append, nibble_and_ones, BitVec.and_zero,
    BitVec.and_zero, BitVec.and_zero]
  rfl

theorem masked_packLE (x : Reg) (c d : Nibble) :
    packLE x c d &&& 0xF0F0#16 = packLE 0 c 0x0#4 := by
  have m : (0xF0F0#16 : Word) = (0xF#4 ++ 0x0#4 ++ 0xF#4 ++ 0x0#4 : BitVec (4 + 4 + 4 + 4)) := by
    decide
  rw [m]
  unfold packLE
  rw [BitVec.and_append, BitVec.and_append, BitVec.and_append, nibble_and_ones, nibble_and_ones,
    BitVec.and_zero, BitVec.and_zero]
  rfl

/-! ### One lemma per instruction -/

theorem cls (bc : Byte) : Statement (.cls bc) := masked_packL0 bc 0x0#4

theorem ret (bc : Byte) : Statement (.ret bc) := masked_packL0 bc 0xE#4

theorem jp (nnn : Addr12) : Statement (.jp nnn) := masked_packLA 0x1#4 nnn

theorem call (nnn : Addr12) : Statement (.call nnn) := masked_packLA 0x2#4 nnn

theorem seByte (x : Reg) (nn : Byte) : Statement (.seByte x nn) := masked_packLI 0x3#4 x nn

theorem sneByte (x : Reg) (nn : Byte) : Statement (.sneByte x nn) := masked_packLI 0x4#4 x nn

theorem seReg (x y : Reg) : Statement (.seReg x y) := masked_packLR 0x5#4 x y 0x0#4

theorem ldByte (x : Reg) (nn : Byte) : Statement (.ldByte x nn) := masked_packLI 0x6#4 x nn

theorem addByte (x : Reg) (nn : Byte) : Statement (.addByte x nn) := masked_packLI 0x7#4 x nn

theorem ldReg (x y : Reg) : Statement (.ldReg x y) := masked_packLR 0x8#4 x y 0x0#4

theorem orReg (x y : Reg) : Statement (.orReg x y) := masked_packLR 0x8#4 x y 0x1#4

theorem andReg (x y : Reg) : Statement (.andReg x y) := masked_packLR 0x8#4 x y 0x2#4

theorem xorReg (x y : Reg) : Statement (.xorReg x y) := masked_packLR 0x8#4 x y 0x3#4

theorem addReg (x y : Reg) : Statement (.addReg x y) := masked_packLR 0x8#4 x y 0x4#4

theorem sub (x y : Reg) : Statement (.sub x y) := masked_packLR 0x8#4 x y 0x5#4

theorem shr (x y : Reg) : Statement (.shr x y) := masked_packLR 0x8#4 x y 0x6#4

theorem subn (x y : Reg) : Statement (.subn x y) := masked_packLR 0x8#4 x y 0x7#4

theorem shl (x y : Reg) : Statement (.shl x y) := masked_packLR 0x8#4 x y 0xE#4

theorem sneReg (x y : Reg) : Statement (.sneReg x y) := masked_packLR 0x9#4 x y 0x0#4

theorem ldI (nnn : Addr12) : Statement (.ldI nnn) := masked_packLA 0xA#4 nnn

theorem jpV0 (nnn : Addr12) : Statement (.jpV0 nnn) := masked_packLA 0xB#4 nnn

theorem rnd (x : Reg) (nn : Byte) : Statement (.rnd x nn) := masked_packLI 0xC#4 x nn

theorem drw (x y : Reg) (n : Nibble) : Statement (.drw x y n) := masked_packLD x y n

theorem skp (x : Reg) (d : Nibble) : Statement (.skp x d) := masked_packLE x 0x9#4 d

theorem sknp (x : Reg) (d : Nibble) : Statement (.sknp x d) := masked_packLE x 0xA#4 d

theorem ldRegDt (x : Reg) : Statement (.ldRegDt x) := masked_packLF x 0x07#8

theorem ldRegKey (x : Reg) : Statement (.ldRegKey x) := masked_packLF x 0x0A#8

theorem ldDtReg (x : Reg) : Statement (.ldDtReg x) := masked_packLF x 0x15#8

theorem ldStReg (x : Reg) : Statement (.ldStReg x) := masked_packLF x 0x18#8

theorem addI (x : Reg) : Statement (.addI x) := masked_packLF x 0x1E#8

theorem ldFont (x : Reg) : Statement (.ldFont x) := masked_packLF x 0x29#8

theorem ldBcd (x : Reg) : Statement (.ldBcd x) := masked_packLF x 0x33#8

theorem storeRegs (x : Reg) : Statement (.storeRegs x) := masked_packLF x 0x55#8

theorem loadRegs (x : Reg) : Statement (.loadRegs x) := masked_packLF x 0x65#8

end Sys2Proof.Laws.InRow
end

