-- ==== Sys2Proof/Tests/Slice0.lean ====
section
/-! SUPPORT. Tests of the model against the words of spec/30_encoding.md and the vectors of spec/95_test_vectors.md (T1 to T95, S1 to S10), and a witness for the hypotheses of every statement that has some. -/

open Sys2Proof Sys2Proof.Machine

/-! ### Helpers -/

/-- A loaded machine with a definite SPRITE_Y. -/
def testState (policy : SpriteY) : State :=
  { State.reset with
    run := .loaded, cfg := { shiftSource := .vx, spriteY := policy, font := defaultFont } }

/-- A loaded machine whose shifts read V[Y]. -/
def testStateVy : State :=
  { testState .wrap with
    cfg := { shiftSource := .vy, spriteY := .wrap, font := defaultFont } }

/-- The state after one Step of the word `w` at the PC of `s`. -/
def afterWord (s : State) (w : Nat) : Option State :=
  match step (s.withFetchWord 16 w) with
  | .next t => some t
  | .fault _ | .refused _ => none

/-- A register after one Step. -/
def regAfter (s : State) (w : Nat) (r : Reg) : Option Byte := (afterWord s w).map (·.getV r)

/-- PC after one Step. -/
def pcAfter (s : State) (w : Nat) : Option Word := (afterWord s w).map (·.pc)

/-- I after one Step. -/
def iAfter (s : State) (w : Nat) : Option Word := (afterWord s w).map (·.i)

/-- RUN after one Step. -/
def runAfter (s : State) (w : Nat) : Option Run := (afterWord s w).map (·.run)

/-- Bytes of memory after one Step. -/
def bytesAfter (s : State) (w : Nat) (addresses : List Nat) : Option (List Byte) :=
  (afterWord s w).map fun t => addresses.map t.readByte

/-- Some cells, (row, column), after one Step. -/
def cellsAfter (s : State) (w : Nat) (cells : List (Fin 32 × Fin 64)) : Option (List Bool) :=
  (afterWord s w).map fun t => cells.map fun c => t.fb.cell c.1 c.2

/-- How many cells are lit after one Step. -/
def litAfter (s : State) (w : Nat) : Option Nat :=
  (afterWord s w).map fun t => (t.fb.toList.map fun l => l.toList.countP id).sum

/-- The framebuffer with one cell lit. -/
def oneCell (y : Fin 32) (x : Fin 64) : Framebuffer :=
  Framebuffer.clear.set y ((Framebuffer.clear[y]).set x true)

/-- Bytes stored from an address on. -/
def withBytes (s : State) (a : Nat) (bytes : List Byte) : State :=
  match s.memWrites a bytes with
  | .ok t => t
  | .error _ => s

/-! ### WellFormed: each check refuses an ill-formed term (92 D7, D8, D11; R52) -/

theorem test_wf_refuses_alias_words :
    Instr.wf (.cls 0x00) = false ∧ Instr.wf (.ret 0x00) = false ∧
    Instr.wf (.skp 4 0xF) = false ∧ Instr.wf (.sknp 4 0x0) = false := by decide

theorem test_wf_refuses_shifts_into_VF :
    Instr.wf (.shr VF 1) = false ∧ Instr.wf (.shl VF 1) = false := by decide

theorem test_wf_refuses_draws_through_VF :
    Instr.wf (.drw VF 1 1) = false ∧ Instr.wf (.drw 1 VF 1) = false := by decide

theorem test_wf_accepts_the_conventional_words :
    Instr.wf (.cls 0x0E) = true ∧ Instr.wf (.ret 0x0E) = true ∧ Instr.wf (.skp 4 0xE) = true ∧
    Instr.wf (.sknp 4 0x1) = true ∧ Instr.wf (.shr 1 VF) = true ∧
    Instr.wf (.drw 1 2 0xF) = true := by decide

theorem test_wf_rom_size :
    romFits (List.replicate 3584 0x00) = true ∧ romFits (List.replicate 3585 0x00) = false := by
  simp only [romFits, List.length_replicate]
  decide

/-! ### Decoding: a word of every constructor, written out from R95 -/

theorem test_decode_control :
    decodeWord 0x00EE = .ok (.ret 0x0E) ∧ decodeWord 0x1234 = .ok (.jp 0x234) ∧
    decodeWord 0x2300 = .ok (.call 0x300) ∧ decodeWord 0x3342 = .ok (.seByte 3 0x42) ∧
    decodeWord 0x4342 = .ok (.sneByte 3 0x42) ∧ decodeWord 0x5120 = .ok (.seReg 1 2) ∧
    decodeWord 0x9120 = .ok (.sneReg 1 2) ∧ decodeWord 0xBFFF = .ok (.jpV0 0xFFF) := by decide

theorem test_decode_alu :
    decodeWord 0x6A42 = .ok (.ldByte 0xA 0x42) ∧ decodeWord 0x7002 = .ok (.addByte 0 0x02) ∧
    decodeWord 0x8120 = .ok (.ldReg 1 2) ∧ decodeWord 0x8121 = .ok (.orReg 1 2) ∧
    decodeWord 0x8122 = .ok (.andReg 1 2) ∧ decodeWord 0x8123 = .ok (.xorReg 1 2) ∧
    decodeWord 0x8F14 = .ok (.addReg 0xF 1) := by decide

theorem test_decode_alu_more :
    decodeWord 0x8125 = .ok (.sub 1 2) ∧ decodeWord 0x8106 = .ok (.shr 1 0) ∧
    decodeWord 0x8127 = .ok (.subn 1 2) ∧ decodeWord 0x812E = .ok (.shl 1 2) ∧
    decodeWord 0xC30F = .ok (.rnd 3 0x0F) := by decide

theorem test_decode_index :
    decodeWord 0xA2F0 = .ok (.ldI 0x2F0) ∧ decodeWord 0xF51E = .ok (.addI 5) ∧
    decodeWord 0xFA29 = .ok (.ldFont 0xA) ∧ decodeWord 0xF533 = .ok (.ldBcd 5) ∧
    decodeWord 0xF255 = .ok (.storeRegs 2) ∧ decodeWord 0xF265 = .ok (.loadRegs 2) := by decide

theorem test_decode_display_and_keys :
    decodeWord 0x00E0 = .ok (.cls 0x0E) ∧ decodeWord 0xD123 = .ok (.drw 1 2 3) ∧
    decodeWord 0xE49E = .ok (.skp 4 0xE) ∧ decodeWord 0xE4A1 = .ok (.sknp 4 0x1) ∧
    decodeWord 0xF107 = .ok (.ldRegDt 1) ∧ decodeWord 0xF20A = .ok (.ldRegKey 2) ∧
    decodeWord 0xF015 = .ok (.ldDtReg 0) ∧ decodeWord 0xF318 = .ok (.ldStReg 3) := by decide

/-- Aliases (T7, T8, T83; R97). -/
theorem test_decode_aliases :
    decodeWord 0x0120 = .ok (.cls 0x12) ∧ decodeWord 0x0000 = .ok (.cls 0x00) ∧
    decodeWord 0x0ABE = .ok (.ret 0xAB) ∧ decodeWord 0xE49F = .ok (.skp 4 0xF) ∧
    decodeWord 0xE4A0 = .ok (.sknp 4 0x0) := by decide

/-- Invalid words (T4, T5, T6). -/
theorem test_decode_invalid :
    decodeWord 0x5121 = .error (.invalidOpcode 0x5121) ∧
    decodeWord 0x0123 = .error (.invalidOpcode 0x0123) ∧
    decodeWord 0x800F = .error (.invalidOpcode 0x800F) ∧
    decodeWord 0x8008 = .error (.invalidOpcode 0x8008) ∧
    decodeWord 0xE0B1 = .error (.invalidOpcode 0xE0B1) ∧
    decodeWord 0xF0FF = .error (.invalidOpcode 0xF0FF) ∧
    decodeWord 0x9001 = .error (.invalidOpcode 0x9001) := by decide

theorem test_decode_bytes :
    decodeBytes [0x12, 0x34, 0x56] = .ok (.jp 0x234, [0x56]) ∧
    decodeBytes [0x12] = .error .truncated ∧ encodeBytes (.jp 0x234) = [0x12, 0x34] ∧
    decodeTableWord 16 0x1234 = some (.jp 0x234) ∧ decodeTableWord 16 0x5121 = none := by decide

/-! ### Cycle and fetch (T1, T3, T4, T9, T10) -/

theorem test_fetch_at_the_end_faults :
    (match step ((testState .wrap).setPc 0x0FFF) with
      | .next t => some t.run
      | .fault _ | .refused _ => none) =
    some (.faulted { fault := .outOfBounds 0x1000, pc := 0x0FFF, opcode := none }) := by decide

theorem test_fetch_of_the_last_word :
    pcAfter ((testState .wrap).setPc 0x0FFE) 0x1200 = some 0x0200 := by decide

theorem test_invalid_word_faults :
    runAfter (testState .wrap) 0x5121 =
      some (.faulted { fault := .invalidOpcode, pc := 0x0200, opcode := some 0x5121 }) := by decide

theorem test_timers_tick :
    (afterWord (((testState .wrap).setDt 1).setSt 0xFF) 0x6000).map (fun t => (t.dt, t.st)) =
      some (0x00, 0xFE) ∧
    (afterWord (testState .wrap) 0x6000).map (fun t => (t.dt, t.st)) = some (0x00, 0x00) := by
  decide

theorem test_font_is_read_where_nothing_was_written :
    (testState .wrap).readByte 0x050 = 0xF0 ∧ (testState .wrap).readByte 0x055 = 0x20 ∧
    (testState .wrap).readByte 0x09F = 0x80 := by decide

/-! ### Control transfer (T11 to T23) -/

theorem test_jp : pcAfter (testState .wrap) 0x1234 = some 0x0234 := by decide

theorem test_call :
    (afterWord (testState .wrap) 0x2300).map (fun t => (t.stack[0], t.sp, t.pc)) =
      some (0x0202, 1, 0x0300) := by decide

theorem test_call_overflow :
    runAfter { testState .wrap with sp := 16 } 0x2300 =
      some (.faulted { fault := .stackOverflow, pc := 0x0200, opcode := some 0x2300 }) := by decide

theorem test_ret :
    (afterWord { testState .wrap with sp := 1, stack := Vector.replicate 16 0x0206 } 0x0ABE).map
      (fun t => (t.pc, t.sp)) = some (0x0206, 0) := by decide

theorem test_ret_underflow :
    runAfter (testState .wrap) 0x00EE =
      some (.faulted { fault := .stackUnderflow, pc := 0x0200, opcode := some 0x00EE }) := by decide

theorem test_seByte :
    pcAfter ((testState .wrap).setV 3 0x42) 0x3342 = some 0x0204 ∧
    pcAfter ((testState .wrap).setV 3 0x41) 0x3342 = some 0x0202 := by decide

theorem test_sneByte :
    pcAfter ((testState .wrap).setV 3 0x41) 0x4342 = some 0x0204 ∧
    pcAfter ((testState .wrap).setV 3 0x42) 0x4342 = some 0x0202 := by decide

theorem test_seReg :
    pcAfter (((testState .wrap).setV 1 7).setV 2 7) 0x5120 = some 0x0204 ∧
    pcAfter (((testState .wrap).setV 1 7).setV 2 8) 0x5120 = some 0x0202 := by decide

theorem test_sneReg :
    pcAfter (testState .wrap) 0x9110 = some 0x0202 ∧
    pcAfter (((testState .wrap).setV 1 7).setV 2 8) 0x9120 = some 0x0204 := by decide

theorem test_jpV0 :
    pcAfter ((testState .wrap).setV 0 0x10) 0xB300 = some 0x0310 ∧
    pcAfter ((testState .wrap).setV 0 0xFF) 0xBFFF = some 0x10FE := by decide

/-! ### Register loads and the ALU (T24 to T50) -/

theorem test_ldByte : regAfter (testState .wrap) 0x6A42 0xA = some 0x42 := by decide

theorem test_addByte :
    regAfter ((testState .wrap).setV 0 0xFF) 0x7002 0 = some 0x01 ∧
    regAfter ((testState .wrap).setV 0 0xFF) 0x7002 VF = some 0x00 ∧
    regAfter ((testState .wrap).setV VF 0x05) 0x7F01 VF = some 0x06 := by decide

theorem test_ldReg : regAfter ((testState .wrap).setV 2 0x99) 0x8120 1 = some 0x99 := by decide

theorem test_orReg :
    regAfter ((((testState .wrap).setV 1 0x0F).setV 2 0xF0).setV VF 0x77) 0x8121 1 = some 0xFF ∧
    regAfter ((((testState .wrap).setV 1 0x0F).setV 2 0xF0).setV VF 0x77) 0x8121 VF =
      some 0x77 := by decide

theorem test_andReg :
    regAfter (((testState .wrap).setV 1 0x0F).setV 2 0x3C) 0x8122 1 = some 0x0C := by decide

theorem test_xorReg :
    regAfter (((testState .wrap).setV 1 0x0F).setV 2 0x3C) 0x8123 1 = some 0x33 := by decide

theorem test_addReg :
    regAfter (((testState .wrap).setV 1 0x80).setV 2 0x80) 0x8124 1 = some 0x00 ∧
    regAfter (((testState .wrap).setV 1 0x80).setV 2 0x80) 0x8124 VF = some 0x01 := by decide

theorem test_addReg_with_VF :
    regAfter (((testState .wrap).setV VF 0xFF).setV 1 0x01) 0x8F14 VF = some 0x01 ∧
    regAfter (((testState .wrap).setV 0 0x10).setV VF 0x20) 0x80F4 0 = some 0x30 ∧
    regAfter (((testState .wrap).setV 0 0x10).setV VF 0x20) 0x80F4 VF = some 0x00 := by decide

theorem test_sub :
    regAfter (((testState .wrap).setV 1 0x03).setV 2 0x05) 0x8125 1 = some 0xFE ∧
    regAfter (((testState .wrap).setV 1 0x03).setV 2 0x05) 0x8125 VF = some 0x00 ∧
    regAfter (((testState .wrap).setV 1 0x07).setV 2 0x07) 0x8125 VF = some 0x01 := by decide

theorem test_subn :
    regAfter (((testState .wrap).setV 1 0x03).setV 2 0x05) 0x8127 1 = some 0x02 ∧
    regAfter (((testState .wrap).setV 1 0x03).setV 2 0x05) 0x8127 VF = some 0x01 ∧
    regAfter (((testState .wrap).setV 1 0x05).setV 2 0x03) 0x8127 VF = some 0x00 := by decide

theorem test_shr :
    regAfter ((testState .wrap).setV 1 0x05) 0x8106 1 = some 0x02 ∧
    regAfter ((testState .wrap).setV 1 0x05) 0x8106 VF = some 0x01 ∧
    regAfter ((testState .wrap).setV VF 0x03) 0x8F06 VF = some 0x00 := by decide

theorem test_shl :
    regAfter ((testState .wrap).setV 1 0x81) 0x810E 1 = some 0x02 ∧
    regAfter ((testState .wrap).setV 1 0x81) 0x810E VF = some 0x01 ∧
    regAfter ((testState .wrap).setV VF 0x80) 0x8F0E VF = some 0x02 ∧
    regAfter ((testState .wrap).setV VF 0x7F) 0x8F0E VF = some 0x00 := by decide

theorem test_shr_from_Vy :
    regAfter (testStateVy.setV 2 0x05) 0x8126 1 = some 0x02 ∧
    regAfter (testStateVy.setV 2 0x05) 0x8126 VF = some 0x01 ∧
    regAfter (testStateVy.setV 2 0x05) 0x8126 2 = some 0x05 := by decide

theorem test_shl_from_Vy :
    regAfter (testStateVy.setV 2 0x81) 0x812E 1 = some 0x02 ∧
    regAfter (testStateVy.setV 2 0x81) 0x812E VF = some 0x01 ∧
    regAfter (testStateVy.setV VF 0x81) 0x8FFE VF = some 0x02 := by decide

theorem test_rnd :
    regAfter { testState .wrap with inputs := [{ held := 0, pressed := none, rand := 0xB7 }] }
      0xC30F 3 = some 0x07 := by decide

/-! ### Index register, loads and stores (T51 to T66) -/

theorem test_ldI : iAfter (testState .wrap) 0xA2F0 = some 0x02F0 := by decide

theorem test_addI :
    iAfter (((testState .wrap).setI 0xFFFF).setV 3 0x02) 0xF31E = some 0x0001 ∧
    iAfter (((testState .wrap).setI 0x0FFF).setV 3 0x01) 0xF31E = some 0x1000 := by decide

theorem test_ldFont :
    iAfter ((testState .wrap).setV 0xA 0x0A) 0xFA29 = some 0x0082 ∧
    iAfter ((testState .wrap).setV 0xA 0xFF) 0xFA29 = some 0x054B := by decide

theorem test_ldBcd :
    bytesAfter (((testState .wrap).setI 0x300).setV 5 0xEA) 0xF533 [0x300, 0x301, 0x302] =
      some [0x02, 0x03, 0x04] ∧
    bytesAfter (((testState .wrap).setI 0xFFD).setV 0 9) 0xF033 [0xFFD, 0xFFE, 0xFFF] =
      some [0x00, 0x00, 0x09] := by decide

theorem test_ldBcd_out_of_memory :
    runAfter ((testState .wrap).setI 0xFFE) 0xF033 =
      some (.faulted { fault := .outOfBounds 0x1000, pc := 0x0200, opcode := some 0xF033 }) := by
  decide

theorem test_storeRegs :
    bytesAfter (((((testState .wrap).setI 0x300).setV 0 0x11).setV 1 0x22).setV 2 0x33) 0xF255
      [0x300, 0x301, 0x302] = some [0x11, 0x22, 0x33] ∧
    iAfter ((testState .wrap).setI 0x300) 0xF255 = some 0x300 := by decide

theorem test_storeRegs_at_the_end :
    bytesAfter (((testState .wrap).setI 0xFF0).setV VF 0x5A) 0xFF55 [0xFF0, 0xFFF] =
      some [0x00, 0x5A] ∧
    runAfter ((testState .wrap).setI 0xFF1) 0xFF55 =
      some (.faulted { fault := .outOfBounds 0x1000, pc := 0x0200, opcode := some 0xFF55 }) := by
  decide

theorem test_loadRegs :
    (afterWord (withBytes ((testState .wrap).setI 0x300) 0x300 [0x02, 0x03, 0x04]) 0xF265).map
      (fun t => (t.getV 0, t.getV 1, t.getV 2, t.getV 3, t.i)) =
      some (0x02, 0x03, 0x04, 0x00, 0x300) := by decide

theorem test_loadRegs_out_of_memory :
    runAfter ((testState .wrap).setI 0xFF1) 0xFF65 =
      some (.faulted { fault := .outOfBounds 0x1000, pc := 0x0200, opcode := some 0xFF65 }) := by
  decide

/-! ### Framebuffer (T67 to T78); a cell is (row, column) -/

theorem test_cls :
    litAfter { testState .wrap with fb := oneCell 5 5 } 0x00E0 = some 0 ∧
    litAfter { testState .wrap with fb := oneCell 5 5 } 0x6000 = some 1 := by decide

/-- T72. -/
theorem test_drw_wraps :
    cellsAfter (withBytes ((((testState .wrap).setI 0x300).setV 1 60).setV 2 31) 0x300
      [0xF0, 0x81]) 0xD122 [(31, 60), (31, 61), (31, 62), (31, 63), (0, 60), (0, 3)] =
      some [true, true, true, true, true, true] ∧
    litAfter (withBytes ((((testState .wrap).setI 0x300).setV 1 60).setV 2 31) 0x300
      [0xF0, 0x81]) 0xD122 = some 6 := by decide

/-- T73, T70. -/
theorem test_drw_clips :
    litAfter (withBytes ((((testState .clip).setI 0x300).setV 1 60).setV 2 31) 0x300
      [0xF0, 0x81]) 0xD122 = some 4 ∧
    litAfter (withBytes (((testState .clip).setI 0x300).setV 2 40) 0x300 [0xFF]) 0xD121 =
      some 0 := by decide

/-- T69: the second draw turns the cells off and collides. -/
theorem test_drw_collides :
    (match afterWord (withBytes (((testState .wrap).setI 0x300).setV 1 60) 0x300 [0x80]) 0xD121 with
      | some t => (afterWord t 0xD121).map fun u => (u.getV VF, u.fb.cell 0 60, u.present)
      | none => none) = some (0x01, false, true) := by decide

/-- T77: the coordinate register is VF. -/
theorem test_drw_through_VF :
    cellsAfter (withBytes { (((testState .wrap).setI 0x300).setV 1 5).setV VF 0x33 with
      fb := oneCell 5 0 } 0x300 [0x80, 0x80]) 0xDF12 [(5, 0), (6, 0), (6, 1)] =
      some [false, false, true] := by decide

/-- T75. -/
theorem test_drw_out_of_memory :
    runAfter ((testState .wrap).setI 0xFFF) 0xD012 =
      some (.faulted { fault := .outOfBounds 0x1000, pc := 0x0200, opcode := some 0xD012 }) := by
  decide

/-- T74. -/
theorem test_drw_no_rows :
    (afterWord ((testState .wrap).setV VF 0x55) 0xD120).map
      (fun t => (t.getV VF, t.present)) = some (0x00, true) := by decide

/-! ### Keys and timers (T79 to T90) -/

/-- A state whose next Step sees key A held and key A pressed. -/
def keyState : State :=
  { (testState .wrap).setV 4 0x0A with
    inputs := [{ held := 0x0400, pressed := some 0xA, rand := 0x00 }] }

/-- A state whose next Step sees no key. -/
def noKeyState : State :=
  { (testState .wrap).setV 4 0x0A with
    inputs := [{ held := 0x0000, pressed := none, rand := 0x00 }] }

theorem test_skp :
    pcAfter keyState 0xE49E = some 0x0204 ∧ pcAfter noKeyState 0xE49E = some 0x0202 := by decide

theorem test_skp_out_of_range :
    runAfter ((testState .wrap).setV 4 0x10) 0xE49E =
      some (.faulted { fault := .keyOutOfRange 0x10, pc := 0x0200, opcode := some 0xE49E }) := by
  decide

theorem test_sknp :
    pcAfter keyState 0xE4A1 = some 0x0202 ∧ pcAfter noKeyState 0xE4A1 = some 0x0204 := by decide

theorem test_ldRegDt :
    (afterWord ((testState .wrap).setDt 4) 0xF107).map (fun t => (t.getV 1, t.dt)) =
      some (0x04, 0x03) := by decide

theorem test_ldRegKey :
    (afterWord keyState 0xF20A).map (fun t => (t.getV 2, t.pc)) = some (0x0A, 0x0202) ∧
    (afterWord (noKeyState.setDt 3) 0xF20A).map (fun t => (t.getV 2, t.pc, t.dt)) =
      some (0x00, 0x0200, 0x02) := by decide

theorem test_ldDtReg :
    (afterWord ((testState .wrap).setV 0 5) 0xF015).map (·.dt) = some 0x04 ∧
    (afterWord (testState .wrap) 0xF015).map (·.dt) = some 0x00 := by decide

theorem test_ldStReg :
    (afterWord ((testState .wrap).setV 3 0x10) 0xF318).map (fun t => (t.st, t.soundOn)) =
      some (0x0F, true) ∧
    (afterWord ((testState .wrap).setV 3 0x01) 0xF318).map (fun t => (t.st, t.soundOn)) =
      some (0x00, false) := by decide

/-! ### Load, Reset and refusals (T92 to T95) -/

theorem test_load :
    ((hostLoad [0x12, 0x34] State.reset).1, (hostLoad [0x12, 0x34] State.reset).2.readByte 0x201,
      (hostLoad [0x12, 0x34] State.reset).2.run) = (.ok, 0x34, .loaded) ∧
    (hostLoad [0x12] (testState .wrap)).1 = .refused := by decide

theorem test_step_is_refused :
    step State.reset = .refused .stepBeforeLoad ∧
    (match afterWord (testState .wrap) 0x00EE with
      | some t => step t = .refused .stepAfterFault ∧ (hostReset t).run = .ready ∧
          (hostReset t).pc = 0x0200
      | none => False) := by
  refine ⟨rfl, rfl, rfl, rfl⟩

theorem test_fault_numbers :
    (Fault.invalidOpcode.code, Fault.stackOverflow.code, Fault.stackUnderflow.code,
      (Fault.outOfBounds 0x1000).code, (Fault.keyOutOfRange 0x10).code) = (1, 2, 3, 4, 5) := by
  decide

/-! ### Witnesses: states and operands that meet the hypotheses of each statement -/

/-- The state whose next Step fetches the word `w`. -/
def atWord (s : State) (w : Nat) : State := s.withFetchWord 16 w

/-- SP = 15: room for one more call. -/
def deepState : State := { testState .wrap with sp := 15 }

/-- SP = 16. -/
def fullState : State := { testState .wrap with sp := 16 }

theorem test_witness_EncodeOfDecode :
    decodeWord 0x0ABE = .ok (.ret 0xAB) ∧ decodeWord 0xFFFF = .error (.invalidOpcode 0xFFFF) := by
  decide

theorem test_witness_OpcodeMapDecidesDecoding :
    (0xF00F#16, 0x800E#16) ∈ opcodeMap ∧ 0x812E#16 &&& 0xF00F#16 = 0x800E#16 ∧
    decodeWord 0x812E = .ok (.shl 1 2) ∧
    decodeWord 0x812F = .error (.invalidOpcode 0x812F) := by decide

theorem test_witness_AliasWordsActLikeTheConventionalWord :
    0 < deepState.sp.val ∧ (((testState .wrap).setV 4 0x0F).getV 4).toNat ≤ 0xF ∧
    0x0ABE#16 &&& 0xF00F#16 = 0x000E#16 ∧ 0x0AB0#16 &&& 0xF00F#16 = 0x0000#16 ∧
    0xE49F#16 &&& 0xF0F0#16 = 0xE090#16 ∧ 0xE4AF#16 &&& 0xF0F0#16 = 0xE0A0#16 := by decide

theorem test_witness_RowDecodes :
    0x6AFF#16 &&& 0xF000#16 = 0x6000#16 ∧ 0x8FF0#16 &&& 0xF00F#16 = 0x8000#16 ∧
    0xFF1E#16 &&& 0xF0FF#16 = 0xF01E#16 := by decide

theorem test_witness_AddRegistersSumAndCarry :
    (1 : Reg) ≠ VF ∧ 256 ≤ (((testState .wrap).setV 1 0xFF).getV 1).toNat +
      (((testState .wrap).setV 1 0xFF).getV 1).toNat := by decide

theorem test_witness_SubtractDifferenceAndNotBorrow :
    (1 : Reg) ≠ VF ∧ (((testState .wrap).setV 1 0xFF).getV 2).toNat <
      (((testState .wrap).setV 1 0xFF).getV 1).toNat := by decide

/-- Both sources, and X = VF and not. -/
theorem test_witness_ShiftRightHalvesAndShiftsOutBit0 :
    (testState .wrap).cfg.shiftSource = .vx ∧ testStateVy.cfg.shiftSource = .vy ∧
    (0xE : Reg) ≠ VF ∧ (0xF : Reg) = VF := by decide

theorem test_witness_ShiftLeftDoublesAndShiftsOutBit7 :
    (testState .wrap).cfg.shiftSource = .vx ∧ testStateVy.cfg.shiftSource = .vy ∧
    (0xE : Reg) ≠ VF ∧ (0xF : Reg) = VF := by decide

theorem test_witness_RandomIsMaskedByTheImmediate :
    keyState.inputs = { held := 0x0400, pressed := some 0xA, rand := 0x00 } :: [] := by decide

theorem test_witness_CallPushesAndJumps :
    deepState.sp.val = 15 ∧ deepState.sp.val < 16 ∧ fullState.sp.val = 16 := by decide

theorem test_witness_ReturnPopsThePc :
    0 < fullState.sp.val ∧ 0 < deepState.sp.val ∧ (testState .wrap).sp.val = 0 := by decide

theorem test_witness_ByteCompareSkips :
    ((testState .wrap).setV 3 0xFF).getV 3 = 0xFF ∧
    ((testState .wrap).setV 3 0xFF).getV 3 ≠ 0xFE := by decide

theorem test_witness_RegisterCompareSkips :
    ((testState .wrap).setV 1 7).getV 1 ≠ ((testState .wrap).setV 1 7).getV 2 ∧
    (testState .wrap).getV 1 = (testState .wrap).getV 2 ∧
    fieldA 0x5121 = 0x5 ∧ fieldD 0x5121 ≠ 0x0 ∧ fieldA 0x912F = 0x9 ∧ fieldD 0x912F ≠ 0x0 := by
  decide

/-- A call to a return. -/
def callState : State := atWord (withBytes deepState 0x300 [0x00, 0xEE]) 0x2300

theorem test_witness_CallThenReturnComesBack :
    callState.nextIs (.call 0x300) ∧ callState.sp.val < 16 ∧
    callState.fetch (0x300 : Addr12).toNat = .ok (encode (.ret 0x0E)) := by
  refine ⟨⟨?_, ?_, ?_⟩, ?_, ?_⟩ <;> decide

theorem test_witness_BcdStoresTheThreeDigits :
    ((testState .wrap).setI 0xFFD).i.toNat + 2 < 4096 := by decide

theorem test_witness_StoreRegistersAtIndex :
    ((testState .wrap).setI 0xFF0).i.toNat + (0xF : Reg).val < 4096 ∧ (0xF : Reg) ≤ 0xF := by decide

theorem test_witness_LoadRegistersFromIndex :
    ((testState .wrap).setI 0xFF1).i.toNat + (0xE : Reg).val < 4096 ∧ (0xE : Reg) ≤ 0xE ∧
    (0xE : Reg) < 0xF := by decide

theorem test_witness_StoreThenLoadRoundTrips :
    ((testState .wrap).setI 0xFFF).i.toNat + (0x0 : Reg).val < 4096 := by decide

theorem test_witness_TransfersOutOfMemoryFault :
    4096 ≤ ((testState .wrap).setI 0xFFE).i.toNat + 2 ∧
    4096 ≤ ((testState .wrap).setI 0xFF1).i.toNat + (0xF : Reg).val ∧
    4096 ≤ ((testState .wrap).setI 0x1000).i.toNat + (0x0 : Reg).val := by decide

theorem test_witness_MemoryReadsTheLastWrite :
    4095 < memSize ∧ 4096 ≤ memSize ∧ 4094 ≠ 4095 := by decide

theorem test_witness_FetchIsBigEndianAndSeesStores : 0xFFE + 1 < memSize := by decide

theorem test_witness_FetchBeyondMemoryFaults :
    (testState .wrap).run = .loaded ∧ 4096 ≤ ((testState .wrap).setPc 0x0FFF).pc.toNat + 1 ∧
    4096 ≤ ((testState .wrap).setPc 0x1000).pc.toNat + 1 := by decide

theorem test_witness_UnlistedWordFaults :
    (atWord (testState .wrap) 0x5121).run = .loaded ∧
    (atWord ((testState .wrap).setPc 0xFFE) 0x5121).pc.toNat + 1 < 4096 ∧
    ∀ r ∈ opcodeMap, (atWord ((testState .wrap).setPc 0xFFE) 0x5121).opcodeAtPc &&& r.1 ≠ r.2 := by
  have h : (atWord ((testState .wrap).setPc 0xFFE) 0x5121).opcodeAtPc = 0x5121#16 := by decide
  have h' : (opcodeMap.all fun r => 0x5121#16 &&& r.1 != r.2) = true := by rfl
  rw [h]
  refine ⟨by decide, by decide, fun r hr => ?_⟩
  have := List.all_eq_true.1 h' r hr
  simpa only [bne_iff_ne] using this

/-- A step that completes and one that faults. -/
theorem test_witness_StepRunsTheDecodedInstruction :
    (atWord (testState .wrap) 0x6A42).nextIs (.ldByte 0xA 0x42) ∧
    (∃ t, exec (.ldByte 0xA 0x42) (atWord (testState .wrap) 0x6A42).advance = .next t ∧
      t.run.isFaulted = false) ∧
    (atWord (testState .wrap) 0x00EE).nextIs (.ret 0x0E) ∧
    (∃ t, exec (.ret 0x0E) (atWord (testState .wrap) 0x00EE).advance = .next t ∧
      t.run.isFaulted = true) := by
  refine ⟨⟨?_, ?_, ?_⟩, ⟨_, rfl, ?_⟩, ⟨?_, ?_, ?_⟩, ⟨_, rfl, ?_⟩⟩ <;> decide

theorem test_witness_TimersTickOnEveryCompletedCycle :
    (atWord (testState .wrap) 0x6A42).nextIs (.ldByte 0xA 0x42) ∧
    ∃ u, step (atWord (testState .wrap) 0x6A42) = .next u ∧ u.run = .running := by
  refine ⟨⟨?_, ?_, ?_⟩, ⟨_, rfl, ?_⟩⟩ <;> decide

theorem test_witness_DrawCompletesInsideMemory :
    ((0x0 : Nibble) = 0#4 ∨ ((testState .wrap).setI 0xFFFF).i.toNat + (0x0 : Nibble).toNat - 1 < 4096) ∧
    ((testState .wrap).setI 0xFFF).i.toNat + (0x1 : Nibble).toNat - 1 < 4096 ∧
    ((testState .wrap).setI 0xFF1).i.toNat + (0xF : Nibble).toNat - 1 < 4096 := by decide

/-- A one-row sprite whose leftmost pixel is at column 0, row 5. -/
def drawState : State :=
  withBytes { ((testState .wrap).setI 0x300).setV 2 5 with fb := oneCell 5 0 } 0x300 [0x80]

/-- The lit cell is covered. -/
theorem test_witness_a_draw_collides :
    SpriteCovers drawState 1 2 (0x1 : Nibble).toNat 5 0 ∧ drawState.fb.cell 5 0 = true := by
  refine ⟨⟨0, ?_, ?_, 0, ?_, ?_, ?_⟩, ?_⟩
  · decide
  · show ((drawState.getV 2).toNat + 0) % 32 = 5
    decide
  all_goals decide

/-- A draw that collides, and one on a clear screen. -/
theorem test_witness_DrawXorsTheSpriteAndReportsCollision :
    (1 : Reg) ≠ VF ∧ (2 : Reg) ≠ VF ∧ drawState.i.toNat + (0x1 : Nibble).toNat - 1 < 4096 ∧
    (∃ yy xx, SpriteCovers drawState 1 2 (0x1 : Nibble).toNat yy xx ∧
      drawState.fb.cell yy xx = true) ∧
    ∀ yy xx, SpriteCovers (testState .wrap) 1 2 (0x1 : Nibble).toNat yy xx →
      (testState .wrap).fb.cell yy xx = false := by
  refine ⟨?_, ?_, ?_, ⟨5, 0, test_witness_a_draw_collides⟩,
    fun yy xx _ => Framebuffer.cell_clear yy xx⟩ <;> decide

theorem test_witness_DrawTwiceRestores :
    (1 : Reg) ≠ VF ∧ (2 : Reg) ≠ VF ∧
    ((0xF : Nibble) = 0#4 ∨ ((testState .clip).setI 0xFF1).i.toNat + (0xF : Nibble).toNat - 1 < 4096) := by
  decide

/-- A first draw that lights a cell: the one-row sprite on a screen whose one lit cell is elsewhere. -/
theorem test_witness_a_first_draw_lights_a_cell :
    drawState.i.toNat + (0x1 : Nibble).toNat - 1 < 4096 ∧
    ({ drawState with fb := oneCell 7 7 } : State).fb.cell 5 0 = false ∧
    ∃ t, exec (.drw 1 2 1) { drawState with fb := oneCell 7 7 } = .next t ∧
      t.fb.cell 5 0 = true := by
  refine ⟨?_, ?_, _, rfl, ?_⟩ <;> decide

theorem test_witness_DrawGoesRowByRow :
    ((0x2 : Nibble) = 0#4 ∨ ((testState .clip).setI 0xFFE).i.toNat + (0x2 : Nibble).toNat - 1 < 4096) ∧
    1 < (0x2 : Nibble).toNat := by decide

theorem test_witness_DrawOutOfMemoryFaults :
    (0x1 : Nibble) ≠ 0#4 ∧ 4096 ≤ ((testState .wrap).setI 0x1000).i.toNat + (0x1 : Nibble).toNat - 1 ∧
    (0x2 : Nibble) ≠ 0#4 ∧ 4096 ≤ ((testState .wrap).setI 0xFFF).i.toNat + (0x2 : Nibble).toNat - 1 := by
  decide

/-- A draw of two rows at 0xFFF, the last byte of memory: the one row that can be read lies on screen row 0. -/
def edgeState : State := (testState .wrap).setI 0xFFF

/-- No readable row covers a cell of row 1, whatever VF is while drawing. -/
theorem test_witness_a_cell_no_readable_row_covers :
    (1 : Reg) ≠ VF ∧ (2 : Reg) ≠ VF ∧
    ¬ SpriteCovers edgeState 1 2 (min (0x2 : Nibble).toNat (4096 - edgeState.i.toNat)) 1 0 ∧
    ∀ b : Byte, ¬ SpriteCovers (edgeState.setV VF b) 1 2
      (min (0x2 : Nibble).toNat (4096 - (edgeState.setV VF b).i.toNat)) 1 0 := by
  have rows : min (0x2 : Nibble).toNat (4096 - edgeState.i.toNat) = 1 := by decide
  refine ⟨by decide, by decide, ?_, fun b => ?_⟩
  · rw [rows]
    rintro ⟨k, hk, hy, -⟩
    obtain rfl : k = 0 := by omega
    exact absurd (show ((edgeState.getV 2).toNat + 0) % 32 = 1 from hy) (by decide)
  · rw [State.setV_i, rows]
    rintro ⟨k, hk, hy, -⟩
    obtain rfl : k = 0 := by omega
    have hy : (((edgeState.setV VF b).getV 2).toNat + 0) % 32 = 1 := hy
    rw [State.getV_setV_ne _ _ (by decide)] at hy
    exact absurd hy (by decide)

theorem test_witness_KeySkipsReadTheHeldKeys :
    (((testState .wrap).setV 4 0x0F).getV 4).toNat ≤ 0xF ∧
    0xF < (((testState .wrap).setV 4 0x10).getV 4).toNat := by decide

theorem test_witness_KeyWaitWritesTheKeyOrRetries :
    keyState.sample.pressed = some 0xA ∧ noKeyState.sample.pressed = none := by decide

theorem test_witness_TimerWriteIsTickedInItsOwnCycle :
    (atWord (testState .wrap) 0xF015).nextIs (.ldDtReg 0) ∧
    (atWord (testState .wrap) 0xF018).nextIs (.ldStReg 0) ∧
    (atWord (testState .wrap) 0xF007).nextIs (.ldRegDt 0) := by
  refine ⟨⟨?_, ?_, ?_⟩, ⟨?_, ?_, ?_⟩, ⟨?_, ?_, ?_⟩⟩ <;> decide

theorem test_witness_WaitingStepOnlyTicks :
    (atWord noKeyState 0xF20A).nextIs (.ldRegKey 2) ∧
    (atWord noKeyState 0xF20A).sample.pressed = none := by
  refine ⟨⟨?_, ?_, ?_⟩, ?_⟩ <;> decide

theorem test_witness_StepIsRefusedOrRunsOneCycle :
    (testState .wrap).run = .loaded ∧ ((testState .wrap).setRun .running).run = .running ∧
    State.reset.run = .ready ∧
    ((testState .wrap).raiseAt 0x0200 none .invalidOpcode).run =
      .faulted { fault := .invalidOpcode, pc := 0x0200, opcode := none } := by decide

/-- A call that faults and one that does not, and a key and an address in the record. -/
theorem test_witness_StepFaultsExactlyWhenListed :
    (atWord fullState 0x2300).nextIs (.call 0x300) ∧
    (atWord fullState 0x2300).ownFault (.call 0x300) = some .stackOverflow ∧
    (atWord deepState 0x2300).nextIs (.call 0x300) ∧
    (atWord deepState 0x2300).ownFault (.call 0x300) = none ∧
    ((testState .wrap).setI 0xFFE).ownFault (.ldBcd 0) = some (.outOfBounds 0x1000) ∧
    ((testState .wrap).setI 0xFFD).ownFault (.ldBcd 0) = none ∧
    ((testState .wrap).setV 4 0x10).ownFault (.skp 4 0xE) = some (.keyOutOfRange 0x10) ∧
    ((testState .wrap).setV 4 0x0F).ownFault (.skp 4 0xE) = none := by
  refine ⟨⟨?_, ?_, ?_⟩, ?_, ⟨?_, ?_, ?_⟩, ?_, ?_, ?_, ?_, ?_⟩ <;> decide

theorem test_witness_FaultingStepKeepsTheRest :
    (atWord fullState 0x2300).nextIs (.call 0x300) ∧
    (∃ u, step (atWord fullState 0x2300) = .next u ∧ u.run.isFaulted = true) ∧
    (∀ x, Instr.call 0x300 ≠ .loadRegs x) ∧ (∀ x y n, Instr.call 0x300 ≠ .drw x y n) := by
  refine ⟨⟨?_, ?_, ?_⟩, ⟨_, rfl, ?_⟩, ?_, ?_⟩ <;> decide

/-- FX65 and FX55 that fault at I = 0xFFF: a register whose byte lies at 4096, and the byte below I. -/
theorem test_witness_a_faulting_transfer_keeps_the_rest :
    (atWord edgeState 0xF265).nextIs (.loadRegs 2) ∧
    (∃ u, step (atWord edgeState 0xF265) = .next u ∧ u.run.isFaulted = true) ∧
    4096 ≤ (atWord edgeState 0xF265).i.toNat + (1 : Reg).val ∧
    (atWord edgeState 0xF255).nextIs (.storeRegs 2) ∧
    (∃ u, step (atWord edgeState 0xF255) = .next u ∧ u.run.isFaulted = true) ∧
    0xFFE < (atWord edgeState 0xF255).i.toNat := by
  refine ⟨⟨?_, ?_, ?_⟩, ⟨_, rfl, ?_⟩, ?_, ⟨?_, ?_, ?_⟩, ⟨_, rfl, ?_⟩, ?_⟩ <;> decide

theorem test_witness_OnlyTheNamedInstructionsWrite :
    (atWord (testState .wrap) 0x1234).nextIs (.jp 0x234) ∧
    (∃ u, step (atWord (testState .wrap) 0x1234) = .next u) ∧
    writesReg (.jp 0x234) 0 = false ∧ writesReg (.loadRegs 0xE) VF = false ∧
    writesReg (.drw VF VF 1) 0xE = false := by
  refine ⟨⟨?_, ?_, ?_⟩, ⟨_, rfl⟩, ?_, ?_, ?_⟩ <;> decide

/-- The clauses on PC, DT and ST: a step that completes and moves none of them. -/
theorem test_witness_a_completed_step_moves_nothing :
    (atWord (testState .wrap) 0x6A42).nextIs (.ldByte 0xA 0x42) ∧
    (∃ u, step (atWord (testState .wrap) 0x6A42) = .next u ∧ u.run = .running) ∧
    movesPc (.ldByte 0xA 0x42) = false := by
  refine ⟨⟨?_, ?_, ?_⟩, ⟨_, rfl, ?_⟩, ?_⟩ <;> decide

theorem test_witness_OnlyFlagWritersAndNamedDestinationsChangeVF :
    (atWord (testState .wrap) 0x6E42).nextIs (.ldByte 0xE 0x42) ∧
    (∃ u, step (atWord (testState .wrap) 0x6E42) = .next u) ∧
    writesVF (.ldByte 0xE 0x42) = false := by
  refine ⟨⟨?_, ?_, ?_⟩, ⟨_, rfl⟩, ?_⟩ <;> decide

/-- Two states that differ in STACK[15] alone, at depth 15: a Step runs, and in READY it is refused. -/
theorem test_witness_DeadStackEntriesAreInvisible :
    SameLiveState (atWord deepState 0x00EE)
      { atWord deepState 0x00EE with stack := (atWord deepState 0x00EE).stack.set 15 0x1234 } ∧
    (atWord deepState 0x00EE).stack ≠ (atWord deepState 0x00EE).stack.set 15 0x1234 ∧
    (∃ u, step (atWord deepState 0x00EE) = .next u) ∧
    step ((atWord deepState 0x00EE).setRun .ready) = .refused .stepBeforeLoad := by
  refine ⟨⟨rfl, by decide⟩, by decide, ⟨_, rfl⟩, rfl⟩

theorem test_witness_OnlyInputInstructionsReadTheSample :
    (∀ x nn, Instr.jp 0x234 ≠ .rnd x nn) ∧ (∀ x d, Instr.jp 0x234 ≠ .skp x d) ∧
    (∀ x d, Instr.jp 0x234 ≠ .sknp x d) ∧ (∀ x, Instr.jp 0x234 ≠ .ldRegKey x) ∧
    ∃ t, exec (.jp 0x234) (testState .wrap) = .next t := by
  refine ⟨?_, ?_, ?_, ?_, ⟨_, rfl⟩⟩ <;> decide

theorem test_witness_InvariantIsKeptByEveryStep :
    (atWord deepState 0xF033).Inv ∧ ∃ u, step (atWord deepState 0xF033) = .next u := by
  refine ⟨⟨?_, ?_, ?_⟩, ⟨_, rfl⟩⟩ <;> decide

theorem test_witness_HostOperationsKeepTheInvariant :
    State.reset.Inv ∧ State.reset.run = .ready := by
  refine ⟨⟨?_, ?_, ?_⟩, ?_⟩ <;> decide

theorem test_witness_LoadWritesTheProgramOnce :
    State.reset.run = .ready ∧ (List.replicate 3584 (0x00 : Byte)).length ≤ 3584 ∧
    3584 < (List.replicate 3585 (0x00 : Byte)).length ∧ (testState .wrap).run ≠ .ready := by
  simp only [List.length_replicate]
  decide

theorem test_witness_HaltLoopOnlyTicks :
    (atWord (testState .wrap) 0x1200).run = .loaded ∧ (atWord (testState .wrap) 0x1200).haltLoop := by
  refine ⟨?_, ?_, 0x200, ?_, ?_⟩ <;> decide

/-- 6A42 at 0x200, then a jump to itself at 0x202. -/
def endingState : State := withBytes (testState .wrap) 0x200 [0x6A, 0x42, 0x12, 0x02]

/-- A run whose end state is one Step away, and which reaches it. -/
theorem test_witness_a_run_ends_at_its_first_halt_loop :
    (∃ t, endingState.endsIn 1 t) ∧ endingState.run = .loaded ∧
    ∃ t, endingState.runsTo 1 t ∧ t.haltLoop := by
  refine ⟨⟨_, ?_, _, rfl, ?_, rfl, ?_, ?_, 0x202, ?_, ?_⟩, ?_, _, ⟨_, rfl, ?_, rfl⟩, ?_, 0x202, ?_, ?_⟩
  · rintro ⟨-, nnn, -, hw⟩
    have class1 := congrArg fieldA hw
    rw [show fieldA (0x1#4 ++ nnn) = 0x1#4 from fieldA_packLA 0x1#4 nnn] at class1
    exact absurd class1 (by decide)
  · decide
  · right; decide
  all_goals decide

theorem test_witness_HostStepRunsOnItsOwnSample :
    (atWord noKeyState 0xC4FF).nextIs (.rnd 4 0xFF) ∧
    (atWord noKeyState 0xE49E).nextIs (.skp 4 0xE) ∧ (noKeyState.getV 4).toNat ≤ 0xF ∧
    (atWord noKeyState 0xE4A1).nextIs (.sknp 4 0x1) ∧
    (atWord noKeyState 0xF40A).nextIs (.ldRegKey 4) := by
  refine ⟨⟨?_, ?_, ?_⟩, ⟨?_, ?_, ?_⟩, ?_, ⟨?_, ?_, ?_⟩, ⟨?_, ?_, ?_⟩⟩ <;> decide

/-- A word that decodes, placed with the PC in memory and with it beyond. -/
theorem test_witness_PlacedWordRunsNext :
    atWord State.reset 0x1234 = State.reset.withFetchWord 16 (0x1234 : Word).toNat ∧
    decodeWord 0x1234 = .ok (.jp 0x234) ∧ (atWord State.reset 0x1234).nextIs (.jp 0x234) ∧
    (atWord ((testState .wrap).setPc 0x10FE) 0x1234).pc = 0x0200 := by
  refine ⟨rfl, ?_, ⟨?_, ?_, ?_⟩, ?_⟩ <;> decide
end

section
/-! PROOFS. The host's input samples (00_scope.md R9): which operations see the queue they stand in, and which instructions do. -/

namespace Sys2Proof.Machine

/-- The state with another queue of input samples. -/
def State.withInputs (s : State) (queue : List StepInput) : State := { s with inputs := queue }

/-! ### Operations that do not see the samples -/

section
variable (s : State) (queue : List StepInput)

theorem State.withInputs_i : (s.withInputs queue).i = s.i := rfl

theorem State.setFb_withInputs (fb : Framebuffer) :
    (s.withInputs queue).setFb fb = (s.setFb fb).withInputs queue := rfl

theorem State.setV_withInputs (r : Reg) (b : Byte) :
    (s.withInputs queue).setV r b = (s.setV r b).withInputs queue := rfl

theorem State.raise_withInputs (i : Instr) (f : Fault) :
    (s.withInputs queue).raise i f = (s.raise i f).withInputs queue := rfl

theorem State.freeRegs_withInputs (n : Nat) :
    (s.withInputs queue).freeRegs n = (s.freeRegs n).withInputs queue := by
  unfold State.freeRegs
  rfl

theorem State.readableRows_withInputs (n : Nat) :
    (s.withInputs queue).readableRows n = s.readableRows n := by
  rw [State.readableRows_eq, State.readableRows_eq]
  rfl

theorem State.freeDraw_withInputs (drawn : State) :
    (s.withInputs queue).freeDraw (drawn.withInputs queue) =
      (s.freeDraw drawn).withInputs queue := by
  unfold State.freeDraw
  rw [← State.setV_withInputs, ← State.setFb_withInputs]
  rfl

end

theorem State.setVs_withInputs (queue : List StepInput) (bs : List Byte) (s : State) (k : Nat) :
    (s.withInputs queue).setVs k bs = (s.setVs k bs).withInputs queue := by
  induction bs generalizing s k with
  | nil => rfl
  | cons b rest ih =>
    unfold State.setVs
    split
    · rename_i hk
      exact ih (s.setV ⟨k, hk⟩ b) (k + 1)
    · rfl

theorem State.freeBytes_withInputs (queue : List StepInput) (n : Nat) (s : State) (a : Nat) :
    (s.withInputs queue).freeBytes a n = (s.freeBytes a n).withInputs queue := by
  induction n generalizing s a with
  | zero => rfl
  | succ n ih =>
    exact ih (s.setMem (Memory.write s.cfg s.mem a (Config.freeMem s.draws a))) (a + 1)

theorem State.drawRows_withInputs (queue : List StepInput) (x y : Reg) (rows : List Byte)
    (s : State) (i : Nat) :
    (s.withInputs queue).drawRows x y i rows = (s.drawRows x y i rows).withInputs queue := by
  induction rows generalizing s i with
  | nil => rfl
  | cons row rest ih => exact ih (s.drawRow x y i row) (i + 1)

/-! ### Instructions that do not see the samples -/

/-- From `s`, and from `s` with any other samples, the instruction's effect is the same. -/
def IgnoresSamples (i : Instr) (s : State) : Prop :=
  ∃ t, exec i s = .next t ∧
    ∀ queue, exec i (s.withInputs queue) = .next (t.withInputs queue)

theorem call_ignoresSamples (nnn : Addr12) (s : State) : IgnoresSamples (.call nnn) s := by
  by_cases h : s.sp.val = 16
  · exact ⟨_, exec_call_fault s nnn h, fun q => exec_call_fault (s.withInputs q) nnn h⟩
  · have room : s.sp.val < 16 := by have := s.sp.isLt; omega
    exact ⟨_, exec_call_ok s nnn room, fun q => exec_call_ok (s.withInputs q) nnn room⟩

theorem ret_ignoresSamples (bc : Byte) (s : State) : IgnoresSamples (.ret bc) s := by
  by_cases h : s.sp.val = 0
  · exact ⟨_, exec_ret_fault s bc h, fun q => exec_ret_fault (s.withInputs q) bc h⟩
  · have held : 0 < s.sp.val := by omega
    exact ⟨_, exec_ret_ok s bc held, fun q => exec_ret_ok (s.withInputs q) bc held⟩

theorem shr_ignoresSamples (x y : Reg) (s : State) : IgnoresSamples (.shr x y) s := by
  refine ⟨_, rfl, fun q => ?_⟩
  have source : (s.withInputs q).cfg = s.cfg := rfl
  cases h : s.cfg.shiftSource with
  | vx => simp only [exec, execShr, source, h]; rfl
  | vy => simp only [exec, execShr, source, h]; rfl

theorem shl_ignoresSamples (x y : Reg) (s : State) : IgnoresSamples (.shl x y) s := by
  refine ⟨_, rfl, fun q => ?_⟩
  have source : (s.withInputs q).cfg = s.cfg := rfl
  cases h : s.cfg.shiftSource with
  | vx => simp only [exec, execShl, source, h]; rfl
  | vy => simp only [exec, execShl, source, h]; rfl

theorem ldBcd_ignoresSamples (x : Reg) (s : State) : IgnoresSamples (.ldBcd x) s := by
  by_cases h : s.i.toNat + 2 < 4096
  · exact ⟨_, exec_ldBcd_ok s x h, fun q => exec_ldBcd_ok (s.withInputs q) x h⟩
  · have out : 4096 ≤ s.i.toNat + 2 := by omega
    refine ⟨_, exec_ldBcd_fault s x out, fun q => ?_⟩
    rw [exec_ldBcd_fault (s.withInputs q) x out, State.withInputs_i,
      State.freeBytes_withInputs, State.raise_withInputs]

theorem storeRegs_ignoresSamples (x : Reg) (s : State) : IgnoresSamples (.storeRegs x) s := by
  by_cases h : s.i.toNat + x.val < 4096
  · exact ⟨_, exec_storeRegs_ok s x h, fun q => exec_storeRegs_ok (s.withInputs q) x h⟩
  · have out : 4096 ≤ s.i.toNat + x.val := by omega
    refine ⟨_, exec_storeRegs_fault s x out, fun q => ?_⟩
    rw [exec_storeRegs_fault (s.withInputs q) x out, State.withInputs_i,
      State.freeBytes_withInputs, State.raise_withInputs]

theorem loadRegs_ignoresSamples (x : Reg) (s : State) : IgnoresSamples (.loadRegs x) s := by
  by_cases h : s.i.toNat + x.val < 4096
  · refine ⟨_, exec_loadRegs_ok s x h, fun q => ?_⟩
    rw [exec_loadRegs_ok (s.withInputs q) x h, State.setVs_withInputs]
    rfl
  · have out : 4096 ≤ s.i.toNat + x.val := by omega
    refine ⟨_, exec_loadRegs_fault s x out, fun q => ?_⟩
    rw [exec_loadRegs_fault (s.withInputs q) x out, State.withInputs_i,
      State.freeRegs_withInputs, State.raise_withInputs]

theorem drw_ignoresSamples (x y : Reg) (n : Nibble) (s : State) :
    IgnoresSamples (.drw x y n) s := by
  by_cases h : n = 0#4 ∨ s.i.toNat + n.toNat - 1 < 4096
  · refine ⟨_, exec_drw_ok s x y n h, fun q => ?_⟩
    rw [exec_drw_ok (s.withInputs q) x y n h, State.setV_withInputs, State.drawRows_withInputs]
    rfl
  · obtain ⟨hn, out⟩ := not_or.mp h
    rw [Nat.not_lt] at out
    refine ⟨_, exec_drw_fault s x y n hn out, fun q => ?_⟩
    rw [exec_drw_fault (s.withInputs q) x y n hn out, State.setV_withInputs,
      State.readableRows_withInputs, State.drawRows_withInputs, State.freeDraw_withInputs,
      State.raise_withInputs, State.withInputs_i]

theorem ignoresSamples_of_not_input (i : Instr) (s : State) (hrnd : ∀ x nn, i ≠ .rnd x nn)
    (hskp : ∀ x d, i ≠ .skp x d) (hsknp : ∀ x d, i ≠ .sknp x d)
    (hkey : ∀ x, i ≠ .ldRegKey x) : IgnoresSamples i s := by
  cases i with
  | rnd x nn => exact absurd rfl (hrnd x nn)
  | skp x d => exact absurd rfl (hskp x d)
  | sknp x d => exact absurd rfl (hsknp x d)
  | ldRegKey x => exact absurd rfl (hkey x)
  | call nnn => exact call_ignoresSamples nnn s
  | ret bc => exact ret_ignoresSamples bc s
  | shr x y => exact shr_ignoresSamples x y s
  | shl x y => exact shl_ignoresSamples x y s
  | ldBcd x => exact ldBcd_ignoresSamples x s
  | storeRegs x => exact storeRegs_ignoresSamples x s
  | loadRegs x => exact loadRegs_ignoresSamples x s
  | drw x y n => exact drw_ignoresSamples x y n s
  | cls bc => exact ⟨_, rfl, fun q => congrArg _ (s.setFb_withInputs q Framebuffer.clear)⟩
  | _ => exact ⟨_, rfl, fun _ => rfl⟩

/-- Settles O52, by `ignoresSamples_of_not_input`: an instruction that can fault, loops or depends on SHIFT_SOURCE is compared in each of its closed forms, and every other one never looks at the queue. -/
theorem onlyInputInstructionsReadTheSample : Obligations.OnlyInputInstructionsReadTheSample := by
  intro i s t queue hrnd hskp hsknp hkey ht
  obtain ⟨t', ht', same⟩ := ignoresSamples_of_not_input i s hrnd hskp hsknp hkey
  obtain rfl : t' = t := Host.Outcome.next.inj (ht'.symm.trans ht)
  exact same queue

end Sys2Proof.Machine
end

section
/-! PROOFS. One Step, whatever it fetches (spec/40_cycle.md R120): what the end of a cycle keeps, and the two ways a cycle can go. -/

namespace Sys2Proof.Machine

section
variable (s : State)

/-! ### The end of a cycle -/

/-- A cycle ends with its sample used, after a tick where it did not fault. -/
theorem State.endCycle_cases :
    (s.run.isFaulted = true ∧ s.endCycle = s.useSample) ∨
    (s.run.isFaulted = false ∧ s.endCycle = s.complete.useSample) := by
  cases h : s.run with
  | faulted r => exact .inl ⟨rfl, s.endCycle_of_faulted h⟩
  | _ => exact .inr ⟨rfl, s.endCycle_of_not_faulted fun r hr => by rw [h] at hr; cases hr⟩

/-- The end of a cycle writes DT, ST and RUN and uses the sample; nothing else. -/
theorem State.endCycle_eq :
    s.endCycle =
      { s with
        dt := s.endCycle.dt, st := s.endCycle.st, run := s.endCycle.run
        inputs := s.inputs.tail, draws := s.draws + 1 } := by
  rcases s.endCycle_cases with ⟨_, e⟩ | ⟨_, e⟩ <;> rw [e] <;> rfl

@[simp] theorem State.endCycle_i : s.endCycle.i = s.i := by rw [s.endCycle_eq]
@[simp] theorem State.endCycle_pc : s.endCycle.pc = s.pc := by rw [s.endCycle_eq]
@[simp] theorem State.endCycle_stack : s.endCycle.stack = s.stack := by rw [s.endCycle_eq]
@[simp] theorem State.endCycle_sp : s.endCycle.sp = s.sp := by rw [s.endCycle_eq]
@[simp] theorem State.endCycle_fb : s.endCycle.fb = s.fb := by rw [s.endCycle_eq]
@[simp] theorem State.endCycle_mem : s.endCycle.mem = s.mem := by rw [s.endCycle_eq]
@[simp] theorem State.endCycle_present : s.endCycle.present = s.present := by rw [s.endCycle_eq]
@[simp] theorem State.endCycle_cfg : s.endCycle.cfg = s.cfg := by rw [s.endCycle_eq]
@[simp] theorem State.getV_endCycle (r : Reg) : s.endCycle.getV r = s.getV r := by
  rw [s.endCycle_eq]
  rfl
@[simp] theorem State.readByte_endCycle (a : Nat) : s.endCycle.readByte a = s.readByte a := by
  rw [s.endCycle_eq]
  rfl

/-- The end of a cycle raises no fault and clears none. -/
@[simp] theorem State.isFaulted_run_endCycle : s.endCycle.run.isFaulted = s.run.isFaulted := by
  rcases s.endCycle_cases with ⟨h, e⟩ | ⟨h, e⟩
  · rw [e, State.useSample_run]
  · rw [e, h]
    rfl

/-- A cycle ends in RUNNING or in FAULTED (10_state.md R40). -/
theorem State.run_endCycle : s.endCycle.run = .running ∨ ∃ r, s.endCycle.run = .faulted r := by
  cases h : s.run with
  | faulted r => exact .inr ⟨r, by rw [s.endCycle_of_faulted h, State.useSample_run, h]⟩
  | _ =>
    left
    rw [s.endCycle_of_not_faulted fun r hr => by rw [h] at hr; cases hr]
    rfl

/-! ### The cycle -/

/-- A fetch that fails raises its fault, with no opcode in the record (R121). -/
theorem cycle_of_fetch_error {f : Fault} (h : s.fetch s.pc.toNat = .error f) :
    cycle s = .next (s.raiseAt s.pc none f).endCycle := by
  simp only [cycle, h]

/-- A fetched word outside the opcode map raises InvalidOpcode (R123). -/
theorem cycle_of_decode_error {op : Word} {e : DecodeError} (h : s.fetch s.pc.toNat = .ok op)
    (hd : decodeWord op = .error e) :
    cycle s = .next (s.raiseAt s.pc (some op) .invalidOpcode).endCycle := by
  simp only [cycle, h, hd]

/-- A fetched word of the opcode map has its effect on the advanced state (R122, R124). -/
theorem cycle_of_exec {op : Word} {i : Instr} {t : State} (h : s.fetch s.pc.toNat = .ok op)
    (hd : decodeWord op = .ok i) (ht : exec i s.advance = .next t) :
    cycle s = .next t.endCycle := by
  simp only [cycle, h, hd, ht]

/-- A fetch that succeeds lies inside memory. -/
theorem State.pc_of_fetch_ok {op : Word} (h : s.fetch s.pc.toNat = .ok op) :
    s.pc.toNat + 1 < memSize := by
  by_contra out
  rw [s.fetch_error _ (Nat.le_of_not_lt out)] at h
  cases h

/-- Every cycle raises a fault of its own before any effect, or is the effect of an instruction fetched inside memory; then it ends. -/
theorem cycle_cases :
    ∃ t, cycle s = .next t.endCycle ∧
      ((∃ op f, t = s.raiseAt s.pc op f) ∨
        ∃ i, s.pc.toNat + 1 < memSize ∧ exec i s.advance = .next t) := by
  cases h : s.fetch s.pc.toNat with
  | error f => exact ⟨_, cycle_of_fetch_error s h, .inl ⟨_, _, rfl⟩⟩
  | ok op =>
    cases hd : decodeWord op with
    | error e => exact ⟨_, cycle_of_decode_error s h hd, .inl ⟨_, _, rfl⟩⟩
    | ok i =>
      obtain ⟨t, ht⟩ := exec_total s.advance i
      exact ⟨t, cycle_of_exec s h hd ht, .inr ⟨i, s.pc_of_fetch_ok h, ht⟩⟩

theorem step_of_ready (h : s.run = .ready) : step s = .refused .stepBeforeLoad := by
  simp only [step, h]

theorem step_of_faulted {r : FaultRecord} (h : s.run = .faulted r) :
    step s = .refused .stepAfterFault := by
  simp only [step, h]

/-- A Step that answers a next state was accepted, and is a cycle. -/
theorem cycle_of_step {s u : State} (h : step s = .next u) : cycle s = .next u := by
  cases hr : s.run with
  | ready => rw [step_of_ready s hr] at h; cases h
  | faulted r => rw [step_of_faulted s hr] at h; cases h
  | loaded => rwa [step_of_accepts s (.inl hr)] at h
  | running => rwa [step_of_accepts s (.inr hr)] at h

end

/-- Settles O46: an accepted Step is a cycle (`cycle_cases`), which ends in RUNNING or FAULTED (`State.run_endCycle`). -/
theorem stepIsRefusedOrRunsOneCycle : Obligations.StepIsRefusedOrRunsOneCycle := by
  refine ⟨fun s accepted => ?_, step_of_ready, fun s _ => step_of_faulted s⟩
  obtain ⟨t, ht, _⟩ := cycle_cases s
  exact ⟨t.endCycle, (step_of_accepts s accepted).trans ht, t.run_endCycle⟩

end Sys2Proof.Machine
end

section
/-! PROOFS. Stack entries at or above the depth (10_state.md R31, 92 D26): no operation but push and pop sees the stack, and these two only see its live entries. -/

namespace Sys2Proof.Machine

/-- The state with other stack entries, at the same depth. -/
def State.withStack (s : State) (stack : Vector Word 16) : State := { s with stack := stack }

/-! ### Operations that do not see the stack -/

section
variable (s : State) (stack : Vector Word 16)

theorem State.withStack_i : (s.withStack stack).i = s.i := rfl

theorem State.setFb_withStack (fb : Framebuffer) :
    (s.withStack stack).setFb fb = (s.setFb fb).withStack stack := rfl

theorem State.setV_withStack (r : Reg) (b : Byte) :
    (s.withStack stack).setV r b = (s.setV r b).withStack stack := rfl

theorem State.raise_withStack (i : Instr) (f : Fault) :
    (s.withStack stack).raise i f = (s.raise i f).withStack stack := rfl

theorem State.freeRegs_withStack (n : Nat) :
    (s.withStack stack).freeRegs n = (s.freeRegs n).withStack stack := by
  unfold State.freeRegs
  rfl

theorem State.readableRows_withStack (n : Nat) :
    (s.withStack stack).readableRows n = s.readableRows n := by
  rw [State.readableRows_eq, State.readableRows_eq]
  rfl

theorem State.freeDraw_withStack (drawn : State) :
    (s.withStack stack).freeDraw (drawn.withStack stack) = (s.freeDraw drawn).withStack stack := by
  unfold State.freeDraw
  rw [← State.setV_withStack, ← State.setFb_withStack]
  rfl

theorem State.endCycle_withStack :
    (s.withStack stack).endCycle = s.endCycle.withStack stack := by
  unfold State.endCycle
  rw [show (s.withStack stack).run = s.run from rfl]
  cases s.run <;> rfl

end

theorem State.setVs_withStack (stack : Vector Word 16) (bs : List Byte) (s : State) (k : Nat) :
    (s.withStack stack).setVs k bs = (s.setVs k bs).withStack stack := by
  induction bs generalizing s k with
  | nil => rfl
  | cons b rest ih =>
    unfold State.setVs
    split
    · rename_i hk
      exact ih (s.setV ⟨k, hk⟩ b) (k + 1)
    · rfl

theorem State.freeBytes_withStack (stack : Vector Word 16) (n : Nat) (s : State) (a : Nat) :
    (s.withStack stack).freeBytes a n = (s.freeBytes a n).withStack stack := by
  induction n generalizing s a with
  | zero => rfl
  | succ n ih =>
    exact ih (s.setMem (Memory.write s.cfg s.mem a (Config.freeMem s.draws a))) (a + 1)

theorem State.drawRows_withStack (stack : Vector Word 16) (x y : Reg) (rows : List Byte)
    (s : State) (i : Nat) :
    (s.withStack stack).drawRows x y i rows = (s.drawRows x y i rows).withStack stack := by
  induction rows generalizing s i with
  | nil => rfl
  | cons row rest ih => exact ih (s.drawRow x y i row) (i + 1)

/-! ### Instructions that do not see the stack -/

/-- From `s`, and from `s` with any other stack entries, the instruction's effect is the same. -/
def IgnoresStack (i : Instr) (s : State) : Prop :=
  ∃ t, exec i s = .next t ∧ ∀ stack, exec i (s.withStack stack) = .next (t.withStack stack)

theorem shr_ignoresStack (x y : Reg) (s : State) : IgnoresStack (.shr x y) s := by
  refine ⟨_, rfl, fun stack => ?_⟩
  have source : (s.withStack stack).cfg = s.cfg := rfl
  cases h : s.cfg.shiftSource <;> simp only [exec, execShr, source, h] <;> rfl

theorem shl_ignoresStack (x y : Reg) (s : State) : IgnoresStack (.shl x y) s := by
  refine ⟨_, rfl, fun stack => ?_⟩
  have source : (s.withStack stack).cfg = s.cfg := rfl
  cases h : s.cfg.shiftSource <;> simp only [exec, execShl, source, h] <;> rfl

theorem ldRegKey_ignoresStack (x : Reg) (s : State) : IgnoresStack (.ldRegKey x) s := by
  refine ⟨_, rfl, fun stack => ?_⟩
  have pressed : (s.withStack stack).firstPressed = s.firstPressed := rfl
  cases h : s.firstPressed <;> simp only [exec, execLdRegKey, pressed, h] <;> rfl

theorem skp_ignoresStack (x : Reg) (d : Nibble) (s : State) : IgnoresStack (.skp x d) s := by
  by_cases h : (s.getV x).toNat ≤ 0xF
  · exact ⟨_, exec_skp_ok s x d h, fun stack => exec_skp_ok (s.withStack stack) x d h⟩
  · have out : 0xF < (s.getV x).toNat := by omega
    exact ⟨_, exec_skp_fault s x d out, fun stack => exec_skp_fault (s.withStack stack) x d out⟩

theorem sknp_ignoresStack (x : Reg) (d : Nibble) (s : State) : IgnoresStack (.sknp x d) s := by
  by_cases h : (s.getV x).toNat ≤ 0xF
  · exact ⟨_, exec_sknp_ok s x d h, fun stack => exec_sknp_ok (s.withStack stack) x d h⟩
  · have out : 0xF < (s.getV x).toNat := by omega
    exact ⟨_, exec_sknp_fault s x d out, fun stack => exec_sknp_fault (s.withStack stack) x d out⟩

theorem ldBcd_ignoresStack (x : Reg) (s : State) : IgnoresStack (.ldBcd x) s := by
  by_cases h : s.i.toNat + 2 < 4096
  · exact ⟨_, exec_ldBcd_ok s x h, fun stack => exec_ldBcd_ok (s.withStack stack) x h⟩
  · have out : 4096 ≤ s.i.toNat + 2 := by omega
    refine ⟨_, exec_ldBcd_fault s x out, fun stack => ?_⟩
    rw [exec_ldBcd_fault (s.withStack stack) x out, State.withStack_i,
      State.freeBytes_withStack, State.raise_withStack]

theorem storeRegs_ignoresStack (x : Reg) (s : State) : IgnoresStack (.storeRegs x) s := by
  by_cases h : s.i.toNat + x.val < 4096
  · exact ⟨_, exec_storeRegs_ok s x h, fun stack => exec_storeRegs_ok (s.withStack stack) x h⟩
  · have out : 4096 ≤ s.i.toNat + x.val := by omega
    refine ⟨_, exec_storeRegs_fault s x out, fun stack => ?_⟩
    rw [exec_storeRegs_fault (s.withStack stack) x out, State.withStack_i,
      State.freeBytes_withStack, State.raise_withStack]

theorem loadRegs_ignoresStack (x : Reg) (s : State) : IgnoresStack (.loadRegs x) s := by
  by_cases h : s.i.toNat + x.val < 4096
  · refine ⟨_, exec_loadRegs_ok s x h, fun stack => ?_⟩
    rw [exec_loadRegs_ok (s.withStack stack) x h, State.setVs_withStack]
    rfl
  · have out : 4096 ≤ s.i.toNat + x.val := by omega
    refine ⟨_, exec_loadRegs_fault s x out, fun stack => ?_⟩
    rw [exec_loadRegs_fault (s.withStack stack) x out, State.withStack_i,
      State.freeRegs_withStack, State.raise_withStack]

theorem drw_ignoresStack (x y : Reg) (n : Nibble) (s : State) : IgnoresStack (.drw x y n) s := by
  by_cases h : n = 0#4 ∨ s.i.toNat + n.toNat - 1 < 4096
  · refine ⟨_, exec_drw_ok s x y n h, fun stack => ?_⟩
    rw [exec_drw_ok (s.withStack stack) x y n h, State.setV_withStack, State.drawRows_withStack]
    rfl
  · obtain ⟨hn, out⟩ := not_or.mp h
    rw [Nat.not_lt] at out
    refine ⟨_, exec_drw_fault s x y n hn out, fun stack => ?_⟩
    rw [exec_drw_fault (s.withStack stack) x y n hn out, State.setV_withStack,
      State.readableRows_withStack, State.drawRows_withStack, State.freeDraw_withStack,
      State.raise_withStack, State.withStack_i]

theorem ignoresStack_of_not_stack (i : Instr) (s : State) (hcall : ∀ a, i ≠ .call a)
    (hret : ∀ b, i ≠ .ret b) : IgnoresStack i s := by
  cases i with
  | call nnn => exact absurd rfl (hcall nnn)
  | ret bc => exact absurd rfl (hret bc)
  | shr x y => exact shr_ignoresStack x y s
  | shl x y => exact shl_ignoresStack x y s
  | ldRegKey x => exact ldRegKey_ignoresStack x s
  | skp x d => exact skp_ignoresStack x d s
  | sknp x d => exact sknp_ignoresStack x d s
  | ldBcd x => exact ldBcd_ignoresStack x s
  | storeRegs x => exact storeRegs_ignoresStack x s
  | loadRegs x => exact loadRegs_ignoresStack x s
  | drw x y n => exact drw_ignoresStack x y n s
  | cls bc => exact ⟨_, rfl, fun stack => congrArg _ (s.setFb_withStack stack Framebuffer.clear)⟩
  | _ => exact ⟨_, rfl, fun _ => rfl⟩

/-! ### States with the same live entries -/

/-- The entries of `stack` below the depth of `s` are those of `s`. -/
def State.LiveAgree (s : State) (stack : Vector Word 16) : Prop :=
  ∀ k : Fin 16, k.val < s.sp.val → stack[k] = s.stack[k]

theorem sameLiveState_iff {s s' : State} :
    SameLiveState s s' ↔ ∃ stack, s.LiveAgree stack ∧ s' = s.withStack stack := by
  constructor
  · rintro ⟨e, live⟩
    exact ⟨s'.stack, live, e⟩
  · rintro ⟨stack, live, rfl⟩
    exact ⟨rfl, live⟩

/-- Each of two states with the same live entries answers a next state, and these have the same live entries. -/
def KeepsLive (f : State → Host.Outcome State Fault Refusal) (s : State) : Prop :=
  ∃ t, f s = .next t ∧ ∀ stack, s.LiveAgree stack →
    ∃ t', f (s.withStack stack) = .next t' ∧ SameLiveState t t'

/-- A pushed value is a live entry of both stacks; below it they agree as before. -/
theorem call_keepsLive (nnn : Addr12) (s : State) : KeepsLive (exec (.call nnn)) s := by
  by_cases h : s.sp.val = 16
  · exact ⟨_, exec_call_fault s nnn h, fun stack live =>
      ⟨_, exec_call_fault (s.withStack stack) nnn h, rfl, live⟩⟩
  · have room : s.sp.val < 16 := by have := s.sp.isLt; omega
    refine ⟨_, exec_call_ok s nnn room, fun stack live =>
      ⟨_, exec_call_ok (s.withStack stack) nnn room, rfl, fun k hk => ?_⟩⟩
    change k.val < s.sp.val + 1 at hk
    change (stack.set s.sp.val s.pc)[k.val] = (s.stack.set s.sp.val s.pc)[k.val]
    rw [Vector.getElem_set, Vector.getElem_set]
    split
    · rfl
    · exact live k (by omega)

/-- The value a pop reads is live, so it is the same in both stacks. -/
theorem ret_keepsLive (bc : Byte) (s : State) : KeepsLive (exec (.ret bc)) s := by
  by_cases h : s.sp.val = 0
  · exact ⟨_, exec_ret_fault s bc h, fun stack live =>
      ⟨_, exec_ret_fault (s.withStack stack) bc h, rfl, live⟩⟩
  · have held : 0 < s.sp.val := by omega
    refine ⟨_, exec_ret_ok s bc held, fun stack live =>
      ⟨_, exec_ret_ok (s.withStack stack) bc held, ?_, fun k hk => live k ?_⟩⟩
    · have top := live ⟨s.sp.val - 1, by have := s.sp.isLt; omega⟩ (by simp only; omega)
      exact congrArg (State.setPc _) top
    · exact Nat.lt_of_lt_of_le hk (Nat.sub_le _ _)

theorem exec_keepsLive (i : Instr) (s : State) : KeepsLive (exec i) s := by
  by_cases hcall : ∃ a, i = .call a
  · obtain ⟨nnn, rfl⟩ := hcall
    exact call_keepsLive nnn s
  by_cases hret : ∃ b, i = .ret b
  · obtain ⟨bc, rfl⟩ := hret
    exact ret_keepsLive bc s
  rw [not_exists] at hcall hret
  obtain ⟨t, ht, same⟩ := ignoresStack_of_not_stack i s hcall hret
  obtain ⟨_, ht', effect⟩ := exec_effect i s
  obtain rfl := Host.Outcome.next.inj (ht.symm.trans ht')
  obtain ⟨hstack, hsp⟩ := effect.stack hcall hret
  refine ⟨t, ht, fun stack live => ⟨_, same stack, rfl, fun k hk => ?_⟩⟩
  rw [hsp] at hk
  rw [hstack]
  exact live k hk

/-- The end of a cycle does not see the stack. -/
theorem SameLiveState.endCycle {t t' : State} (h : SameLiveState t t') :
    SameLiveState t.endCycle t'.endCycle := by
  obtain ⟨stack, live, rfl⟩ := sameLiveState_iff.1 h
  rw [State.endCycle_withStack]
  refine ⟨rfl, fun k hk => ?_⟩
  rw [State.endCycle_sp] at hk
  rw [State.endCycle_stack]
  exact live k hk

/-- Fetch and decode do not see the stack, so both cycles take the same way. -/
theorem cycle_keepsLive (s : State) : KeepsLive cycle s := by
  cases hf : s.fetch s.pc.toNat with
  | error f =>
    exact ⟨_, cycle_of_fetch_error s hf, fun stack live =>
      ⟨_, cycle_of_fetch_error (s.withStack stack) hf, SameLiveState.endCycle ⟨rfl, live⟩⟩⟩
  | ok op =>
    cases hd : decodeWord op with
    | error e =>
      exact ⟨_, cycle_of_decode_error s hf hd, fun stack live =>
        ⟨_, cycle_of_decode_error (s.withStack stack) hf hd, SameLiveState.endCycle ⟨rfl, live⟩⟩⟩
    | ok i =>
      obtain ⟨t, ht, same⟩ := exec_keepsLive i s.advance
      refine ⟨_, cycle_of_exec s hf hd ht, fun stack live => ?_⟩
      obtain ⟨t', ht', hlive⟩ := same stack live
      exact ⟨_, cycle_of_exec (s.withStack stack) hf hd ht', hlive.endCycle⟩

/-- Settles O51: the states are in the same RUN, so both Steps are refused alike or both are cycles, and a cycle keeps the live state (`cycle_keepsLive`). -/
theorem deadStackEntriesAreInvisible : Obligations.DeadStackEntriesAreInvisible := by
  intro s s' h
  obtain ⟨stack, live, rfl⟩ := sameLiveState_iff.1 h
  obtain ⟨t, ht, same⟩ := cycle_keepsLive s
  obtain ⟨t', ht', hlive⟩ := same stack live
  by_cases accepted : s.run = .loaded ∨ s.run = .running
  · rw [step_of_accepts s accepted, step_of_accepts (s.withStack stack) accepted, ht, ht']
    exact ⟨fun u hu => ⟨t', rfl, Host.Outcome.next.inj hu ▸ hlive⟩, nofun⟩
  · cases hr : s.run with
    | ready =>
      rw [step_of_ready s hr, step_of_ready (s.withStack stack) hr]
      exact ⟨nofun, fun _ e => e⟩
    | faulted r =>
      rw [step_of_faulted s hr, step_of_faulted (s.withStack stack) hr]
      exact ⟨nofun, fun _ e => e⟩
    | loaded => exact absurd (.inl hr) accepted
    | running => exact absurd (.inr hr) accepted

end Sys2Proof.Machine
end

section
/-! PROOFS. The machine's invariant (10_state.md R28, 20_memory.md R62), part by part: canonical memory, live stack entries, and the PC's range. -/

namespace Sys2Proof.Machine

/-- The live entries of the stack are values the PC can hold after an advance: the second part of `State.Inv`. -/
def State.LiveBounded (s : State) : Prop :=
  ∀ k : Fin 16, k.val < s.sp.val → s.stack[k].toNat ≤ 0x1000

theorem State.inv_iff (s : State) :
    s.Inv ↔ Memory.wf s.cfg s.mem = true ∧ s.LiveBounded ∧
      (s.run.isFaulted = false → s.pc.toNat ≤ 0x10FE) := Iff.rfl

/-! ### Memory -/

/-- The free bytes of a faulting store at I keep MEM canonical; beyond memory there are none. -/
theorem State.wf_freeBytes_inRange (s : State) (n : Nat) (h : Memory.wf s.cfg s.mem = true) :
    Memory.wf s.cfg (s.freeBytes s.i.toNat (inRange s.i.toNat n)).mem = true := by
  by_cases hi : s.i.toNat < memSize
  · exact s.freeBytes_wf _ _ (inRange_le _ n hi) h
  · have none : inRange s.i.toNat n = 0 := by
      unfold inRange
      omega
    rw [none]
    exact h

theorem ldBcd_keeps_wf (x : Reg) {s t : State} (h : Memory.wf s.cfg s.mem = true)
    (ht : exec (.ldBcd x) s = .next t) : Memory.wf s.cfg t.mem = true := by
  by_cases room : s.i.toNat + 2 < 4096
  · rw [exec_ldBcd_ok s x room] at ht
    obtain rfl := Host.Outcome.next.inj ht
    exact Memory.wf_writeAll _ _ h (by simp only [length_bcdDigits, memSize]; omega)
  · rw [exec_ldBcd_fault s x (Nat.not_lt.mp room)] at ht
    obtain rfl := Host.Outcome.next.inj ht
    exact s.wf_freeBytes_inRange 3 h

theorem storeRegs_keeps_wf (x : Reg) {s t : State} (h : Memory.wf s.cfg s.mem = true)
    (ht : exec (.storeRegs x) s = .next t) : Memory.wf s.cfg t.mem = true := by
  by_cases room : s.i.toNat + x.val < 4096
  · rw [exec_storeRegs_ok s x room] at ht
    obtain rfl := Host.Outcome.next.inj ht
    exact Memory.wf_writeAll _ _ h (by simp only [State.length_getVs, memSize]; omega)
  · rw [exec_storeRegs_fault s x (Nat.not_lt.mp room)] at ht
    obtain rfl := Host.Outcome.next.inj ht
    exact s.wf_freeBytes_inRange (x.val + 1) h

/-! ### An effect, and what it keeps of memory -/

theorem Effect.ownFault_eq_none {i : Instr} {s t : State} (effect : Effect i s t)
    (running : t.run.isFaulted = false) : s.ownFault i = none := by
  cases hf : s.ownFault i with
  | none => rfl
  | some f =>
    rw [effect.run_fault f hf] at running
    cases running

/-- The effect an instruction has is the one its lemma describes. -/
theorem effect_of_exec {i : Instr} {s t : State} (ht : exec i s = .next t) : Effect i s t := by
  obtain ⟨t', ht', effect⟩ := exec_effect i s
  obtain rfl := Host.Outcome.next.inj (ht.symm.trans ht')
  exact effect

/-- MEM is written by FX33 and FX55 alone, and these keep it canonical. -/
theorem wf_of_exec {i : Instr} {s t : State} (h : Memory.wf s.cfg s.mem = true)
    (ht : exec i s = .next t) : Memory.wf t.cfg t.mem = true := by
  have effect := effect_of_exec ht
  rw [effect.cfg]
  by_cases hbcd : ∃ x, i = .ldBcd x
  · obtain ⟨x, rfl⟩ := hbcd
    exact ldBcd_keeps_wf x h ht
  by_cases hstore : ∃ x, i = .storeRegs x
  · obtain ⟨x, rfl⟩ := hstore
    exact storeRegs_keeps_wf x h ht
  rw [not_exists] at hbcd hstore
  rw [effect.mem hbcd hstore]
  exact h

/-! ### The stack -/

/-- A call pushes the PC; the entries below it stay. -/
theorem call_keeps_liveBounded (nnn : Addr12) {s t : State} (h : s.LiveBounded)
    (hpc : s.pc.toNat ≤ 0x1000) (ht : exec (.call nnn) s = .next t) : t.LiveBounded := by
  by_cases full : s.sp.val = 16
  · rw [exec_call_fault s nnn full] at ht
    obtain rfl := Host.Outcome.next.inj ht
    exact h
  · rw [exec_call_ok s nnn (by have := s.sp.isLt; omega)] at ht
    obtain rfl := Host.Outcome.next.inj ht
    intro k (hk : k.val < s.sp.val + 1)
    change (s.stack.set s.sp.val s.pc)[k.val].toNat ≤ 0x1000
    rw [Vector.getElem_set]
    split
    · exact hpc
    · exact h k (by omega)

/-- A return leaves one live entry less. -/
theorem ret_keeps_liveBounded (bc : Byte) {s t : State} (h : s.LiveBounded)
    (ht : exec (.ret bc) s = .next t) : t.LiveBounded := by
  by_cases empty : s.sp.val = 0
  · rw [exec_ret_fault s bc empty] at ht
    obtain rfl := Host.Outcome.next.inj ht
    exact h
  · rw [exec_ret_ok s bc (Nat.pos_of_ne_zero empty)] at ht
    obtain rfl := Host.Outcome.next.inj ht
    exact fun k hk => h k (Nat.lt_of_lt_of_le hk (Nat.sub_le _ _))

theorem liveBounded_of_exec {i : Instr} {s t : State} (h : s.LiveBounded)
    (hpc : s.pc.toNat ≤ 0x1000) (ht : exec i s = .next t) : t.LiveBounded := by
  by_cases hcall : ∃ a, i = .call a
  · obtain ⟨nnn, rfl⟩ := hcall
    exact call_keeps_liveBounded nnn h hpc ht
  by_cases hret : ∃ b, i = .ret b
  · obtain ⟨bc, rfl⟩ := hret
    exact ret_keeps_liveBounded bc h ht
  rw [not_exists] at hcall hret
  obtain ⟨hstack, hsp⟩ := (effect_of_exec ht).stack hcall hret
  intro k hk
  rw [hsp] at hk
  rw [hstack]
  exact h k hk

/-! ### The PC -/

theorem toNat_zextAddr (nnn : Addr12) : (zextAddr nnn).toNat = nnn.toNat := by
  rw [zextAddr, BitVec.toNat_setWidth]
  have := nnn.isLt
  omega

theorem toNat_zextByte (b : Byte) : (zextByte b).toNat = b.toNat := by
  rw [zextByte, BitVec.toNat_setWidth]
  have := b.isLt
  omega

theorem zextAddr_le (nnn : Addr12) : (zextAddr nnn).toNat ≤ 0x10FE := by
  rw [toNat_zextAddr]
  have := nnn.isLt
  omega

/-- The sum of BNNN is at most 0xFF + 0xFFF (92 D6). -/
theorem zextByte_add_zextAddr_le (b : Byte) (nnn : Addr12) :
    (zextByte b + zextAddr nnn).toNat ≤ 0x10FE := by
  rw [BitVec.toNat_add, toNat_zextByte, toNat_zextAddr]
  have := b.isLt
  have := nnn.isLt
  omega

theorem State.skipIf_pc_le (s : State) (cond : Bool) (h : s.pc.toNat ≤ 0x1000) :
    (s.skipIf cond).pc.toNat ≤ 0x10FE := by
  rw [State.skipIf, State.setPc_pc]
  split
  · rw [BitVec.toNat_add, BitVec.toNat_ofNat]
    omega
  · omega

/-- An advanced PC moved back to its instruction lies below it. -/
theorem State.pc_sub_two_le (s : State) (hlo : 2 ≤ s.pc.toNat) (h : s.pc.toNat ≤ 0x1000) :
    (s.pc - 2#16).toNat ≤ 0x10FE := by
  rw [BitVec.toNat_sub, BitVec.toNat_ofNat]
  omega

/-- Every instruction that completes leaves the PC in the range of R28. -/
theorem pc_le_of_exec {i : Instr} {s t : State} (live : s.LiveBounded) (hlo : 2 ≤ s.pc.toNat)
    (hpc : s.pc.toNat ≤ 0x1000) (ht : exec i s = .next t) (running : t.run.isFaulted = false) :
    t.pc.toNat ≤ 0x10FE := by
  have effect := effect_of_exec ht
  have completes := effect.ownFault_eq_none running
  by_cases stays : movesPc i = false
  · rw [effect.pc stays completes]
    omega
  cases i with
  | jp nnn => obtain rfl := Host.Outcome.next.inj ht; exact zextAddr_le nnn
  | jpV0 nnn => obtain rfl := Host.Outcome.next.inj ht; exact zextByte_add_zextAddr_le _ nnn
  | seByte x nn => obtain rfl := Host.Outcome.next.inj ht; exact s.skipIf_pc_le _ hpc
  | sneByte x nn => obtain rfl := Host.Outcome.next.inj ht; exact s.skipIf_pc_le _ hpc
  | seReg x y => obtain rfl := Host.Outcome.next.inj ht; exact s.skipIf_pc_le _ hpc
  | sneReg x y => obtain rfl := Host.Outcome.next.inj ht; exact s.skipIf_pc_le _ hpc
  | call nnn =>
    have room : s.sp.val ≠ 16 := by simpa [State.ownFault] using completes
    rw [exec_call_ok s nnn (by have := s.sp.isLt; omega)] at ht
    obtain rfl := Host.Outcome.next.inj ht
    exact zextAddr_le nnn
  | ret bc =>
    have held : s.sp.val ≠ 0 := by simpa [State.ownFault] using completes
    rw [exec_ret_ok s bc (by omega)] at ht
    obtain rfl := Host.Outcome.next.inj ht
    have top := live ⟨s.sp.val - 1, by have := s.sp.isLt; omega⟩ (by simp only; omega)
    exact Nat.le_trans top (by decide)
  | skp x d =>
    have key : (s.getV x).toNat ≤ 0xF := by simpa [State.ownFault] using completes
    rw [exec_skp_ok s x d key] at ht
    obtain rfl := Host.Outcome.next.inj ht
    exact s.skipIf_pc_le _ hpc
  | sknp x d =>
    have key : (s.getV x).toNat ≤ 0xF := by simpa [State.ownFault] using completes
    rw [exec_sknp_ok s x d key] at ht
    obtain rfl := Host.Outcome.next.inj ht
    exact s.skipIf_pc_le _ hpc
  | ldRegKey x =>
    obtain rfl := Host.Outcome.next.inj ht
    cases s.firstPressed with
    | none => exact s.pc_sub_two_le hlo hpc
    | some k => exact Nat.le_trans hpc (by decide)
  | _ => exact absurd rfl stays

/-! ### The invariant -/

theorem State.toNat_pc_advance (s : State) (inside : s.pc.toNat + 1 < memSize) :
    s.advance.pc.toNat = s.pc.toNat + 2 := by
  unfold memSize at inside
  rw [State.advance_pc, BitVec.toNat_add, BitVec.toNat_ofNat]
  omega

/-- The effect of an instruction fetched inside memory keeps the invariant: its PC was advanced to at most 0x1000. -/
theorem inv_of_exec {i : Instr} {s t : State} (h : s.Inv) (inside : s.pc.toNat + 1 < memSize)
    (ht : exec i s.advance = .next t) : t.Inv := by
  obtain ⟨hmem, live, _⟩ := s.inv_iff.1 h
  have hpc := s.toNat_pc_advance inside
  unfold memSize at inside
  have live : s.advance.LiveBounded := live
  have below : s.advance.pc.toNat ≤ 0x1000 := by omega
  exact t.inv_iff.2 ⟨wf_of_exec (s := s.advance) hmem ht, liveBounded_of_exec live below ht,
    pc_le_of_exec live (by omega) below ht⟩

theorem State.inv_endCycle {t : State} (h : t.Inv) : t.endCycle.Inv := by
  obtain ⟨hmem, live, hpc⟩ := t.inv_iff.1 h
  refine t.endCycle.inv_iff.2 ⟨?_, fun k hk => ?_, ?_⟩
  · rwa [State.endCycle_cfg, State.endCycle_mem]
  · rw [State.endCycle_sp] at hk
    rw [State.endCycle_stack]
    exact live k hk
  · rwa [State.isFaulted_run_endCycle, State.endCycle_pc]

/-- Settles O53: a raise keeps memory and stack and leaves FAULTED, where the PC is free; an effect keeps each part (`inv_of_exec`); the end of the cycle touches none. -/
theorem invariantIsKeptByEveryStep : Obligations.InvariantIsKeptByEveryStep := by
  intro s u h hu
  obtain ⟨t, ht, way⟩ := cycle_cases s
  obtain rfl := Host.Outcome.next.inj (ht.symm.trans (cycle_of_step hu))
  apply State.inv_endCycle
  rcases way with ⟨op, f, rfl⟩ | ⟨i, inside, hexec⟩
  · obtain ⟨hmem, live, _⟩ := s.inv_iff.1 h
    exact ⟨hmem, live, nofun⟩
  · exact inv_of_exec h inside hexec

/-- Empty memory and an empty stack with the PC at 0x0200: what `State.reset` and `hostReset` share. -/
theorem State.inv_of_empty {s : State} (hmem : s.mem = []) (hsp : s.sp = 0)
    (hpc : s.pc = 0x0200#16) : s.Inv := by
  refine s.inv_iff.2 ⟨by rw [hmem]; rfl, fun k hk => ?_, fun _ => by rw [hpc]; decide⟩
  rw [hsp] at hk
  exact absurd hk (Nat.not_lt_zero _)

/-- Settles O54. -/
theorem invariantHoldsAtReset : Obligations.InvariantHoldsAtReset :=
  State.inv_of_empty rfl rfl rfl

/-- Outside READY a Load is refused (10_state.md R52, 92 D19). -/
theorem hostLoad_refused (s : State) (bytes : List Byte) (h : s.run ≠ .ready) :
    hostLoad bytes s = (.refused, s) := by
  cases hr : s.run with
  | ready => exact absurd hr h
  | _ => simp only [hostLoad, hr]

/-- A Load puts bytes below 4096 into MEM or leaves the state as it was. -/
theorem inv_hostLoad (bytes : List Byte) {s : State} (h : s.Inv) : (hostLoad bytes s).2.Inv := by
  by_cases ready : s.run = .ready
  · by_cases fits : bytes.length ≤ 3584
    · obtain ⟨hmem, live, hpc⟩ := s.inv_iff.1 h
      rw [hostLoad_ok s bytes ready fits]
      exact ⟨Memory.wf_writeAll _ _ hmem (by simp only [progBase, memSize]; omega), live,
        fun _ => hpc (by rw [ready]; rfl)⟩
    · rw [hostLoad_tooLong s bytes ready (Nat.lt_of_not_le fits)]
      exact h
  · rw [hostLoad_refused s bytes ready]
    exact h

/-- Settles O55: Reset leaves empty memory and an empty stack, Load is `inv_hostLoad`, and present_ack changes no part the invariant speaks of. -/
theorem hostOperationsKeepTheInvariant : Obligations.HostOperationsKeepTheInvariant := by
  refine fun s bytes =>
    ⟨fun h => ⟨State.inv_of_empty rfl rfl rfl, inv_hostLoad bytes h, h⟩, rfl, ?_, rfl, rfl, rfl⟩
  intro p hp
  cases p with
  | present => exact absurd (List.mem_singleton_self _) hp
  | stack => exact ⟨rfl, rfl⟩
  | v => exact fun _ => rfl
  | fb => exact fun _ _ => rfl
  | mem => exact fun _ => rfl
  | _ => rfl

end Sys2Proof.Machine
end

section
/-! PROOFS. Who writes what (10_state.md R22 to R43): the frame of a whole Step, read off the instruction's `Effect`. -/

namespace Sys2Proof.Machine

/-- A Step of `i` is the effect of `i` on the advanced state, then the end of the cycle. -/
theorem effect_of_step {s u : State} {i : Instr} (h : s.nextIs i) (hu : step s = .next u) :
    ∃ t, u = t.endCycle ∧ Effect i s.advance t := by
  obtain ⟨t, ht, effect⟩ := exec_effect i s.advance
  exact ⟨t, Host.Outcome.next.inj (hu.symm.trans (step_of_exec h ht)), effect⟩

/-- A completed cycle ticks both timers of the state its effect left. -/
theorem State.timers_endCycle {t : State} (h : t.endCycle.run = .running) :
    t.endCycle.dt = tick t.dt ∧ t.endCycle.st = tick t.st := by
  rcases t.endCycle_cases with ⟨faulted, e⟩ | ⟨_, e⟩
  · rw [e, State.useSample_run] at h
    rw [h] at faulted
    cases faulted
  · rw [e]
    exact ⟨rfl, rfl⟩

/-- A cycle that ends in RUNNING did not fault. -/
theorem State.not_faulted_of_endCycle_running {t : State} (h : t.endCycle.run = .running) :
    t.run.isFaulted = false := by
  rw [← State.isFaulted_run_endCycle, h]
  rfl

/-- Settles O49: each part is as the instruction's effect left it (`effect_of_step`), which says who writes it; the end of the cycle changes the timers and RUN alone. -/
theorem onlyTheNamedInstructionsWrite : Obligations.OnlyTheNamedInstructionsWrite := by
  intro s u i h hu
  obtain ⟨t, rfl, effect⟩ := effect_of_step h hu
  refine ⟨?_, fun r hr => ?_, fun h1 h2 h3 => ?_, fun h1 h2 => ?_, fun h1 h2 => ?_,
    fun h1 h2 => ?_, fun h1 => ?_, ?_, fun running => ?_⟩
  · rw [State.endCycle_cfg]
    exact effect.cfg
  · rw [State.getV_endCycle]
    exact effect.regs r hr
  · rw [Part.Kept, State.endCycle_i]
    exact effect.index h1 h2 h3
  · rw [Part.Kept, State.endCycle_stack, State.endCycle_sp]
    exact effect.stack h1 h2
  · intro y x
    rw [State.endCycle_fb, effect.fb h1 h2, State.advance_fb]
  · intro a
    rw [State.readByte_endCycle, State.readByte, effect.mem h1 h2, effect.cfg]
    rfl
  · rw [Part.Kept, State.endCycle_present]
    exact effect.present h1
  · rcases t.run_endCycle with e | ⟨r, e⟩
    · exact .inl e
    · exact .inr (by rw [e]; rfl)
  · have completes := effect.ownFault_eq_none (State.not_faulted_of_endCycle_running running)
    obtain ⟨hdt, hst⟩ := State.timers_endCycle running
    refine ⟨fun stays => ?_, fun h1 => ?_, fun h1 => ?_⟩
    · rw [State.endCycle_pc, effect.pc stays completes, State.advance_pc]
    · rw [hdt, tick_toNat, effect.dt h1 completes, State.advance_dt]
    · rw [hst, tick_toNat, effect.st h1 completes, State.advance_st]

/-- Settles O50: the register clause of the frame, at VF. -/
theorem onlyFlagWritersAndNamedDestinationsChangeVF :
    Obligations.OnlyFlagWritersAndNamedDestinationsChangeVF := by
  intro s u i h hu keeps
  obtain ⟨_, regs, _⟩ := onlyTheNamedInstructionsWrite s u i h hu
  exact regs VF keeps

end Sys2Proof.Machine
end

section
/-! PROOFS. The host's operations (10_state.md R51 to R54): a Step with its own sample, Reset, and Load. -/

namespace Sys2Proof.Machine

/-! ### A Step with the host's sample (R53) -/

/-- The advanced state in which the effect of a host Step runs: the host's sample is the first one waiting. -/
def State.offered (s : State) (inp : StepInput) : State :=
  (s.withInputs (inp :: s.inputs)).advance

section
variable {s : State} {inp : StepInput}

@[simp] theorem State.run_offered : (s.offered inp).run = s.run := rfl
@[simp] theorem State.inputs_offered : (s.offered inp).inputs = inp :: s.inputs := rfl
@[simp] theorem State.getV_offered (r : Reg) : (s.offered inp).getV r = s.getV r := rfl
@[simp] theorem State.sample_offered : (s.offered inp).sample = inp := rfl

theorem State.toNat_pc_offered (inside : s.pc.toNat + 1 < memSize) :
    (s.offered inp).pc.toNat = s.pc.toNat + 2 :=
  s.toNat_pc_advance inside

/-- A host Step whose effect raises nothing and leaves the samples alone: the response is OK, the host's sample is used up, and registers and PC are what the effect left. -/
theorem hostStep_of_effect {i : Instr} {t : State} (h : s.nextIs i)
    (ht : exec i (s.offered inp) = .next t) (hrun : t.run = s.run)
    (hinputs : t.inputs = inp :: s.inputs) :
    ∃ u, hostStep inp s = .next u ∧ u.response = .ok ∧ u.inputs = s.inputs ∧
      (∀ r, u.getV r = t.getV r) ∧ u.pc = t.pc := by
  have next : (s.withInputs (inp :: s.inputs)).nextIs i := h
  refine ⟨t.complete.useSample, step_of_effect next ht hrun, rfl, ?_, fun _ => rfl, rfl⟩
  rw [State.useSample_inputs, State.complete_inputs, hinputs, List.tail_cons]

/-- A skip from an instruction inside memory moves the PC on by 4 or by 2 (41_control_flow.md R140). -/
theorem State.toNat_pc_skipIf_offered (inside : s.pc.toNat + 1 < memSize) (cond : Bool) :
    ((s.offered inp).skipIf cond).pc.toNat = s.pc.toNat + if cond then 4 else 2 := by
  have hpc := State.toNat_pc_offered (inp := inp) inside
  unfold memSize at inside
  cases cond with
  | false => exact hpc
  | true =>
    simp only [State.skipIf, State.setPc_pc, if_true, BitVec.toNat_add, BitVec.toNat_ofNat, hpc]
    omega

theorem hostStep_rnd {x : Reg} {nn : Byte} (h : s.nextIs (.rnd x nn)) :
    ∃ u, hostStep inp s = .next u ∧ u.response = .ok ∧ u.inputs = s.inputs ∧
      u.getV x = inp.rand &&& nn := by
  obtain ⟨u, hu, ok, queue, regs, _⟩ := hostStep_of_effect (inp := inp) h rfl rfl rfl
  exact ⟨u, hu, ok, queue, (regs x).trans (State.getV_setV_same _ _ _)⟩

theorem hostStep_skp {x : Reg} {d : Nibble} (h : s.nextIs (.skp x d))
    (key : (s.getV x).toNat ≤ 0xF) :
    ∃ u, hostStep inp s = .next u ∧ u.response = .ok ∧ u.inputs = s.inputs ∧
      u.pc.toNat = s.pc.toNat + if inp.held.getLsbD (s.getV x).toNat then 4 else 2 := by
  have ⟨_, inside, _⟩ := h
  obtain ⟨u, hu, ok, queue, _, hpc⟩ :=
    hostStep_of_effect h (exec_skp_ok (s.offered inp) x d key) rfl rfl
  refine ⟨u, hu, ok, queue, ?_⟩
  rw [hpc, State.toNat_pc_skipIf_offered inside]
  rfl

theorem hostStep_sknp {x : Reg} {d : Nibble} (h : s.nextIs (.sknp x d))
    (key : (s.getV x).toNat ≤ 0xF) :
    ∃ u, hostStep inp s = .next u ∧ u.response = .ok ∧ u.inputs = s.inputs ∧
      u.pc.toNat = s.pc.toNat + if inp.held.getLsbD (s.getV x).toNat then 2 else 4 := by
  have ⟨_, inside, _⟩ := h
  obtain ⟨u, hu, ok, queue, _, hpc⟩ :=
    hostStep_of_effect h (exec_sknp_ok (s.offered inp) x d key) rfl rfl
  refine ⟨u, hu, ok, queue, ?_⟩
  rw [hpc, State.toNat_pc_skipIf_offered inside]
  simp only [State.held, State.getV_offered, State.sample_offered]
  by_cases held : inp.held.getLsbD (s.getV x).toNat = true <;> simp [held]

theorem hostStep_ldRegKey {x : Reg} {k : Nibble} (h : s.nextIs (.ldRegKey x))
    (pressed : inp.pressed = some k) :
    ∃ u, hostStep inp s = .next u ∧ u.response = .ok ∧ u.inputs = s.inputs ∧
      (u.getV x).toNat = k.toNat ∧ u.pc.toNat = s.pc.toNat + 2 := by
  have effect : exec (.ldRegKey x) (s.offered inp) =
      .next ((s.offered inp).setV x (k.setWidth 8)) := by
    simp only [exec, execLdRegKey, State.firstPressed, State.sample_offered, pressed]
  have ⟨_, inside, _⟩ := h
  obtain ⟨u, hu, ok, queue, regs, hpc⟩ := hostStep_of_effect h effect rfl rfl
  refine ⟨u, hu, ok, queue, ?_, ?_⟩
  · rw [regs, State.getV_setV_same, BitVec.toNat_setWidth]
    have := k.isLt
    omega
  · rw [hpc, State.setV_pc]
    exact State.toNat_pc_offered inside

end

/-- Settles O56, one lemma for each of the four instructions that read the sample. -/
theorem hostStepRunsOnItsOwnSample : Obligations.HostStepRunsOnItsOwnSample :=
  fun _ _ _ => ⟨fun _ h => hostStep_rnd h, fun _ h key => hostStep_skp h key,
    fun _ h key => hostStep_sknp h key, fun _ h pressed => hostStep_ldRegKey h pressed⟩

/-! ### Reset (R44, R51) -/

/-- With nothing written, the font's addresses read as FONT (20_memory.md R69). -/
theorem Memory.read_nil_font (cfg : Config) (k : Fin 80) :
    Memory.read cfg [] (0x050 + k.val) = cfg.font[k] := by
  have inFont : fontBase ≤ 0x050 + k.val ∧ 0x050 + k.val < 0x0A0 := by
    unfold fontBase
    omega
  simp only [Memory.read, Memory.lookup, Memory.unlisted, dif_pos inFont, fontBase,
    Nat.add_sub_cancel_left, Fin.getElem_fin]

/-- With nothing written, every other address reads as INIT_MEM (92 D3). -/
theorem Memory.read_nil_of_not_font (cfg : Config) {a : Nat} (h : a < 0x050 ∨ 0x0A0 ≤ a) :
    Memory.read cfg [] a = Config.initMem a := by
  have outside : ¬ (fontBase ≤ a ∧ a < 0x0A0) := by
    unfold fontBase
    omega
  simp only [Memory.read, Memory.lookup, Memory.unlisted, dif_neg outside]

/-- Settles O57: each component is the reset value by definition, a vector of zeros entry by entry, and memory by the two lemmas above. -/
theorem resetRestoresEveryComponent : Obligations.ResetRestoresEveryComponent := by
  intro s
  refine ⟨fun r => ?_, rfl, rfl, fun k => ?_, rfl, rfl, rfl, Framebuffer.cell_clear, rfl, rfl, rfl,
    Memory.read_nil_font s.cfg, fun a => Memory.read_nil_of_not_font s.cfg⟩
  · exact Vector.getElem_replicate r.isLt
  · exact Vector.getElem_replicate k.isLt

/-! ### Load (R52) -/

/-- A Load that fits puts its bytes from 0x200 on and makes RUN LOADED. -/
theorem hostLoad_writes (bytes : List Byte) (s : State) (ready : s.run = .ready)
    (fits : bytes.length ≤ 3584) :
    ∃ t, hostLoad bytes s = (.ok, t) ∧ t.run = .loaded ∧
      (∀ k, (h : k < bytes.length) → t.readByte (0x200 + k) = bytes[k]) ∧
      BytesKeptBut 0x200 bytes.length s t ∧ SameBut [.mem, .run] s t := by
  have reads (a : Nat) := s.readByte_setMem_writeAll progBase bytes a
  refine ⟨_, hostLoad_ok s bytes ready fits, rfl, fun k hk => ?_, fun a ha => ?_, ?_, rfl, rfl, rfl⟩
  · have inside : progBase ≤ 0x200 + k ∧ 0x200 + k - progBase < bytes.length := by
      unfold progBase
      omega
    rw [State.readByte_setRun, reads, dif_pos inside]
    simp only [progBase, Nat.add_sub_cancel_left]
  · have outside : ¬ (progBase ≤ a ∧ a - progBase < bytes.length) := by
      unfold progBase
      omega
    rw [State.readByte_setRun, reads, dif_neg outside]
  · intro p hp
    cases p with
    | mem | run => exact absurd hp (by decide)
    | v => exact fun _ => rfl
    | fb => exact fun _ _ => rfl
    | stack => exact ⟨rfl, rfl⟩
    | _ => rfl

/-- Settles O58, a lemma for each response. -/
theorem loadWritesTheProgramOnce : Obligations.LoadWritesTheProgramOnce :=
  ⟨fun s bytes => hostLoad_writes bytes s, hostLoad_tooLong, hostLoad_refused⟩

end Sys2Proof.Machine
end

section
/-! PROOFS. Memory through its byte accesses and the fetch (spec/20_memory.md R62, R64, R72, R76). -/

namespace Sys2Proof.Machine

section
variable (s : State)

/-! ### One byte (R62, R72) -/

theorem State.memWrite_ok {a : Nat} (x : Byte) (h : a < memSize) :
    s.memWrite a x = .ok (s.setMem (Memory.write s.cfg s.mem a x)) := by
  simp only [State.memWrite, Nat.not_le.mpr h, if_false]

theorem State.memWrite_error {a : Nat} (x : Byte) (h : memSize ≤ a) :
    s.memWrite a x = .error (.outOfBounds a) := by
  simp only [State.memWrite, h, if_true]

theorem State.readByte_setMem_write_same (a : Nat) (x : Byte) :
    (s.setMem (Memory.write s.cfg s.mem a x)).readByte a = x :=
  (Memory.read_write s.cfg s.mem a a x).trans (if_pos rfl)

theorem State.readByte_setMem_write_ne {a b : Nat} (x : Byte) (h : b ≠ a) :
    (s.setMem (Memory.write s.cfg s.mem a x)).readByte b = s.readByte b :=
  Memory.read_write_ne s.cfg s.mem x h

/-- An access sees nothing of a state but the byte at its address. -/
theorem State.memRead_congr {t : State} {a : Nat} (h : t.readByte a = s.readByte a) :
    t.memRead a = s.memRead a := by
  unfold State.memRead
  rw [h]

/-- Replacing memory leaves every other part, the parameters, the samples and the counter. -/
theorem State.sameBut_setMem (m : Memory) : SameBut [.mem] s (s.setMem m) := by
  refine ⟨fun p hp => ?_, rfl, rfl, rfl⟩
  cases p with
  | mem => exact absurd hp (by decide)
  | v => exact fun _ => rfl
  | fb => exact fun _ _ => rfl
  | stack => exact ⟨rfl, rfl⟩
  | _ => rfl

/-! ### Two bytes (R64, R76) -/

/-- The first byte is the more significant one. -/
theorem toNat_wordOfBytes (hi lo : Byte) :
    (wordOfBytes hi lo).toNat = hi.toNat * 256 + lo.toNat := by
  have := lo.isLt
  rw [wordOfBytes, BitVec.toNat_append, ← Nat.shiftLeft_add_eq_or_of_lt this, Nat.shiftLeft_eq]

/-- A word stored inside memory is the word fetched there. -/
theorem State.fetch_setMem_writeAll_bytesOfWord {a : Nat} (op : Word) (h : a + 1 < memSize) :
    (s.setMem (Memory.writeAll s.cfg s.mem a (bytesOfWord op))).fetch a = .ok op := by
  have hi : (s.setMem (Memory.writeAll s.cfg s.mem a (bytesOfWord op))).readByte a =
      op.extractLsb' 8 8 := by
    simp [State.readByte_setMem_writeAll, bytesOfWord]
  have lo : (s.setMem (Memory.writeAll s.cfg s.mem a (bytesOfWord op))).readByte (a + 1) =
      op.extractLsb' 0 8 := by
    simp [State.readByte_setMem_writeAll, bytesOfWord]
  rw [State.fetch_ok _ a h, hi, lo, wordOfBytes_bytes]

end

/-- Settles O27: below 4096 a write is one byte of MEM (`Memory.read_write`), from 4096 on both accesses raise. -/
theorem memoryReadsTheLastWrite : Obligations.MemoryReadsTheLastWrite := by
  refine ⟨fun s a x inside => ?_, fun s a x out => ⟨s.memRead_error out, s.memWrite_error x out⟩⟩
  refine ⟨_, s.memWrite_ok x inside, ?_, fun b other => ?_, s.sameBut_setMem _⟩
  · rw [State.memRead_ok _ inside, s.readByte_setMem_write_same]
  · exact s.memRead_congr (s.readByte_setMem_write_ne x other)

/-- Settles O28: two bytes are one big-endian word (`toNat_wordOfBytes`), and a stored word's two bytes are the word again. -/
theorem fetchIsBigEndianAndSeesStores : Obligations.FetchIsBigEndianAndSeesStores :=
  ⟨fun s a inside => ⟨_, s.fetch_ok a inside, toNat_wordOfBytes _ _⟩,
    fun s a op inside => ⟨_, s.memWrites_ok a (bytesOfWord op) inside,
      s.fetch_setMem_writeAll_bytesOfWord op inside⟩⟩

end Sys2Proof.Machine
end

section
/-! PROOFS. The decoder and the encoder are inverse, and the rows of the opcode map decide decoding (spec/30_encoding.md R93 to R97). -/

namespace Sys2Proof

/-! ### Decoding a packed instruction (R93, R94) -/

theorem decodeWord_encode (i : Instr) : decodeWord (encode i) = .ok i := by
  cases i with
  | cls bc | ret bc =>
    simp only [encode, decodeWord, fieldA_packL0, fieldBC_packL0, fieldD_packL0, BitVec.reduceToNat]
  | jp nnn | call nnn | ldI nnn | jpV0 nnn =>
    simp only [encode, decodeWord, fieldA_packLA, fieldNNN_packLA, BitVec.reduceToNat]
  | seByte x nn | sneByte x nn | ldByte x nn | addByte x nn | rnd x nn =>
    simp only [encode, decodeWord, fieldA_packLI, fieldX_packLI, fieldNN_packLI, BitVec.reduceToNat]
  | seReg x y | sneReg x y | drw x y n =>
    simp only [encode, decodeWord, fieldA_packLR, fieldX_packLR, fieldY_packLR, fieldD_packLR,
      BitVec.reduceToNat]
  | ldReg x y | orReg x y | andReg x y | xorReg x y | addReg x y | sub x y | shr x y | subn x y
  | shl x y =>
    simp only [encode, decodeWord, decodeClass8, fieldA_packLR, fieldX_packLR, fieldY_packLR,
      fieldD_packLR, BitVec.reduceToNat]
  | skp x d | sknp x d =>
    simp only [encode, decodeWord, fieldA_packLE, fieldX_packLE, fieldC_packLE, fieldD_packLE,
      BitVec.reduceToNat]
  | ldRegDt x | ldRegKey x | ldDtReg x | ldStReg x | addI x | ldFont x | ldBcd x | storeRegs x
  | loadRegs x =>
    simp only [encode, decodeWord, decodeClassF, fieldA_packLI, fieldX_packLI, fieldNN_packLI,
      BitVec.reduceToNat]

/-- Settles O1, layout by layout: the fields of a packed word are what was packed. -/
theorem decodeOfEncode : Obligations.DecodeOfEncode := decodeWord_encode

/-! ### Encoding a decoded word (R94, R96) -/

section
variable {op : Word} {n m : Nat}

theorem packL0_of_class (hA : (fieldA op).toNat = 0x0) (hD : (fieldD op).toNat = m) :
    packL0 (fieldBC op) (BitVec.ofNat 4 m) = op := by
  rw [← eq_ofNat_of_toNat hD]
  exact packL0_fields op (eq_ofNat_of_toNat hA)

theorem packLA_of_class (hA : (fieldA op).toNat = n) :
    packLA (BitVec.ofNat 4 n) (fieldNNN op) = op := by
  rw [← eq_ofNat_of_toNat hA, packLA_fields]

theorem packLI_of_class (hA : (fieldA op).toNat = n) :
    packLI (BitVec.ofNat 4 n) (fieldX op) (fieldNN op) = op := by
  rw [← eq_ofNat_of_toNat hA, packLI_fields]

theorem packLR_of_class (hA : (fieldA op).toNat = n) :
    packLR (BitVec.ofNat 4 n) (fieldX op) (fieldY op) (fieldD op) = op := by
  rw [← eq_ofNat_of_toNat hA, packLR_fields]

theorem packLR_of_selector (hA : (fieldA op).toNat = n) (hD : (fieldD op).toNat = m) :
    packLR (BitVec.ofNat 4 n) (fieldX op) (fieldY op) (BitVec.ofNat 4 m) = op := by
  rw [← eq_ofNat_of_toNat hD, packLR_of_class hA]

theorem packLE_of_class (hA : (fieldA op).toNat = 0xE) (hC : (fieldC op).toNat = m) :
    packLE (fieldX op) (BitVec.ofNat 4 m) (fieldD op) = op := by
  rw [← eq_ofNat_of_toNat hC]
  exact packLE_fields op (eq_ofNat_of_toNat hA)

theorem decodeClass8_error {e : DecodeError} (h : decodeClass8 op = .error e) :
    e = .invalidOpcode op := by
  unfold decodeClass8 at h
  split at h <;> cases h
  rfl

theorem decodeClassF_error {e : DecodeError} (h : decodeClassF op = .error e) :
    e = .invalidOpcode op := by
  unfold decodeClassF at h
  split at h <;> cases h
  rfl

end

/-- What any answer of the decoder says of its word: an instruction packs to it, and an error names it. -/
def AnswersFor (op : Word) : Except DecodeError Instr → Prop
  | .ok i => encode i = op
  | .error e => e = .invalidOpcode op

theorem decodeClass8_answersFor {op : Word} (hA : (fieldA op).toNat = 0x8) :
    AnswersFor op (decodeClass8 op) := by
  cases h : decodeClass8 op with
  | ok i => exact (encode_of_decodeClass8 h).trans (packLR_of_class hA)
  | error e => exact decodeClass8_error h

theorem decodeClassF_answersFor {op : Word} (hA : (fieldA op).toNat = 0xF) :
    AnswersFor op (decodeClassF op) := by
  cases h : decodeClassF op with
  | ok i => exact (encode_of_decodeClassF h).trans (packLI_of_class hA)
  | error e => exact decodeClassF_error h

/-- Along the dispatch of R94, class by class: the tests that led to an instruction are the fields its encoding fixes. -/
theorem decodeWord_answersFor (op : Word) : AnswersFor op (decodeWord op) := by
  unfold decodeWord
  split
  case h_1 hA =>
    split
    case h_1 hD | h_2 hD => exact packL0_of_class hA hD
    case h_3 => rfl
  case h_2 hA | h_3 hA | h_11 hA | h_12 hA => exact packLA_of_class hA
  case h_4 hA | h_5 hA | h_7 hA | h_8 hA | h_13 hA => exact packLI_of_class hA
  case h_6 hA | h_10 hA =>
    split
    case h_1 hD => exact packLR_of_selector hA hD
    case h_2 => rfl
  case h_9 hA => exact decodeClass8_answersFor hA
  case h_14 hA => exact packLR_of_class hA
  case h_15 hA =>
    split
    case h_1 hC | h_2 hC => exact packLE_of_class hA hC
    case h_3 => rfl
  case h_16 hA => exact decodeClassF_answersFor hA
  case h_17 => rfl

theorem encode_of_decodeWord {op : Word} {i : Instr} (h : decodeWord op = .ok i) :
    encode i = op := by
  have answers := decodeWord_answersFor op
  rwa [h] at answers

theorem decodeWord_error {op : Word} {e : DecodeError} (h : decodeWord op = .error e) :
    e = .invalidOpcode op := by
  have answers := decodeWord_answersFor op
  rwa [h] at answers

/-- Settles O2: in each class the fields the decoder reads are all of the word (`decodeWord_answersFor`). -/
theorem encodeOfDecode : Obligations.EncodeOfDecode := fun _ _ => encode_of_decodeWord

/-! ### Words of a row (R95) -/

section
variable {op : Word} {a c d : Nibble} {nn : Byte}

theorem packL0_of_masked (h : op &&& 0xF00F#16 = packL0 0x00#8 d) :
    packL0 (fieldBC op) d = op := by
  have hA : fieldA op = 0x0#4 :=
    (extract_eq_of_masked h 12 4 (by decide)).trans (fieldA_packL0 _ _)
  have hD : fieldD op = d := (extract_eq_of_masked h 0 4 (by decide)).trans (fieldD_packL0 _ _)
  rw [← hD]
  exact packL0_fields op hA

theorem packLA_of_masked (h : op &&& 0xF000#16 = packLA a 0x000#12) :
    packLA a (fieldNNN op) = op := by
  have hA : fieldA op = a := (extract_eq_of_masked h 12 4 (by decide)).trans (fieldA_packLA _ _)
  rw [← hA, packLA_fields]

theorem packLI_of_masked (h : op &&& 0xF000#16 = packLI a 0 0x00#8) :
    packLI a (fieldX op) (fieldNN op) = op := by
  have hA : fieldA op = a :=
    (extract_eq_of_masked h 12 4 (by decide)).trans (fieldA_packLI _ _ _)
  rw [← hA, packLI_fields]

theorem packLF_of_masked (h : op &&& 0xF0FF#16 = packLI a 0 nn) :
    packLI a (fieldX op) nn = op := by
  have hA : fieldA op = a :=
    (extract_eq_of_masked h 12 4 (by decide)).trans (fieldA_packLI _ _ _)
  have hNN : fieldNN op = nn :=
    (extract_eq_of_masked h 0 8 (by decide)).trans (fieldNN_packLI _ _ _)
  rw [← hA, ← hNN, packLI_fields]

theorem packLR_of_masked (h : op &&& 0xF00F#16 = packLR a 0 0 d) :
    packLR a (fieldX op) (fieldY op) d = op := by
  have hA : fieldA op = a :=
    (extract_eq_of_masked h 12 4 (by decide)).trans (fieldA_packLR _ _ _ _)
  have hD : fieldD op = d :=
    (extract_eq_of_masked h 0 4 (by decide)).trans (fieldD_packLR _ _ _ _)
  rw [← hA, ← hD, packLR_fields]

theorem packLD_of_masked (h : op &&& 0xF000#16 = packLR a 0 0 0x0#4) :
    packLR a (fieldX op) (fieldY op) (fieldD op) = op := by
  have hA : fieldA op = a :=
    (extract_eq_of_masked h 12 4 (by decide)).trans (fieldA_packLR _ _ _ _)
  rw [← hA, packLR_fields]

theorem packLE_of_masked (h : op &&& 0xF0F0#16 = packLE 0 c 0x0#4) :
    packLE (fieldX op) c (fieldD op) = op := by
  have hA : fieldA op = 0xE#4 :=
    (extract_eq_of_masked h 12 4 (by decide)).trans (fieldA_packLE _ _ _)
  have hC : fieldC op = c := (extract_eq_of_masked h 4 4 (by decide)).trans (fieldC_packLE _ _ _)
  rw [← hC]
  exact packLE_fields op hA

end

/-- The instruction of the same row whose operands are the fields of a word (R91, R95). -/
def Instr.withFields (op : Word) : Instr → Instr
  | .cls _ => .cls (fieldBC op)
  | .ret _ => .ret (fieldBC op)
  | .jp _ => .jp (fieldNNN op)
  | .call _ => .call (fieldNNN op)
  | .seByte _ _ => .seByte (fieldX op) (fieldNN op)
  | .sneByte _ _ => .sneByte (fieldX op) (fieldNN op)
  | .seReg _ _ => .seReg (fieldX op) (fieldY op)
  | .ldByte _ _ => .ldByte (fieldX op) (fieldNN op)
  | .addByte _ _ => .addByte (fieldX op) (fieldNN op)
  | .ldReg _ _ => .ldReg (fieldX op) (fieldY op)
  | .orReg _ _ => .orReg (fieldX op) (fieldY op)
  | .andReg _ _ => .andReg (fieldX op) (fieldY op)
  | .xorReg _ _ => .xorReg (fieldX op) (fieldY op)
  | .addReg _ _ => .addReg (fieldX op) (fieldY op)
  | .sub _ _ => .sub (fieldX op) (fieldY op)
  | .shr _ _ => .shr (fieldX op) (fieldY op)
  | .subn _ _ => .subn (fieldX op) (fieldY op)
  | .shl _ _ => .shl (fieldX op) (fieldY op)
  | .sneReg _ _ => .sneReg (fieldX op) (fieldY op)
  | .ldI _ => .ldI (fieldNNN op)
  | .jpV0 _ => .jpV0 (fieldNNN op)
  | .rnd _ _ => .rnd (fieldX op) (fieldNN op)
  | .drw _ _ _ => .drw (fieldX op) (fieldY op) (fieldD op)
  | .skp _ _ => .skp (fieldX op) (fieldD op)
  | .sknp _ _ => .sknp (fieldX op) (fieldD op)
  | .ldRegDt _ => .ldRegDt (fieldX op)
  | .ldRegKey _ => .ldRegKey (fieldX op)
  | .ldDtReg _ => .ldDtReg (fieldX op)
  | .ldStReg _ => .ldStReg (fieldX op)
  | .addI _ => .addI (fieldX op)
  | .ldFont _ => .ldFont (fieldX op)
  | .ldBcd _ => .ldBcd (fieldX op)
  | .storeRegs _ => .storeRegs (fieldX op)
  | .loadRegs _ => .loadRegs (fieldX op)

/-- A word of an instruction's row is that instruction with the word's own operands, packed. -/
theorem encode_withFields {op : Word} {i : Instr} (h : op &&& i.rowMask = i.rowMatch) :
    encode (i.withFields op) = op := by
  cases i with
  | cls bc | ret bc => exact packL0_of_masked h
  | jp nnn | call nnn | ldI nnn | jpV0 nnn => exact packLA_of_masked h
  | seByte x nn | sneByte x nn | ldByte x nn | addByte x nn | rnd x nn => exact packLI_of_masked h
  | seReg x y | ldReg x y | orReg x y | andReg x y | xorReg x y | addReg x y | sub x y | shr x y
  | subn x y | shl x y | sneReg x y => exact packLR_of_masked h
  | drw x y n => exact packLD_of_masked h
  | skp x d | sknp x d => exact packLE_of_masked h
  | ldRegDt x | ldRegKey x | ldDtReg x | ldStReg x | addI x | ldFont x | ldBcd x | storeRegs x
  | loadRegs x => exact packLF_of_masked h

/-- Every word of an instruction's row decodes to that instruction with the word's own operands; `RowDecodes` of a row's literals is this at any instruction of the row. -/
theorem rowDecodes (i : Instr) : Machine.RowDecodes i.rowMask i.rowMatch i.withFields := by
  intro op h
  rw [← decodeWord_encode (i.withFields op), encode_withFields h]

/-! ### The rows of the opcode map (R95, R96) -/

/-- The instruction's row of the opcode map. -/
def Instr.row (i : Instr) : Word × Word := (i.rowMask, i.rowMatch)

/-- Operands do not choose the row. -/
theorem row_withFields (op : Word) (i : Instr) : (i.withFields op).row = i.row := by
  cases i <;> rfl

/-- One instruction of each row, in the table's order. -/
def rowInstrs : List Instr :=
  [.cls 0, .ret 0, .jp 0, .call 0, .seByte 0 0, .sneByte 0 0, .seReg 0 0, .ldByte 0 0,
   .addByte 0 0, .ldReg 0 0, .orReg 0 0, .andReg 0 0, .xorReg 0 0, .addReg 0 0, .sub 0 0,
   .shr 0 0, .subn 0 0, .shl 0 0, .sneReg 0 0, .ldI 0, .jpV0 0, .rnd 0 0, .drw 0 0 0, .skp 0 0,
   .sknp 0 0, .ldRegDt 0, .ldRegKey 0, .ldDtReg 0, .ldStReg 0, .addI 0, .ldFont 0, .ldBcd 0,
   .storeRegs 0, .loadRegs 0]

theorem opcodeMap_eq_map_row : opcodeMap = rowInstrs.map Instr.row := rfl

/-- Every row of the opcode map is the row of an instruction. -/
theorem exists_row_eq {r : Word × Word} (h : r ∈ opcodeMap) : ∃ i : Instr, i.row = r := by
  rw [opcodeMap_eq_map_row] at h
  obtain ⟨i, _, e⟩ := List.mem_map.1 h
  exact ⟨i, e⟩

/-- Every instruction's row stands in the opcode map. -/
theorem row_mem_opcodeMap (i : Instr) : i.row ∈ opcodeMap := by
  cases i <;> simp [Instr.row, Instr.rowMask, Instr.rowMatch, opcodeMap]

/-- The word of an instruction lies in its row. -/
theorem encode_inRow (i : Instr) : Laws.InRow.Statement i := by
  cases i with
  | cls bc => exact Laws.InRow.cls bc
  | ret bc => exact Laws.InRow.ret bc
  | jp nnn => exact Laws.InRow.jp nnn
  | call nnn => exact Laws.InRow.call nnn
  | seByte x nn => exact Laws.InRow.seByte x nn
  | sneByte x nn => exact Laws.InRow.sneByte x nn
  | seReg x y => exact Laws.InRow.seReg x y
  | ldByte x nn => exact Laws.InRow.ldByte x nn
  | addByte x nn => exact Laws.InRow.addByte x nn
  | ldReg x y => exact Laws.InRow.ldReg x y
  | orReg x y => exact Laws.InRow.orReg x y
  | andReg x y => exact Laws.InRow.andReg x y
  | xorReg x y => exact Laws.InRow.xorReg x y
  | addReg x y => exact Laws.InRow.addReg x y
  | sub x y => exact Laws.InRow.sub x y
  | shr x y => exact Laws.InRow.shr x y
  | subn x y => exact Laws.InRow.subn x y
  | shl x y => exact Laws.InRow.shl x y
  | sneReg x y => exact Laws.InRow.sneReg x y
  | ldI nnn => exact Laws.InRow.ldI nnn
  | jpV0 nnn => exact Laws.InRow.jpV0 nnn
  | rnd x nn => exact Laws.InRow.rnd x nn
  | drw x y n => exact Laws.InRow.drw x y n
  | skp x d => exact Laws.InRow.skp x d
  | sknp x d => exact Laws.InRow.sknp x d
  | ldRegDt x => exact Laws.InRow.ldRegDt x
  | ldRegKey x => exact Laws.InRow.ldRegKey x
  | ldDtReg x => exact Laws.InRow.ldDtReg x
  | ldStReg x => exact Laws.InRow.ldStReg x
  | addI x => exact Laws.InRow.addI x
  | ldFont x => exact Laws.InRow.ldFont x
  | ldBcd x => exact Laws.InRow.ldBcd x
  | storeRegs x => exact Laws.InRow.storeRegs x
  | loadRegs x => exact Laws.InRow.loadRegs x

/-- A word decodes to the instruction whose row it matches. -/
theorem decodeWord_of_row {op : Word} {i : Instr} (h : op &&& i.row.1 = i.row.2) :
    decodeWord op = .ok (i.withFields op) :=
  rowDecodes i op h

theorem row_of_decodeWord {op : Word} {i : Instr} (h : decodeWord op = .ok i) :
    op &&& i.row.1 = i.row.2 := by
  rw [← encode_of_decodeWord h]
  exact encode_inRow i

theorem decodes_iff_row (op : Word) :
    (∃ i, decodeWord op = .ok i) ↔ ∃ r ∈ opcodeMap, op &&& r.1 = r.2 := by
  constructor
  · rintro ⟨i, h⟩
    exact ⟨i.row, row_mem_opcodeMap i, row_of_decodeWord h⟩
  · rintro ⟨r, hr, h⟩
    obtain ⟨i, rfl⟩ := exists_row_eq hr
    exact ⟨i.withFields op, decodeWord_of_row h⟩

/-- A word in two rows would decode to an instruction of each, and it decodes to one. -/
theorem row_unique {op : Word} {r r' : Word × Word} (hr : r ∈ opcodeMap) (hr' : r' ∈ opcodeMap)
    (h : op &&& r.1 = r.2) (h' : op &&& r'.1 = r'.2) : r = r' := by
  obtain ⟨i, rfl⟩ := exists_row_eq hr
  obtain ⟨i', rfl⟩ := exists_row_eq hr'
  have same : i.withFields op = i'.withFields op :=
    Except.ok.inj ((decodeWord_of_row h).symm.trans (decodeWord_of_row h'))
  rw [← row_withFields op i, same, row_withFields]

/-- Settles O3: a word of a row is a packed instruction of that row (`decodeWord_of_row`), and a decoded word is one too (`row_of_decodeWord`). -/
theorem opcodeMapDecidesDecoding : Obligations.OpcodeMapDecidesDecoding :=
  ⟨decodes_iff_row, fun _ i h => ⟨row_of_decodeWord h, row_mem_opcodeMap i⟩,
    fun _ _ _ hr hr' h h' => row_unique hr hr' h h', fun _ _ => decodeWord_error⟩

/-- A word outside every row is rejected as an invalid opcode. -/
theorem decodeWord_of_no_row {op : Word} (h : ∀ r ∈ opcodeMap, op &&& r.1 ≠ r.2) :
    decodeWord op = .error (.invalidOpcode op) := by
  cases hd : decodeWord op with
  | ok i => exact absurd (row_of_decodeWord hd) (h i.row (row_mem_opcodeMap i))
  | error e => rw [decodeWord_error hd]

/-- Settles O4: closed words. -/
theorem sampleWordsDecode : Obligations.SampleWordsDecode := by
  unfold Obligations.SampleWordsDecode
  decide

end Sys2Proof
end

section
/-! PROOFS. What the machine does with the nibbles the decoder ignores (spec/30_encoding.md R97) and with words of no row (spec/40_cycle.md R123). -/

namespace Sys2Proof.Machine

/-! ### Ignored nibbles -/

section
variable (s : State)

theorem exec_cls_ignores_bc (bc bc' : Byte) : exec (.cls bc) s = exec (.cls bc') s := rfl

theorem exec_ret_ignores_bc (bc bc' : Byte) (h : 0 < s.sp.val) :
    exec (.ret bc) s = exec (.ret bc') s := by
  rw [exec_ret_ok s bc h, exec_ret_ok s bc' h]

theorem exec_skp_ignores_nibble (x : Reg) (d d' : Nibble) (h : (s.getV x).toNat ≤ 0xF) :
    exec (.skp x d) s = exec (.skp x d') s := by
  rw [exec_skp_ok s x d h, exec_skp_ok s x d' h]

theorem exec_sknp_ignores_nibble (x : Reg) (d d' : Nibble) (h : (s.getV x).toNat ≤ 0xF) :
    exec (.sknp x d) s = exec (.sknp x d') s := by
  rw [exec_sknp_ok s x d h, exec_sknp_ok s x d' h]

end

/-- Settles O5: the four rows at any of their instructions, and effects that read no ignored nibble. -/
theorem aliasWordsActLikeTheConventionalWord :
    Obligations.AliasWordsActLikeTheConventionalWord :=
  ⟨rowDecodes (.cls 0), rowDecodes (.ret 0), rowDecodes (.skp 0 0), rowDecodes (.sknp 0 0),
    fun bc s => exec_cls_ignores_bc s bc _, fun bc s h => exec_ret_ignores_bc s bc _ h,
    fun x d s h => ⟨exec_skp_ignores_nibble s x d _ h, exec_sknp_ignores_nibble s x d _ h⟩⟩

/-! ### Words of no row -/

/-- A cycle that raises before any effect keeps all but PC, DT, ST and RUN (R128). -/
theorem State.keptBut_endCycle_raiseAt (s : State) (a : Word) (op : Option Word) (f : Fault) :
    KeptBut [.pc, .dt, .st, .run] s (s.raiseAt a op f).endCycle := by
  intro p hp
  cases p with
  | pc | dt | st | run => exact absurd hp (by decide)
  | v => exact fun _ => rfl
  | fb => exact fun _ _ => rfl
  | mem => exact fun _ => rfl
  | stack => exact ⟨rfl, rfl⟩
  | _ => rfl

/-- Settles O30: the word does not decode (`decodeWord_of_no_row`), so the cycle is a raise. -/
theorem unlistedWordFaults : Obligations.UnlistedWordFaults := by
  intro s accepted inside unlisted
  have raised := cycle_of_decode_error s (s.fetch_pc inside) (decodeWord_of_no_row unlisted)
  exact ⟨_, (step_of_accepts s accepted).trans raised, rfl, s.keptBut_endCycle_raiseAt _ _ _,
    rfl⟩

end Sys2Proof.Machine
end

section
/-! PROOFS. The frames of the instructions that write registers, the PC or I alone (40_cycle.md R127, 92 D18). -/

namespace Sys2Proof.Machine

section
variable (s : State)

/-! ### Parts kept by an update -/

/-- Replacing the register file leaves every other part, the parameters, the samples and the counter. -/
theorem State.sameBut_withV (w : Vector Byte 16) : SameBut [.v] s { s with v := w } := by
  refine ⟨fun p hp => ?_, rfl, rfl, rfl⟩
  cases p with
  | v => exact absurd hp (by decide)
  | stack => exact ⟨rfl, rfl⟩
  | fb => exact fun _ _ => rfl
  | mem => exact fun _ => rfl
  | _ => rfl

theorem State.sameBut_setPc (w : Word) : SameBut [.pc] s (s.setPc w) := by
  refine ⟨fun p hp => ?_, rfl, rfl, rfl⟩
  cases p with
  | pc => exact absurd hp (by decide)
  | _ => simp [Part.Kept]

theorem State.sameBut_setI (w : Word) : SameBut [.i] s (s.setI w) := by
  refine ⟨fun p hp => ?_, rfl, rfl, rfl⟩
  cases p with
  | i => exact absurd hp (by decide)
  | _ => simp [Part.Kept]

theorem State.regsKeptBut_setV (r : Reg) (b : Byte) : RegsKeptBut [r] s (s.setV r b) :=
  fun _ hq => s.getV_setV_ne b (List.ne_of_not_mem_cons hq)

theorem State.regsKeptBut_setV_setV (r r' : Reg) (b b' : Byte) :
    RegsKeptBut [r, r'] s ((s.setV r b).setV r' b') := by
  intro q hq
  rw [List.mem_pair, not_or] at hq
  obtain ⟨hr, hr'⟩ := hq
  rw [State.getV_setV_ne _ _ hr', s.getV_setV_ne b hr]

end

/-! ### Frames from effects -/

section
variable {s : State} {i : Instr} {x : Reg} {b flag : Byte}

/-- The frame of an effect that is one register write. -/
theorem frame_of_setV (h : exec i s = .next (s.setV x b)) :
    ∃ t, exec i s = .next t ∧ RegsKeptBut [x] s t ∧ SameBut [.v] s t :=
  ⟨_, h, s.regsKeptBut_setV x b, s.sameBut_withV _⟩

/-- The frame of an effect that writes a register, then the flag. -/
theorem frame_of_setV_flag (h : exec i s = .next ((s.setV x b).setV VF flag)) :
    ∃ t, exec i s = .next t ∧ RegsKeptBut [x, VF] s t ∧ SameBut [.v] s t :=
  ⟨_, h, s.regsKeptBut_setV_setV x VF b flag, s.sameBut_withV _⟩

/-- The frame of a skip. -/
theorem frame_of_skipIf {cond : Bool} (h : exec i s = .next (s.skipIf cond)) :
    ∃ t, exec i s = .next t ∧ SameBut [.pc] s t :=
  ⟨_, h, s.sameBut_setPc _⟩

/-- The frame of an effect that sets I. -/
theorem frame_of_setI {w : Word} (h : exec i s = .next (s.setI w)) :
    ∃ t, exec i s = .next t ∧ SameBut [.i] s t :=
  ⟨_, h, s.sameBut_setI w⟩

end

/-- Settles O11: each effect is one update of its shape by definition, and each shape has its frame. -/
theorem registerInstructionsKeepTheRest : Obligations.RegisterInstructionsKeepTheRest := by
  intro x y nn nnn s
  simp only [List.forall_mem_cons, List.not_mem_nil, false_implies, implies_true, and_true]
  refine ⟨⟨?_, ?_, ?_, ?_, ?_, ?_⟩, ⟨?_, ?_, ?_⟩, ⟨?_, ?_, ?_, ?_⟩, ⟨?_, ?_, ?_⟩⟩
  iterate 6 exact frame_of_setV rfl
  iterate 3 exact frame_of_setV_flag rfl
  iterate 4 exact frame_of_skipIf rfl
  iterate 3 exact frame_of_setI rfl

end Sys2Proof.Machine
end

section
/-! PROOFS. The cycle (spec/40_cycle.md R120 to R128): the fetch that fails, the end of a completed and of a faulted cycle, and the word the host places. -/

namespace Sys2Proof.Machine

/-! ### A fetch beyond memory (R121) -/

/-- The lowest bad address of a fetch beyond memory (92 D27): 0x1000 where only the second byte is out. -/
theorem max_toNat_memSize_of_fetch_out (a : Word) (out : memSize ≤ a.toNat + 1) :
    max a.toNat memSize = if a = 0x0FFF#16 then 0x1000 else a.toNat := by
  unfold memSize at *
  split
  case isTrue last => rw [last]; rfl
  case isFalse beyond =>
    have : a.toNat ≠ 0x0FFF := fun e => beyond (BitVec.eq_of_toNat_eq e)
    omega

/-- Settles O29: the fetch raises its lowest bad address, and a cycle that raises before any effect keeps the rest (`State.keptBut_endCycle_raiseAt`). -/
theorem fetchBeyondMemoryFaults : Obligations.FetchBeyondMemoryFaults := by
  intro s accepted out
  have raised := cycle_of_fetch_error s (s.fetch_error _ out)
  rw [max_toNat_memSize_of_fetch_out s.pc out] at raised
  exact ⟨_, (step_of_accepts s accepted).trans raised, rfl, s.keptBut_endCycle_raiseAt _ _ _, rfl⟩

/-! ### The end of the cycle (R125, R128) -/

/-- Settles O32: the timer clause of the frame of a Step. -/
theorem timersTickOnEveryCompletedCycle : Obligations.TimersTickOnEveryCompletedCycle := by
  intro s u i h hu running
  obtain ⟨_, _, _, _, _, _, _, _, completed⟩ := onlyTheNamedInstructionsWrite s u i h hu
  obtain ⟨_, hdt, hst⟩ := completed running
  exact ⟨hdt, hst⟩

theorem tick_eq_ofNat (b : Byte) : tick b = BitVec.ofNat 8 (b.toNat - 1) := by
  rw [← tick_toNat, BitVec.ofNat_toNat, BitVec.setWidth_eq]

/-- Settles O31: the Step is the effect, then `State.endCycle` in the form of its case. -/
theorem stepRunsTheDecodedInstruction : Obligations.StepRunsTheDecodedInstruction := by
  intro s t i h ht
  rw [step_of_exec h ht, ← tick_eq_ofNat, ← tick_eq_ofNat]
  rcases t.endCycle_cases with ⟨faulted, e⟩ | ⟨completed, e⟩
  · exact ⟨fun no => absurd (no.symm.trans faulted) (by decide), fun _ => congrArg _ e⟩
  · exact ⟨fun _ => congrArg _ e, fun no => absurd (no.symm.trans completed) (by decide)⟩

/-- An accepted state is not faulted. -/
theorem State.nextIs.not_faulted {s : State} {i : Instr} (h : s.nextIs i) :
    s.run.isFaulted = false := by
  obtain ⟨hr | hr, _⟩ := h <;> rw [hr] <;> rfl

/-- An effect that leaves FAULTED behind an accepted state raised a fault of its own. -/
theorem Effect.ownFault_ne_none {i : Instr} {s t : State} (effect : Effect i s t)
    (before : s.run.isFaulted = false) (after : t.run.isFaulted = true) :
    s.ownFault i ≠ none := by
  intro none
  rw [effect.run_ok none, before] at after
  cases after

/-- Settles O48: what a faulting effect keeps (`Effect.fault`), read from the state before the advance and after the end of the cycle, which touch none of it. -/
theorem faultingStepKeepsTheRest : Obligations.FaultingStepKeepsTheRest := by
  intro s u i h hu faulted
  obtain ⟨t, rfl, effect⟩ := effect_of_step h hu
  rw [State.isFaulted_run_endCycle] at faulted
  obtain ⟨hi, hstack, hsp, hpresent, hregs, hbytes, hcells⟩ :=
    effect.fault (effect.ownFault_ne_none h.not_faulted faulted)
  refine ⟨fun p hp => ?_, ?_, fun r hload hdraw => ?_, fun a hbcd hstore => ?_, fun yy xx hc => ?_⟩
  · cases p with
    | i => exact t.endCycle_i.trans hi
    | stack => exact ⟨t.endCycle_stack.trans hstack, t.endCycle_sp.trans hsp⟩
    | present => exact t.endCycle_present.trans hpresent
    | _ => exact absurd hp (by decide)
  · exact t.endCycle_cfg.trans effect.cfg
  · exact (t.getV_endCycle r).trans (hregs r hload hdraw)
  · exact (t.readByte_endCycle a).trans (hbytes a hbcd hstore)
  · rw [t.endCycle_fb]
    exact hcells yy xx hc

/-! ### The word the host places (log 9) -/

theorem Run.whenLoaded_accepts (r : Run) : r.whenLoaded = .loaded ∨ r.whenLoaded = .running := by
  cases r with
  | running => exact .inr rfl
  | _ => exact .inl rfl

/-- The host's word goes where both its bytes exist. -/
theorem State.fetchSlot_inside (s : State) : s.fetchSlot.toNat + 1 < memSize := by
  unfold State.fetchSlot
  split
  case isTrue inside => exact inside
  case isFalse => decide

theorem ofNat_toNat_mod (op : Word) : BitVec.ofNat 16 (op.toNat % 2 ^ 16) = op := by
  rw [Nat.mod_eq_of_lt op.isLt, BitVec.ofNat_toNat, BitVec.setWidth_eq]

/-- A placed word is two bytes written at the slot, with the PC there. -/
theorem State.withFetchWord_eq (s : State) (op : Word) :
    s.withFetchWord 16 op.toNat =
      ((s.setPc s.fetchSlot).setMem (Memory.writeAll s.cfg s.mem s.fetchSlot.toNat
        (bytesOfWord op))).setRun s.run.whenLoaded := by
  rw [State.withFetchWord, ofNat_toNat_mod]
  rfl

/-- The fetch at the PC reads the placed word. -/
theorem State.opcodeAtPc_withFetchWord (s : State) (op : Word) :
    (s.withFetchWord 16 op.toNat).opcodeAtPc = op := by
  have fetched := (s.setPc s.fetchSlot).fetch_setMem_writeAll_bytesOfWord op s.fetchSlot_inside
  rw [State.fetch_ok _ _ s.fetchSlot_inside] at fetched
  rw [State.withFetchWord_eq]
  exact Except.ok.inj fetched

/-- The host's view of the decoder, at a whole word. -/
theorem decodeTableWord_toNat (op : Word) (i : Instr) :
    decodeWord op = .ok i ↔ decodeTableWord 16 op.toNat = some i := by
  rw [decodeTableWord, ofNat_toNat_mod, bytesOfWord, decodeBytes, wordOfBytes_bytes]
  cases decodeWord op with
  | ok j => simp
  | error e => simp

/-- Settles O60: the placed word is the one at the PC (`State.opcodeAtPc_withFetchWord`), and its Step is the Step of the instruction it decodes to (`step_of_exec`). -/
theorem placedWordRunsNext : Obligations.PlacedWordRunsNext := by
  rintro s p op rfl
  have accepted := s.run.whenLoaded_accepts
  have inside := s.fetchSlot_inside
  have placed := s.opcodeAtPc_withFetchWord op
  refine ⟨accepted, inside, placed, decodeTableWord_toNat op, fun i hd => ?_⟩
  have next : (s.withFetchWord 16 op.toNat).nextIs i :=
    ⟨accepted, inside, by rw [placed]; exact hd⟩
  obtain ⟨t, ht⟩ := exec_total (s.withFetchWord 16 op.toNat).advance i
  exact ⟨next, t, ht, step_of_exec next ht⟩

end Sys2Proof.Machine
end

section
/-! PROOFS. Frames put together (spec/40_cycle.md R127, R128): what two updates in a row keep, what a raise keeps, and what a completed Step keeps of what its effect kept. -/

namespace Sys2Proof.Machine

section
variable {s t u : State} {parts : List Part}

theorem Part.Kept.trans {p : Part} (h : p.Kept s t) (h' : p.Kept t u) : p.Kept s u := by
  cases p with
  | v => exact fun r => (h' r).trans (h r)
  | fb => exact fun y x => (h' y x).trans (h y x)
  | mem => exact fun a => (h' a).trans (h a)
  | stack => exact ⟨h'.1.trans h.1, h'.2.trans h.2⟩
  | _ => exact Eq.trans h' h

theorem KeptBut.trans (h : KeptBut parts s t) (h' : KeptBut parts t u) : KeptBut parts s u :=
  fun p hp => (h p hp).trans (h' p hp)

/-- A frame that lets more parts change is weaker. -/
theorem KeptBut.mono {more : List Part} (h : KeptBut parts s t) (sub : parts ⊆ more) :
    KeptBut more s t :=
  fun p hp => h p fun hp' => hp (sub hp')

end

section
variable (s : State)

/-- A raise keeps all but PC, DT, ST and RUN. -/
theorem State.sameBut_raise (i : Instr) (f : Fault) :
    SameBut [.pc, .dt, .st, .run] s (s.raise i f) := by
  refine ⟨fun p hp => ?_, rfl, rfl, rfl⟩
  cases p with
  | pc | dt | st | run => exact absurd hp (by decide)
  | _ => simp [Part.Kept]

/-- The tick and the used sample keep all but DT, ST and RUN. -/
theorem State.keptBut_complete_useSample :
    KeptBut [.dt, .st, .run] s s.complete.useSample := by
  intro p hp
  cases p with
  | dt | st | run => exact absurd hp (by decide)
  | _ => simp [Part.Kept]

/-- Replacing the stack, its depth and the PC leaves every other part. -/
theorem State.sameBut_withStack_setPc (stack : Vector Word 16) (sp : Fin 17) (w : Word) :
    SameBut [.pc, .stack] s (({ s with stack := stack, sp := sp } : State).setPc w) := by
  refine ⟨fun p hp => ?_, rfl, rfl, rfl⟩
  cases p with
  | pc | stack => exact absurd hp (by decide)
  | v => exact fun _ => rfl
  | fb => exact fun _ _ => rfl
  | mem => exact fun _ => rfl
  | _ => rfl

end

section
variable {s t : State} {i : Instr}

/-- An effect that is a raise and nothing else raises with no partial effects. -/
theorem raisesIn_of_exec_raise {f : Fault} (h : exec i s = .next (s.raise i f)) :
    RaisesIn i s f [] fun _ => True :=
  ⟨_, h, s.raise_run i f, s.sameBut_raise i f, trivial⟩

/-- A Step whose effect leaves all but PC and stack alone completes, with the PC and the stack the effect left. -/
theorem step_of_stack_effect (next : s.nextIs i) (ht : exec i s.advance = .next t)
    (kept : KeptBut [.pc, .stack] s.advance t) :
    step s = .next t.complete.useSample ∧
      KeptBut [.pc, .stack, .dt, .st, .run] s t.complete.useSample := by
  have running : t.run = s.run := kept .run (by decide)
  have advanced : KeptBut [.pc] s s.advance := (s.sameBut_setPc _).1
  have ended := t.keptBut_complete_useSample
  exact ⟨step_of_effect next ht running, (advanced.mono (by decide)).trans
    ((kept.mono (by decide)).trans (ended.mono (by decide)))⟩

end

end Sys2Proof.Machine
end

section
/-! PROOFS. Control transfer (spec/41_control_flow.md): jumps, skips, calls and returns, and a call with the return it reaches. -/

namespace Sys2Proof.Machine

/-! ### Jumps (R142, R148) -/

/-- The sum of BNNN does not wrap (92 D6). -/
theorem toNat_zextByte_add_zextAddr (b : Byte) (nnn : Addr12) :
    (zextByte b + zextAddr nnn).toNat = b.toNat + nnn.toNat := by
  rw [BitVec.toNat_add, toNat_zextByte, toNat_zextAddr]
  have := b.isLt
  have := nnn.isLt
  omega

/-- Settles O15: each effect sets the PC alone, to a value that fits. -/
theorem jumpsSetPcOnly : Obligations.JumpsSetPcOnly :=
  ⟨rowDecodes (.jp 0), rowDecodes (.jpV0 0),
    fun nnn s => ⟨_, rfl, toNat_zextAddr nnn, s.sameBut_setPc _⟩,
    fun nnn s => ⟨_, rfl, toNat_zextByte_add_zextAddr _ nnn, zextByte_add_zextAddr_le _ nnn,
      s.sameBut_setPc _⟩⟩

/-! ### Skips (R140, R144 to R147) -/

/-- A skip moves the PC by its condition, keeps VF and raises nothing. -/
theorem outcome_of_skipIf {s : State} {i : Instr} {cond : Bool} {taken passed : Prop}
    (h : exec i s = .next (s.skipIf cond)) (htaken : taken → cond = true)
    (hpassed : passed → cond = false) :
    ∃ t, exec i s = .next t ∧ t.getV VF = s.getV VF ∧ t.run = s.run ∧
      (taken → t.pc = s.pc + 2#16) ∧ (passed → t.pc = s.pc) := by
  refine ⟨_, h, rfl, rfl, fun ht => ?_, fun hp => ?_⟩
  · rw [State.skipIf_pc, htaken ht, if_pos rfl]
  · rw [State.skipIf_pc, hpassed hp, if_neg Bool.false_ne_true]

/-- Settles O18: both effects are a skip on a compare. -/
theorem byteCompareSkips : Obligations.ByteCompareSkips :=
  ⟨rowDecodes (.seByte 0 0), rowDecodes (.sneByte 0 0), fun _ _ _ =>
    ⟨outcome_of_skipIf rfl decide_eq_true decide_eq_false,
      outcome_of_skipIf rfl decide_eq_true fun e => decide_eq_false (not_not_intro e)⟩⟩

/-- Classes 5 and 9 hold one row each, with last nibble 0. -/
theorem decodeWord_of_register_compare_class {op : Word}
    (hA : fieldA op = 0x5#4 ∨ fieldA op = 0x9#4) (hD : fieldD op ≠ 0x0#4) :
    decodeWord op = .error (.invalidOpcode op) := by
  have nonzero : (fieldD op).toNat ≠ 0x0 := fun e => hD (BitVec.eq_of_toNat_eq e)
  -- `nonzero` rules out the row, so each class falls through to its last branch.
  rcases hA with hA | hA <;> simp only [decodeWord, hA, BitVec.reduceToNat]

/-- Settles O19: both effects are a skip on a compare. -/
theorem registerCompareSkips : Obligations.RegisterCompareSkips :=
  ⟨rowDecodes (.seReg 0 0), rowDecodes (.sneReg 0 0),
    fun _ => decodeWord_of_register_compare_class, fun _ _ _ =>
    ⟨outcome_of_skipIf rfl decide_eq_true decide_eq_false,
      outcome_of_skipIf rfl decide_eq_true fun e => decide_eq_false (not_not_intro e)⟩⟩

/-! ### Calls and returns (R141, R143) -/

/-- Settles O16: with room the effect is the push and the jump (`exec_call_ok`), without it a raise and nothing else. -/
theorem callPushesAndJumps : Obligations.CallPushesAndJumps := by
  refine ⟨rowDecodes (.call 0), fun nnn s room => ?_,
    fun nnn s full => raisesIn_of_exec_raise (exec_call_fault s nnn full)⟩
  refine ⟨_, exec_call_ok s nnn room, toNat_zextAddr nnn, rfl, fun k top => ?_,
    fun k other => ?_, s.sameBut_withStack_setPc _ _ _⟩
  · change (s.stack.set s.sp.val s.pc)[k.val] = s.pc
    rw [Vector.getElem_set, if_pos top.symm]
  · change (s.stack.set s.sp.val s.pc)[k.val] = s.stack[k.val]
    rw [Vector.getElem_set, if_neg (Ne.symm other)]

/-- Settles O17: with an entry the effect is the pop (`exec_ret_ok`), without one a raise and nothing else. -/
theorem returnPopsThePc : Obligations.ReturnPopsThePc := by
  refine ⟨fun bc s held => ?_,
    fun bc s empty => raisesIn_of_exec_raise (exec_ret_fault s bc empty)⟩
  refine ⟨_, exec_ret_ok s bc held, Nat.sub_add_cancel held, fun k top => ?_, rfl,
    s.sameBut_withStack_setPc _ _ _⟩
  obtain ⟨k, hk⟩ := k
  obtain rfl : k = s.sp.val - 1 := top
  rfl

/-! ### A call and the return it reaches -/

/-- A fetch sees nothing of a state but its bytes. -/
theorem State.fetch_congr {s t : State} (h : ∀ a, t.readByte a = s.readByte a) (a : Nat) :
    t.fetch a = s.fetch a := by
  rw [State.fetch, State.fetch, s.memRead_congr (h a),
    s.memRead_congr (h (a + 1))]

/-- In RUNNING, an instruction's word fetched at the PC is what the next Step runs. -/
theorem State.nextIs_of_fetch {s : State} {i : Instr} (running : s.run = .running)
    (fetched : s.fetch s.pc.toNat = .ok (encode i)) : s.nextIs i := by
  have inside := s.pc_of_fetch_ok fetched
  have word : s.opcodeAtPc = encode i := Except.ok.inj ((s.fetch_pc inside).symm.trans fetched)
  exact ⟨.inr running, inside, by rw [word, decodeWord_encode]⟩

/-- The Step of a call with room: the address after it is the new top of the stack. -/
theorem step_call {s : State} {nnn : Addr12} (next : s.nextIs (.call nnn)) (room : s.sp.val < 16) :
    ∃ u, step s = .next u ∧ u.run = .running ∧ u.pc.toNat = nnn.toNat ∧
      u.sp.val = s.sp.val + 1 ∧ u.stack[s.sp.val] = s.pc + 2#16 ∧
      KeptBut [.pc, .stack, .dt, .st, .run] s u := by
  obtain ⟨_, pushes, _⟩ := callPushesAndJumps
  obtain ⟨t, ht, hpc, hsp, top, _, kept, _⟩ := pushes nnn s.advance room
  obtain ⟨hstep, kept⟩ := step_of_stack_effect next ht kept
  exact ⟨_, hstep, rfl, hpc, hsp, top ⟨s.sp.val, room⟩ rfl, kept⟩

/-- The Step of a return at depth `n + 1`: the PC is the top of the stack. -/
theorem step_ret {s : State} {bc : Byte} {n : Nat} (next : s.nextIs (.ret bc))
    (depth : s.sp.val = n + 1) (hn : n < 16) :
    ∃ u, step s = .next u ∧ u.run = .running ∧ u.pc = s.stack[n] ∧ u.sp.val = n ∧
      KeptBut [.pc, .stack, .dt, .st, .run] s u := by
  obtain ⟨pops, _⟩ := returnPopsThePc
  obtain ⟨t, ht, hsp, top, _, kept, _⟩ := pops bc s.advance (by rw [State.advance_sp]; omega)
  obtain ⟨hstep, kept⟩ := step_of_stack_effect next ht kept
  have below : t.sp.val = n := Nat.succ.inj (hsp.trans depth)
  exact ⟨_, hstep, rfl, top ⟨n, hn⟩ below.symm, below, kept⟩

/-- Settles O20: the call leaves memory as it was, so the return's word is fetched at NNN, and the return pops what the call pushed. -/
theorem callThenReturnComesBack : Obligations.CallThenReturnComesBack := by
  intro s nnn bc next room fetched
  obtain ⟨t, hcall, running, hpc, depth, top, kept⟩ := step_call next room
  have bytes : ∀ a, t.readByte a = s.readByte a := kept .mem (by decide)
  have returns : t.nextIs (.ret bc) :=
    State.nextIs_of_fetch running (by rw [hpc, State.fetch_congr bytes, fetched])
  obtain ⟨u, hret, running', hpc', depth', kept'⟩ := step_ret returns depth room
  exact ⟨u, ⟨t, hcall, running, u, hret, running', rfl⟩, hpc'.trans top, Fin.ext depth',
    kept.trans kept'⟩

end Sys2Proof.Machine
end

section
/-! PROOFS. Register loads and the ALU (spec/42_register_alu.md): what a register and VF hold after each effect, and that none of them raises. -/

namespace Sys2Proof.Machine

/-! ### Values of the flags (R160) -/

theorem toNat_flagByte (b : Bool) : (flagByte b).toNat = b.toNat := by
  cases b <;> rfl

theorem toNat_carryFlag (x y : Byte) :
    (carryFlag x y).toNat = if 256 ≤ x.toNat + y.toNat then 1 else 0 := by
  rw [carryFlag, toNat_flagByte, Bool.toNat, Bool.cond_decide]

theorem toNat_notBorrowFlag (minuend subtrahend : Byte) :
    (notBorrowFlag minuend subtrahend).toNat =
      if minuend.toNat < subtrahend.toNat then 0 else 1 := by
  rw [notBorrowFlag, toNat_flagByte, Bool.toNat, Bool.cond_not, Bool.cond_decide]

/-- The flag of a bit of a byte is the bit's binary digit. -/
theorem toNat_flagByte_getLsbD (v : Byte) (k : Nat) :
    (flagByte (v.getLsbD k)).toNat = v.toNat / 2 ^ k % 2 := by
  rw [toNat_flagByte, ← BitVec.testBit_toNat, Nat.toNat_testBit]

theorem toNat_shiftedOutRight (v : Byte) : (shiftedOutRight v).toNat = v.toNat % 2 := by
  rw [shiftedOutRight, toNat_flagByte_getLsbD, pow_zero, Nat.div_one]

theorem toNat_shiftedOutLeft (v : Byte) : (shiftedOutLeft v).toNat = v.toNat / 128 := by
  have := v.isLt
  rw [shiftedOutLeft, toNat_flagByte_getLsbD]
  omega

/-! ### Results of the arithmetic -/

theorem toNat_byte_sub (a b : Byte) : (a - b).toNat = (a.toNat + 256 - b.toNat) % 256 := by
  have := b.isLt
  rw [BitVec.toNat_sub]
  omega

theorem toNat_byte_ushiftRight_one (v : Byte) : (v >>> 1).toNat = v.toNat / 2 := by
  rw [BitVec.toNat_ushiftRight, Nat.shiftRight_one]

theorem toNat_byte_shiftLeft_one (v : Byte) : (v <<< 1).toNat = 2 * v.toNat % 256 := by
  rw [BitVec.toNat_shiftLeft, Nat.shiftLeft_eq, pow_one, Nat.mul_comm]

/-- The bit shifted out at bit 0 is gone when it is shifted again (8FY6 under SHIFT_SOURCE = VX). -/
theorem shiftedOutRight_ushiftRight_one (v : Byte) : shiftedOutRight v >>> 1 = 0x00#8 := by
  apply BitVec.eq_of_toNat_eq
  rw [toNat_byte_ushiftRight_one, toNat_shiftedOutRight, BitVec.toNat_ofNat]
  omega

/-- The bit shifted out at bit 7 becomes bit 1 when it is shifted again (8FYE under SHIFT_SOURCE = VX). -/
theorem toNat_shiftedOutLeft_shiftLeft_one (v : Byte) :
    (shiftedOutLeft v <<< 1).toNat = if 0x80 ≤ v.toNat then 2 else 0 := by
  have := v.isLt
  rw [toNat_byte_shiftLeft_one, toNat_shiftedOutLeft]
  split <;> omega

section
variable {s : State} {x y : Reg}

/-! ### One register written (R161 to R166, R172) -/

/-- A write to another register leaves VF. -/
theorem State.getV_VF_setV (b : Byte) (hx : x ≠ VF) : (s.setV x b).getV VF = s.getV VF :=
  s.getV_setV_ne b hx.symm

/-- The random byte is the one of the sample the host has supplied (R9). -/
theorem State.rand_of_inputs {inp : StepInput} {rest : List StepInput}
    (h : s.inputs = inp :: rest) : s.rand = inp.rand := by
  rw [State.rand, State.sample, h]

/-! ### A result, then the flag (R167, R168, R170) -/

/-- What the registers hold after a result and then the flag: with X = VF the flag is what VF holds. -/
theorem outcome_of_setV_flag {i : Instr} {result flag : Byte} {n bit : Nat}
    (h : exec i s = .next ((s.setV x result).setV VF flag)) (hresult : result.toNat = n)
    (hflag : flag.toNat = bit) :
    ∃ t, exec i s = .next t ∧ (x ≠ VF → (t.getV x).toNat = n) ∧ (t.getV VF).toNat = bit ∧
      t.run = s.run := by
  refine ⟨_, h, fun hx => ?_, ?_, rfl⟩
  · rw [State.getV_setV_ne _ _ hx, State.getV_setV_same, hresult]
  · rw [State.getV_setV_same, hflag]

/-! ### The flag, then a result (R169, R171; 92 D8, D9) -/

variable {shift out : Byte → Byte}

/-- The shape 8XY6 and 8XYE share: VF takes the bit `out` of the source, then V[X] its `shift`. With SHIFT_SOURCE = VX the source is read again between the two. -/
def State.shifted (s : State) (x y : Reg) (shift out : Byte → Byte) : State :=
  match s.cfg.shiftSource with
  | .vx =>
    let s' := s.setV VF (out (s.getV x))
    s'.setV x (shift (s'.getV x))
  | .vy => (s.setV VF (out (s.getV y))).setV x (shift (s.getV y))

theorem exec_shr (s : State) (x y : Reg) :
    exec (.shr x y) s = .next (s.shifted x y (· >>> 1) shiftedOutRight) := rfl

theorem exec_shl (s : State) (x y : Reg) :
    exec (.shl x y) s = .next (s.shifted x y (· <<< 1) shiftedOutLeft) := rfl

theorem State.shifted_vx (source : s.cfg.shiftSource = .vx) :
    s.shifted x y shift out = (s.setV VF (out (s.getV x))).setV x
      (shift ((s.setV VF (out (s.getV x))).getV x)) := by
  simp only [State.shifted, source]

theorem State.shifted_vy (source : s.cfg.shiftSource = .vy) :
    s.shifted x y shift out = (s.setV VF (out (s.getV y))).setV x (shift (s.getV y)) := by
  simp only [State.shifted, source]

/-- Under either source a shift is a write to VF, then one to V[X]. -/
theorem State.exists_shifted_eq (s : State) (x y : Reg) (shift out : Byte → Byte) :
    ∃ flag result, s.shifted x y shift out = (s.setV VF flag).setV x result := by
  cases source : s.cfg.shiftSource with
  | vx => exact ⟨_, _, State.shifted_vx source⟩
  | vy => exact ⟨_, _, State.shifted_vy source⟩

theorem State.frame_shifted (s : State) (x y : Reg) (shift out : Byte → Byte) :
    RegsKeptBut [x, VF] s (s.shifted x y shift out) ∧ SameBut [.v] s (s.shifted x y shift out) := by
  obtain ⟨flag, result, e⟩ := s.exists_shifted_eq x y shift out
  rw [e]
  refine ⟨fun r hr => ?_, s.sameBut_withV _⟩
  exact s.regsKeptBut_setV_setV VF x flag result r fun h =>
    hr (List.mem_pair.2 (List.mem_pair.1 h).symm)

theorem State.getV_shifted_vx (source : s.cfg.shiftSource = .vx) (hx : x ≠ VF) :
    (s.shifted x y shift out).getV x = shift (s.getV x) := by
  rw [State.shifted_vx source, State.getV_setV_same, State.getV_setV_ne _ _ hx]

/-- With X = VF the register shifted is the flag just written. -/
theorem State.getV_VF_shifted_VF_vx (source : s.cfg.shiftSource = .vx) :
    (s.shifted VF y shift out).getV VF = shift (out (s.getV VF)) := by
  rw [State.shifted_vx source, State.getV_setV_same, State.getV_setV_same]

theorem State.getV_shifted_vy (source : s.cfg.shiftSource = .vy) :
    (s.shifted x y shift out).getV x = shift (s.getV y) := by
  rw [State.shifted_vy source, State.getV_setV_same]

theorem State.getV_VF_shifted_vx (source : s.cfg.shiftSource = .vx) (hx : x ≠ VF) :
    (s.shifted x y shift out).getV VF = out (s.getV x) := by
  rw [State.shifted_vx source, State.getV_VF_setV _ hx, State.getV_setV_same]

theorem State.getV_VF_shifted_vy (source : s.cfg.shiftSource = .vy) (hx : x ≠ VF) :
    (s.shifted x y shift out).getV VF = out (s.getV y) := by
  rw [State.shifted_vy source, State.getV_VF_setV _ hx, State.getV_setV_same]

/-- What the registers hold after a shift, given the numbers of its result and of its bit, and what holds of the result of shifting that bit again. -/
theorem outcome_of_shifted {i : Instr} {whole bit : Byte → Nat} {Again : Byte → Prop}
    (h : exec i s = .next (s.shifted x y shift out)) (hshift : ∀ v, (shift v).toNat = whole v)
    (hout : ∀ v, (out v).toNat = bit v) (hagain : Again (shift (out (s.getV VF)))) :
    ∃ t, exec i s = .next t ∧ RegsKeptBut [x, VF] s t ∧ SameBut [.v] s t ∧
      (s.cfg.shiftSource = .vx →
        (x ≠ VF → (t.getV x).toNat = whole (s.getV x) ∧ (t.getV VF).toNat = bit (s.getV x)) ∧
        (x = VF → Again (t.getV VF))) ∧
      (s.cfg.shiftSource = .vy →
        (t.getV x).toNat = whole (s.getV y) ∧ (x ≠ VF → (t.getV VF).toNat = bit (s.getV y))) := by
  obtain ⟨regs, rest⟩ := s.frame_shifted x y shift out
  refine ⟨_, h, regs, rest, fun source => ⟨fun hx => ⟨?_, ?_⟩, ?_⟩,
    fun source => ⟨?_, fun hx => ?_⟩⟩
  · rw [State.getV_shifted_vx source hx, hshift]
  · rw [State.getV_VF_shifted_vx source hx, hout]
  · rintro rfl
    rwa [State.getV_VF_shifted_VF_vx source]
  · rw [State.getV_shifted_vy source, hshift]
  · rw [State.getV_VF_shifted_vy source hx, hout]

end

/-! ### The obligations -/

/-- Settles O9: a sum, then its carry. -/
theorem addRegistersSumAndCarry : Obligations.AddRegistersSumAndCarry :=
  ⟨rowDecodes (.addReg 0 0), fun _ _ _ =>
    outcome_of_setV_flag rfl (BitVec.toNat_add _ _) (toNat_carryFlag _ _)⟩

/-- Settles O10: a difference, then its not-borrow, with the operands in either order. -/
theorem subtractDifferenceAndNotBorrow : Obligations.SubtractDifferenceAndNotBorrow :=
  ⟨rowDecodes (.sub 0 0), rowDecodes (.subn 0 0), fun _ _ _ =>
    ⟨outcome_of_setV_flag rfl (toNat_byte_sub _ _) (toNat_notBorrowFlag _ _),
      outcome_of_setV_flag rfl (toNat_byte_sub _ _) (toNat_notBorrowFlag _ _)⟩⟩

/-- Settles O12: a right shift in the shape `State.shifted`; its bit shifted again leaves 0. -/
theorem shiftRightHalvesAndShiftsOutBit0 : Obligations.ShiftRightHalvesAndShiftsOutBit0 :=
  ⟨rowDecodes (.shr 0 0), fun x y s =>
    outcome_of_shifted (Again := (· = 0x00#8)) (exec_shr s x y) toNat_byte_ushiftRight_one
      toNat_shiftedOutRight (shiftedOutRight_ushiftRight_one _)⟩

/-- Settles O13: a left shift in the shape `State.shifted`; its bit shifted again is bit 1. -/
theorem shiftLeftDoublesAndShiftsOutBit7 : Obligations.ShiftLeftDoublesAndShiftsOutBit7 :=
  ⟨rowDecodes (.shl 0 0), fun x y s =>
    outcome_of_shifted (Again := fun r => r.toNat = if 0x80 ≤ (s.getV VF).toNat then 2 else 0)
      (exec_shl s x y) toNat_byte_shiftLeft_one toNat_shiftedOutLeft
      (toNat_shiftedOutLeft_shiftLeft_one _)⟩

/-- Settles O6: each effect is one write of the byte or of V[Y]. -/
theorem loadsWriteTheRegister : Obligations.LoadsWriteTheRegister :=
  ⟨rowDecodes (.ldByte 0 0), rowDecodes (.ldReg 0 0),
    fun x nn s => ⟨_, rfl, s.getV_setV_same x nn, State.getV_VF_setV _, rfl⟩,
    fun x y s => ⟨_, rfl, s.getV_setV_same x (s.getV y), State.getV_VF_setV _, rfl⟩⟩

/-- Settles O7: the effect is one write of a sum. -/
theorem addImmediateWrapsAndSetsNoFlag : Obligations.AddImmediateWrapsAndSetsNoFlag := by
  refine ⟨rowDecodes (.addByte 0 0), fun x nn s => ⟨_, rfl, ?_, State.getV_VF_setV _, rfl⟩⟩
  rw [State.getV_setV_same]
  exact BitVec.toNat_add _ _

/-- Settles O8: each effect is one write, and a bit of the value written is the operation on the two bits. -/
theorem logicOpsWorkBitwiseAndSetNoFlag : Obligations.LogicOpsWorkBitwiseAndSetNoFlag := by
  refine ⟨rowDecodes (.orReg 0 0), rowDecodes (.andReg 0 0), rowDecodes (.xorReg 0 0),
    fun x y s => ⟨⟨_, rfl, State.getV_VF_setV _, rfl, fun k _ => ?_⟩,
      ⟨_, rfl, State.getV_VF_setV _, rfl, fun k _ => ?_⟩,
      ⟨_, rfl, State.getV_VF_setV _, rfl, fun k _ => ?_⟩⟩⟩
  · rw [State.getV_setV_same, BitVec.getLsbD_or]
  · rw [State.getV_setV_same, BitVec.getLsbD_and]
  · rw [State.getV_setV_same, BitVec.getLsbD_xor, Bool.bne_eq_xor]

/-- Settles O14: the effect is one write of the sample's byte under the mask, whatever the sample. -/
theorem randomIsMaskedByTheImmediate : Obligations.RandomIsMaskedByTheImmediate := by
  refine ⟨rowDecodes (.rnd 0 0), fun x nn s => ⟨_, rfl, fun k _ => ?_,
    fun _ _ => State.rand_of_inputs, s.regsKeptBut_setV x _, s.sameBut_withV _⟩⟩
  rw [State.getV_setV_same, BitVec.getLsbD_and]

end Sys2Proof.Machine
end

section
/-! PROOFS. The index register, stores and loads at I (spec/43_index_memory.md): what ANNN, FX1E and FX29 set I to, what a completed transfer moves, and what one that leaves memory keeps. -/

namespace Sys2Proof.Machine

/-! ### Setting I (R191 to R193) -/

/-- The address of a glyph does not wrap, whatever the value. -/
theorem toNat_glyphAddr (v : Byte) : (glyphAddr v).toNat = 0x050 + 5 * v.toNat := by
  rw [glyphAddr, BitVec.toNat_add, BitVec.toNat_mul, toNat_zextByte]
  have := v.isLt
  simp only [BitVec.reduceToNat]
  omega

/-- FX1E wraps at 16 bits. -/
theorem toNat_add_zextByte (w : Word) (b : Byte) :
    (w + zextByte b).toNat = (w.toNat + b.toNat) % 65536 := by
  rw [BitVec.toNat_add, toNat_zextByte]

/-- Settles O21: each effect sets I alone, to a value whose number is the rule's. -/
theorem indexSetters : Obligations.IndexSetters :=
  ⟨rowDecodes (.ldI 0), rowDecodes (.addI 0), rowDecodes (.ldFont 0),
    fun nnn _ => ⟨_, rfl, toNat_zextAddr nnn, rfl, rfl⟩,
    fun x s => ⟨_, rfl, toNat_add_zextByte s.i (s.getV x), rfl, rfl⟩,
    fun x s => ⟨_, rfl, toNat_glyphAddr (s.getV x), rfl, rfl⟩⟩

/-! ### What a transfer writes and keeps -/

section
variable (s : State)

/-- A byte of a run of writes is the byte of the list. -/
theorem State.readByte_setMem_writeAll_add (a : Nat) (bs : List Byte) {k : Nat}
    (h : k < bs.length) :
    (s.setMem (Memory.writeAll s.cfg s.mem a bs)).readByte (a + k) = bs[k] := by
  have written : a ≤ a + k ∧ a + k - a < bs.length := by omega
  rw [State.readByte_setMem_writeAll, dif_pos written]
  simp only [Nat.add_sub_cancel_left]

/-- A run of writes keeps every byte outside it. -/
theorem State.bytesKeptBut_setMem_writeAll (a : Nat) (bs : List Byte) :
    BytesKeptBut a bs.length s (s.setMem (Memory.writeAll s.cfg s.mem a bs)) := by
  intro b outside
  have unwritten : ¬ (a ≤ b ∧ b - a < bs.length) := by omega
  rw [State.readByte_setMem_writeAll, dif_neg unwritten]

/-- Loading registers leaves every part but V, the parameters, the samples and the counter. -/
theorem State.sameBut_setVs (k : Nat) (bs : List Byte) : SameBut [.v] s (s.setVs k bs) := by
  rw [State.setVs_eq]
  exact s.sameBut_withV _

/-- A register after a load of the bytes at I into V[0], …, V[n-1]. -/
theorem State.getV_setVs_spriteRows (n : Nat) (k : Reg) :
    (s.setVs 0 (s.spriteRows n)).getV k =
      if k.val < n then s.readByte (s.i.toNat + k.val) else s.getV k := by
  rw [State.getV_setVs]
  simp

end

/-! ### Transfers that complete (R194 to R196) -/

/-- The three digits as numbers: each fits in a byte. -/
theorem toNat_bcdDigits (v : Byte) :
    (bcdDigits v)[0].toNat = v.toNat / 100 ∧ (bcdDigits v)[1].toNat = v.toNat / 10 % 10 ∧
      (bcdDigits v)[2].toNat = v.toNat % 10 := by
  have := v.isLt
  refine ⟨Nat.mod_eq_of_lt ?_, Nat.mod_eq_of_lt ?_, Nat.mod_eq_of_lt ?_⟩ <;> omega

/-- Settles O22: the effect is the run of writes of the three digits (`exec_ldBcd_ok`). -/
theorem bcdStoresTheThreeDigits : Obligations.BcdStoresTheThreeDigits := by
  refine ⟨rowDecodes (.ldBcd 0), fun x s inside => ?_⟩
  have stored (k : Nat) (hk : k < 3) := congrArg BitVec.toNat
    (s.readByte_setMem_writeAll_add s.i.toNat (bcdDigits (s.getV x)) hk)
  obtain ⟨hundreds, tens, ones⟩ := toNat_bcdDigits (s.getV x)
  exact ⟨_, exec_ldBcd_ok s x inside, (stored 0 (by decide)).trans hundreds,
    (stored 1 (by decide)).trans tens, (stored 2 (by decide)).trans ones,
    s.bytesKeptBut_setMem_writeAll _ (bcdDigits (s.getV x)), s.sameBut_setMem _⟩

/-- Settles O23: the effect is the run of writes of V[0], …, V[X] (`exec_storeRegs_ok`). -/
theorem storeRegistersAtIndex : Obligations.StoreRegistersAtIndex := by
  refine ⟨rowDecodes (.storeRegs 0), fun x s inside =>
    ⟨_, exec_storeRegs_ok s x inside, fun k hk => ?_, ?_, s.sameBut_setMem _⟩⟩
  · have listed : k.val < (s.getVs x).length := by
      rw [State.length_getVs]
      exact Nat.lt_succ_of_le hk
    rw [s.readByte_setMem_writeAll_add _ _ listed, State.getElem_getVs]
  · rw [← s.length_getVs x]
    exact s.bytesKeptBut_setMem_writeAll _ _

/-- Settles O24: the effect loads the X + 1 bytes at I into V[0], …, V[X] (`exec_loadRegs_ok`). -/
theorem loadRegistersFromIndex : Obligations.LoadRegistersFromIndex := by
  refine ⟨rowDecodes (.loadRegs 0), fun x s inside =>
    ⟨_, exec_loadRegs_ok s x inside, fun k hk => ?_, fun k hk => ?_, s.sameBut_setVs _ _⟩⟩
  · exact (s.getV_setVs_spriteRows _ k).trans (if_pos (Nat.lt_succ_of_le hk))
  · exact (s.getV_setVs_spriteRows _ k).trans (if_neg (Nat.not_lt_of_le hk))

/-! ### A store and the load of the same bytes -/

section
variable {s t u : State} {parts more : List Part}

theorem SameBut.trans (h : SameBut parts s t) (h' : SameBut parts t u) : SameBut parts s u := by
  obtain ⟨kept, cfg, inputs, draws⟩ := h
  obtain ⟨kept', cfg', inputs', draws'⟩ := h'
  exact ⟨kept.trans kept', cfg'.trans cfg, inputs'.trans inputs, draws'.trans draws⟩

/-- A frame that lets more parts change is weaker. -/
theorem SameBut.mono (h : SameBut parts s t) (sub : parts ⊆ more) : SameBut more s t :=
  ⟨h.1.mono sub, h.2⟩

end

/-- Settles O25: the store keeps I, so the load reads the bytes the store wrote, whatever the registers hold in between. -/
theorem storeThenLoadRoundTrips : Obligations.StoreThenLoadRoundTrips := by
  intro x s w inside
  obtain ⟨_, stores⟩ := storeRegistersAtIndex
  obtain ⟨_, loads⟩ := loadRegistersFromIndex
  obtain ⟨t, hstore, stored, _, keptByStore⟩ := stores x s inside
  have index : t.i = s.i := keptByStore.1 .i (by decide)
  obtain ⟨u, hload, loaded, _, keptByLoad⟩ := loads x { t with v := w } (by rwa [index])
  have kept : SameBut [.v, .mem] s u :=
    (keptByStore.mono (by decide)).trans
      (((t.sameBut_withV w).trans keptByLoad).mono (by decide))
  refine ⟨t, u, hstore, hload, fun k hk => ?_, kept.1 .i (by decide), kept⟩
  calc u.getV k
    _ = t.readByte (t.i.toNat + k.val) := loaded k hk
    _ = t.readByte (s.i.toNat + k.val) := by rw [index]
    _ = s.getV k := stored k hk

/-! ### Transfers that leave memory (R128; 92 D17, D27) -/

/-- A raise after partial effects keeps what those effects kept, but for PC, DT, ST and RUN. -/
theorem raisesIn_of_partial {i : Instr} {s t : State} {f : Fault} {partly : List Part}
    {more : State → Prop} (h : exec i s = .next (t.raise i f)) (kept : SameBut partly s t)
    (pc : t.pc = s.pc) (hmore : more (t.raise i f)) : RaisesIn i s f partly more := by
  refine ⟨_, h, ?_, ?_, hmore⟩
  · rw [State.raise_run, pc]
  · exact (kept.mono (List.subset_append_right [.pc, .dt, .st, .run] partly)).trans
      ((t.sameBut_raise i f).mono (List.subset_append_left [.pc, .dt, .st, .run] partly))

/-- A store of `n` bytes at I that leaves memory frees only bytes of the transfer. -/
theorem raisesIn_of_freeBytes {i : Instr} {s : State} {f : Fault} {n : Nat}
    (h : exec i s = .next ((s.freeBytes s.i.toNat (inRange s.i.toNat n)).raise i f)) :
    RaisesIn i s f [.mem] (BytesKeptBut s.i.toNat n s) := by
  obtain ⟨m, hm, bytes⟩ := s.freeBytes_spec (inRange s.i.toNat n) s.i.toNat
  rw [hm] at h
  refine raisesIn_of_partial h (s.sameBut_setMem m) rfl fun b outside => bytes b ?_
  have : inRange s.i.toNat n ≤ n := Nat.min_le_left _ _
  omega

/-- A load of `n` bytes at I that leaves memory frees only registers whose byte lies below 4096. -/
theorem raisesIn_of_freeRegs {i : Instr} {s : State} {f : Fault} {n : Nat}
    (h : exec i s = .next ((s.freeRegs (inRange s.i.toNat n)).raise i f)) :
    RaisesIn i s f [.v] fun t => ∀ k : Reg, 4096 ≤ s.i.toNat + k.val → t.getV k = s.getV k := by
  refine raisesIn_of_partial h (s.sameBut_withV _) (s.freeRegs_pc _) fun k out => ?_
  have notLoaded : ¬ k.val < inRange s.i.toNat n := by
    unfold inRange memSize
    omega
  rw [State.getV_raise, State.getV_freeRegs, if_neg notLoaded]

/-- Settles O26: each effect that leaves memory is a raise after free bytes or free registers. -/
theorem transfersOutOfMemoryFault : Obligations.TransfersOutOfMemoryFault := fun x s =>
  ⟨fun out => raisesIn_of_freeBytes (exec_ldBcd_fault s x out),
    fun out => raisesIn_of_freeBytes (exec_storeRegs_fault s x out),
    fun out => raisesIn_of_freeRegs (exec_loadRegs_fault s x out)⟩

end Sys2Proof.Machine
end

section
/-! PROOFS. The display (spec/44_display.md): the blitter as an XOR over a set of cells, a draw as its rows one after the other, and what a draw that leaves memory keeps. -/

namespace Sys2Proof.Machine

/-! ### XOR over a set of cells -/

/-- The cells of `fb'` are those of `fb`, each turned over exactly where `C` holds. -/
def ToggledOn (C : Fin 32 → Fin 64 → Prop) (fb fb' : Framebuffer) : Prop :=
  ∀ yy xx, fb'.cell yy xx = true ↔ ¬ (fb.cell yy xx = true ↔ C yy xx)

section
variable {C D : Fin 32 → Fin 64 → Prop} {fb fb' fb'' : Framebuffer}

theorem ToggledOn.cell_of_not (h : ToggledOn C fb fb') {yy : Fin 32} {xx : Fin 64}
    (outside : ¬ C yy xx) : fb'.cell yy xx = fb.cell yy xx := by
  rw [Bool.eq_iff_iff, h yy xx]
  tauto

/-- The cells a toggle lights are the cells of its set that are lit after it. -/
theorem ToggledOn.lights_iff (h : ToggledOn C fb fb') (yy : Fin 32) (xx : Fin 64) :
    fb.cell yy xx = false ∧ fb'.cell yy xx = true ↔ C yy xx ∧ fb'.cell yy xx = true := by
  rw [h yy xx, ← Bool.not_eq_true]
  tauto

theorem ToggledOn.twice (h : ToggledOn C fb fb') (h' : ToggledOn C fb' fb'') : fb'' = fb := by
  refine Framebuffer.ext_cells fun yy xx => ?_
  rw [Bool.eq_iff_iff, h' yy xx, h yy xx]
  tauto

/-- Toggles on sets that do not meet are one toggle on their union. -/
theorem ToggledOn.union (h : ToggledOn C fb fb') (h' : ToggledOn D fb' fb'')
    (apart : ∀ yy xx, C yy xx → ¬ D yy xx) :
    ToggledOn (fun yy xx => C yy xx ∨ D yy xx) fb fb'' := by
  intro yy xx
  rw [h' yy xx, h yy xx]
  have := apart yy xx
  tauto

end

/-! ### One sprite byte (R211, R212) -/

/-- The screen row of `rowIndex` is the one the relation of R212 allows. -/
theorem rowIndex_eq_some_iff (policy : SpriteY) (y : Nat) (yy : Fin 32) :
    rowIndex policy y = some yy ↔ OnScreenRow policy y yy := by
  cases policy with
  | wrap => rw [rowIndex, OnScreenRow, Option.some.injEq, Fin.ext_iff, Fin.val_ofNat]
  | clip =>
    rw [rowIndex, OnScreenRow]
    split
    · rw [Option.some.injEq, Fin.ext_iff]
    · have := yy.isLt
      simp only [reduceCtorEq, false_iff]
      omega

theorem blit_of_onScreenRow {policy : SpriteY} {y : Nat} {yy : Fin 32}
    (h : OnScreenRow policy y yy) (fb : Framebuffer) (x : Nat) (row : Byte) :
    blit policy fb x y row = (fb.set yy (blitLine x row fb[yy]).1, (blitLine x row fb[yy]).2) := by
  rw [blit, (rowIndex_eq_some_iff policy y yy).2 h]

/-- A row the policy drops is not drawn. -/
theorem blit_of_no_row {policy : SpriteY} {y : Nat} (h : ∀ yy, ¬ OnScreenRow policy y yy)
    (fb : Framebuffer) (x : Nat) (row : Byte) : blit policy fb x y row = (fb, false) := by
  have none : rowIndex policy y = none :=
    Option.eq_none_iff_forall_ne_some.2 fun yy e => h yy ((rowIndex_eq_some_iff policy y yy).1 e)
  rw [blit, none]

theorem OnScreenRow.unique {policy : SpriteY} {y : Nat} {yy yy' : Fin 32}
    (h : OnScreenRow policy y yy) (h' : OnScreenRow policy y yy') : yy = yy' := by
  rw [← rowIndex_eq_some_iff] at h h'
  exact Option.some.inj (h.symm.trans h')

section
variable (policy : SpriteY) (fb : Framebuffer) (x y : Nat) (row : Byte)

/-- A blit turns over the cells its one bits fall on. -/
theorem toggledOn_blit :
    ToggledOn (fun yy xx => OnScreenRow policy y yy ∧ OnScreenColumn x row xx) fb
      (blit policy fb x y row).1 := by
  intro yy xx
  by_cases h : OnScreenRow policy y yy
  · have line : (blit policy fb x y row).1.cell yy xx = (blitLine x row fb[yy]).1[xx] := by
      simp [blit_of_onScreenRow h, Framebuffer.cell]
    rw [line, blitLine_cell]
    simp only [h, true_and]
    rfl
  · rw [blit_cell_of_uncovered policy fb x y row yy xx fun covered => h covered.1]
    simp only [h, false_and, iff_false, not_not]

/-- A blit reports a collision when a one bit falls on a lit cell. -/
theorem blit_collision_iff :
    (blit policy fb x y row).2 = true ↔
      ∃ yy xx, OnScreenRow policy y yy ∧ OnScreenColumn x row xx ∧ fb.cell yy xx = true := by
  by_cases h : ∃ yy, OnScreenRow policy y yy
  · obtain ⟨yy, h⟩ := h
    rw [blit_of_onScreenRow h, blitLine_collision]
    constructor
    · rintro ⟨xx, column, lit⟩
      exact ⟨yy, xx, h, column, lit⟩
    · rintro ⟨yy', xx, h', column, lit⟩
      obtain rfl := h.unique h'
      exact ⟨xx, column, lit⟩
  · rw [blit_of_no_row (not_exists.1 h)]
    constructor
    · exact fun e => absurd e Bool.false_ne_true
    · rintro ⟨yy, _, onRow, _⟩
      exact absurd ⟨yy, onRow⟩ h

end

/-- Settles O34: the blit in closed form, its cells and its collision. -/
theorem blitXorsAndDetectsCollision : Obligations.BlitXorsAndDetectsCollision :=
  fun policy fb x y row =>
    ⟨toggledOn_blit policy fb x y row, blit_collision_iff policy fb x y row⟩

/-- Settles O35: two toggles on one set cancel, and the cells the second blit meets lit are those the first lit. -/
theorem blitTwiceRestores : Obligations.BlitTwiceRestores := by
  intro policy fb x y row
  have first := toggledOn_blit policy fb x y row
  refine ⟨first.twice (toggledOn_blit policy _ x y row), ?_⟩
  simp only [blit_collision_iff, first.lights_iff, and_assoc]

/-! ### A draw, row after row (R213) -/

section
variable (s : State) (x y : Reg)

theorem State.drawRows_append (rows rows' : List Byte) : ∀ (s : State) (i : Nat),
    s.drawRows x y i (rows ++ rows') =
      (s.drawRows x y i rows).drawRows x y (i + rows.length) rows' := by
  induction rows with
  | nil => exact fun _ _ => rfl
  | cons row rest ih =>
    intro s i
    rw [List.cons_append, State.drawRows, ih, State.drawRows, List.length_cons,
      Nat.add_right_comm, Nat.add_assoc]

/-- The state of DXYN after its first `n` rows: VF <- 0, then the rows of the bytes at I. -/
def State.drawn (n : Nat) : State := (s.setV VF 0x00#8).drawRows x y 0 (s.spriteRows n)

theorem exec_drw_drawn (n : Nibble) (h : n = 0#4 ∨ s.i.toNat + n.toNat - 1 < 4096) :
    exec (.drw x y n) s = .next ((s.drawn x y n.toNat).setPresent true) :=
  exec_drw_ok s x y n h

@[simp] theorem State.drawn_zero : s.drawn x y 0 = s.setV VF 0x00#8 := rfl

theorem State.drawn_succ (n : Nat) :
    s.drawn x y (n + 1) = (s.drawn x y n).drawRow x y n (s.readByte (s.i.toNat + n)) := by
  have rows : s.spriteRows (n + 1) = s.spriteRows n ++ [s.readByte (s.i.toNat + n)] := by
    rw [State.spriteRows, List.range_succ, List.map_append]
    rfl
  rw [State.drawn, rows, State.drawRows_append, State.length_spriteRows, Nat.zero_add]
  rfl

theorem State.getV_drawn_ne (n : Nat) {r : Reg} (h : r ≠ VF) :
    (s.drawn x y n).getV r = s.getV r := by
  rw [State.drawn, State.getV_drawRows_ne _ _ _ _ _ h, State.getV_setV_ne _ _ h]

theorem State.getV_VF_drawn (n : Nat) :
    (s.drawn x y n).getV VF = 0x00#8 ∨ (s.drawn x y n).getV VF = 0x01#8 :=
  State.getV_drawRows_flag _ _ x y 0 (.inl (s.getV_setV_same VF _))

/-- A coordinate after some rows: V[r], or the VF of that moment (92 D11). -/
theorem State.getV_drawn (n : Nat) (r : Reg) :
    (s.drawn x y n).getV r = if r = VF then (s.drawn x y n).getV VF else s.getV r := by
  split
  next e => rw [e]
  next h => exact s.getV_drawn_ne x y n h

/-! ### Frames -/

/-- Replacing the register file and the framebuffer leaves every other part. -/
theorem State.sameBut_withVFb (w : Vector Byte 16) (fb : Framebuffer) :
    SameBut [.v, .fb] s { s with v := w, fb := fb } := by
  refine ⟨fun p hp => ?_, rfl, rfl, rfl⟩
  cases p with
  | v | fb => exact absurd hp (by decide)
  | stack => exact ⟨rfl, rfl⟩
  | mem => exact fun _ => rfl
  | _ => rfl

theorem State.sameBut_setFb (fb : Framebuffer) : SameBut [.fb] s (s.setFb fb) := by
  refine ⟨fun p hp => ?_, rfl, rfl, rfl⟩
  cases p with
  | fb => exact absurd hp (by decide)
  | _ => simp [Part.Kept]

theorem State.sameBut_setPresent (p : Bool) : SameBut [.present] s (s.setPresent p) := by
  refine ⟨fun part hp => ?_, rfl, rfl, rfl⟩
  cases part with
  | present => exact absurd hp (by decide)
  | _ => simp [Part.Kept]

theorem State.sameBut_drawn (n : Nat) : SameBut [.v, .fb] s (s.drawn x y n) := by
  rw [State.drawn, State.drawRows_eq]
  exact s.sameBut_withVFb _ _

theorem State.sameBut_freeDraw (d : State) : SameBut [.v, .fb] s (s.freeDraw d) := by
  rw [State.freeDraw_eq]
  exact s.sameBut_withVFb _ _

end

/-- Settles O33: the effect replaces the framebuffer by the clear one. -/
theorem clearScreenClearsEveryCell : Obligations.ClearScreenClearsEveryCell :=
  fun _ s => ⟨_, rfl, Framebuffer.cell_clear, s.sameBut_setFb _⟩

/-- Settles O36: the rows change VF and the framebuffer alone and keep VF a flag; with no rows only VF is written. -/
theorem drawCompletesInsideMemory : Obligations.DrawCompletesInsideMemory := by
  refine ⟨rowDecodes (.drw 0 0 0), fun x y n s inside =>
    ⟨_, exec_drw_drawn s x y n inside, rfl, s.getV_VF_drawn x y n.toNat, ?_, fun r hr => ?_, ?_⟩⟩
  · rintro rfl
    exact ⟨s.getV_setV_same VF _, fun _ _ => rfl⟩
  · exact s.getV_drawn_ne x y n.toNat (List.ne_of_not_mem_cons hr)
  · exact ((s.sameBut_drawn x y n.toNat).mono (by decide)).trans
      ((State.sameBut_setPresent _ true).mono (by decide))

/-- Settles O39: the framebuffers and flags are those of the states after each number of rows (`State.drawn`). -/
theorem drawGoesRowByRow : Obligations.DrawGoesRowByRow := by
  intro x y n s inside
  refine ⟨_, fun k => (s.drawn x y k).fb, fun k => (s.drawn x y k).getV VF,
    exec_drw_drawn s x y n inside, rfl, s.getV_setV_same VF _, rfl, rfl, ?_⟩
  rintro k - cx cy rfl rfl
  obtain ⟨_, cfg, _⟩ := s.sameBut_drawn x y k
  simp only [← State.getV_drawn, ← cfg, State.drawn_succ]
  exact ⟨rfl, State.getV_setV_same _ VF _⟩

/-! ### The whole sprite (R216, R217) -/

/-- Rows of one sprite less than a screen apart fall on different screen rows. -/
theorem OnScreenRow.apart {policy : SpriteY} {y k n : Nat} {yy : Fin 32} (hk : k < n)
    (hn : n < 32) (h : OnScreenRow policy (y + k) yy) : ¬ OnScreenRow policy (y + n) yy := by
  cases policy with
  | wrap | clip =>
    unfold OnScreenRow at h ⊢
    omega

section
variable {s t : State} {x y : Reg} {n : Nat}

theorem spriteCovers_succ (s : State) (x y : Reg) (n : Nat) (yy : Fin 32) (xx : Fin 64) :
    SpriteCovers s x y (n + 1) yy xx ↔ SpriteCovers s x y n yy xx ∨
      OnScreenRow s.cfg.spriteY ((s.getV y).toNat + n) yy ∧
        OnScreenColumn (s.getV x).toNat (s.readByte (s.i.toNat + n)) xx :=
  Nat.exists_lt_succ_right

/-- A sprite covers the same cells in every state a draw, or a write to VF, can lead to. -/
theorem spriteCovers_congr (hx : x ≠ VF) (hy : y ≠ VF) (regs : RegsKeptBut [VF] s t)
    (rest : SameBut [.v, .fb, .present] s t) (yy : Fin 32) (xx : Fin 64) :
    SpriteCovers t x y n yy xx ↔ SpriteCovers s x y n yy xx := by
  obtain ⟨kept, cfg, _⟩ := rest
  have index : t.i = s.i := kept .i (by decide)
  have bytes : ∀ a, t.readByte a = s.readByte a := kept .mem (by decide)
  simp only [SpriteCovers, cfg, index, bytes, regs x (mt List.mem_singleton.1 hx),
    regs y (mt List.mem_singleton.1 hy)]

/-- With the coordinates outside VF the next row is one blit at (V[X], V[Y] + n). -/
theorem State.drawn_succ_outsideVF (s : State) (n : Nat) (hx : x ≠ VF) (hy : y ≠ VF) :
    let r := blit s.cfg.spriteY (s.drawn x y n).fb (s.getV x).toNat ((s.getV y).toNat + n)
      (s.readByte (s.i.toNat + n))
    (s.drawn x y (n + 1)).fb = r.1 ∧ (s.drawn x y (n + 1)).getV VF =
      if r.2 then 0x01#8 else (s.drawn x y n).getV VF := by
  obtain ⟨_, cfg, _⟩ := s.sameBut_drawn x y n
  rw [State.drawn_succ, ← cfg, ← s.getV_drawn_ne x y n hx, ← s.getV_drawn_ne x y n hy]
  exact ⟨rfl, State.getV_setV_same _ VF _⟩

/-- A draw of at most 32 rows turns over the cells its sprite covers, each once. -/
theorem toggledOn_drawn (s : State) (hx : x ≠ VF) (hy : y ≠ VF) (h : n ≤ 32) :
    ToggledOn (SpriteCovers s x y n) s.fb (s.drawn x y n).fb := by
  induction n with
  | zero => simp [ToggledOn, SpriteCovers]
  | succ n ih =>
    obtain ⟨fb, _⟩ := s.drawn_succ_outsideVF n hx hy
    rw [fb, show SpriteCovers s x y (n + 1) = _ from
      funext₂ fun yy xx => propext (spriteCovers_succ s x y n yy xx)]
    refine (ih (by omega)).union (toggledOn_blit _ _ _ _ _) ?_
    rintro yy xx ⟨k, hk, above, _⟩ ⟨below, _⟩
    exact above.apart hk h below

/-- A draw of at most 32 rows ends with VF = 1 when its sprite covers a lit cell. -/
theorem getV_VF_drawn_eq_one_iff (s : State) (hx : x ≠ VF) (hy : y ≠ VF) (h : n ≤ 32) :
    (s.drawn x y n).getV VF = 0x01#8 ↔
      ∃ yy xx, SpriteCovers s x y n yy xx ∧ s.fb.cell yy xx = true := by
  induction n with
  | zero => simp [SpriteCovers]
  | succ n ih =>
    obtain ⟨_, flag⟩ := s.drawn_succ_outsideVF n hx hy
    have fresh (yy : Fin 32) (xx : Fin 64)
        (onRow : OnScreenRow s.cfg.spriteY ((s.getV y).toNat + n) yy) :
        (s.drawn x y n).fb.cell yy xx = s.fb.cell yy xx := by
      refine (toggledOn_drawn s hx hy (by omega)).cell_of_not ?_
      rintro ⟨k, hk, above, _⟩
      exact above.apart hk h onRow
    have meets : (blit s.cfg.spriteY (s.drawn x y n).fb (s.getV x).toNat
          ((s.getV y).toNat + n) (s.readByte (s.i.toNat + n))).2 = true ↔
        ∃ yy xx, (OnScreenRow s.cfg.spriteY ((s.getV y).toNat + n) yy ∧
          OnScreenColumn (s.getV x).toNat (s.readByte (s.i.toNat + n)) xx) ∧
          s.fb.cell yy xx = true := by
      rw [blit_collision_iff]
      refine exists₂_congr fun yy xx => ?_
      rw [and_assoc]
      exact and_congr_right fun onRow => by rw [fresh yy xx onRow]
    rw [flag, ite_eq_left_iff, meets, ih (by omega)]
    simp only [spriteCovers_succ, or_and_right, exists_or]
    exact or_iff_not_imp_right.symm

end

/-- Settles O37: the rows are one toggle on the sprite's cells, and VF is the collision with the screen before the draw. -/
theorem drawXorsTheSpriteAndReportsCollision :
    Obligations.DrawXorsTheSpriteAndReportsCollision := by
  intro x y n s hx hy inside
  have rows : n.toNat ≤ 32 := by have := n.isLt; omega
  have flag := getV_VF_drawn_eq_one_iff s hx hy rows
  refine ⟨_, exec_drw_drawn s x y n inside, toggledOn_drawn s hx hy rows, flag.2, fun dark => ?_⟩
  refine (s.getV_VF_drawn x y n.toNat).resolve_right fun one => ?_
  obtain ⟨yy, xx, covered, lit⟩ := flag.1 one
  rw [dark yy xx covered] at lit
  cases lit

/-- Settles O38: the second draw has the sprite, the coordinates and the policy of the first, so it toggles the same cells and meets those the first lit. -/
theorem drawTwiceRestores : Obligations.DrawTwiceRestores := by
  intro x y n s hx hy inside
  obtain ⟨_, completes⟩ := drawCompletesInsideMemory
  obtain ⟨t, draws, _, _, _, regs, rest⟩ := completes x y n s inside
  obtain ⟨t', draws', first, _⟩ := drawXorsTheSpriteAndReportsCollision x y n s hx hy inside
  obtain rfl : t' = t := Host.Outcome.next.inj (draws'.symm.trans draws)
  have index : t'.i = s.i := rest.1 .i (by decide)
  obtain ⟨u, drawsAgain, second, collides, _⟩ :=
    drawXorsTheSpriteAndReportsCollision x y n t' hx hy (by rwa [index])
  simp only [spriteCovers_congr hx hy regs rest] at second collides
  refine ⟨t', u, draws, drawsAgain, fun yy xx => ?_, ?_⟩
  · rw [ToggledOn.twice first second]
  · rintro ⟨yy, xx, lights⟩
    exact collides ⟨yy, xx, (ToggledOn.lights_iff first yy xx).1 lights⟩

/-! ### A draw that leaves memory (R128; 92 D17) -/

/-- Settles O40: the effect is a raise after free cells and a free VF (`exec_drw_fault`); with the coordinates outside VF a sprite covers the same cells whatever VF is. -/
theorem drawOutOfMemoryFaults : Obligations.DrawOutOfMemoryFaults := by
  intro x y n s hn out
  have raises := exec_drw_fault s x y n hn out
  have uncovered := State.cell_freeDraw_of_uncovered x y n.toNat s
  generalize (s.setV VF 0x00#8).drawRows x y 0 (s.readableRows n.toNat) = d at raises uncovered
  refine raisesIn_of_partial raises (s.sameBut_freeDraw d) (s.freeDraw_pc d) ?_
  rw [State.raise_fb]
  refine ⟨fun r hr => ?_, fun hx hy yy xx h => ?_, uncovered⟩
  · rw [State.getV_raise, s.getV_freeDraw_ne d (List.ne_of_not_mem_cons hr)]
  · have anyFlag (b : Byte) :=
      mt (spriteCovers_congr hx hy (s.regsKeptBut_setV VF b)
        ((s.sameBut_withV _).mono (by decide)) yy xx).1 h
    exact uncovered yy xx (anyFlag _) (anyFlag _)

end Sys2Proof.Machine
end

section
/-! PROOFS. Keys and timers (spec/45_keys_timers.md): the skips on a held key, the wait for a key, and the timers moved by an instruction and ticked at the end of its Step. -/

namespace Sys2Proof.Machine

section
variable (s : State)

/-! ### Frames -/

theorem State.sameBut_setDt (b : Byte) : SameBut [.dt] s (s.setDt b) := by
  refine ⟨fun p hp => ?_, rfl, rfl, rfl⟩
  cases p with
  | dt => exact absurd hp (by decide)
  | _ => simp [Part.Kept]

theorem State.sameBut_setSt (b : Byte) : SameBut [.st] s (s.setSt b) := by
  refine ⟨fun p hp => ?_, rfl, rfl, rfl⟩
  cases p with
  | st => exact absurd hp (by decide)
  | _ => simp [Part.Kept]

/-! ### Waiting for a key (R244) -/

theorem exec_ldRegKey_pressed (x : Reg) {k : Nibble} (h : s.sample.pressed = some k) :
    exec (.ldRegKey x) s = .next (s.setV x (k.setWidth 8)) := by
  simp only [exec, execLdRegKey, State.firstPressed, h]

theorem exec_ldRegKey_wait (x : Reg) (h : s.sample.pressed = none) :
    exec (.ldRegKey x) s = .next (s.setPc (s.pc - 2#16)) := by
  simp only [exec, execLdRegKey, State.firstPressed, h]

/-- Moving the PC back by one instruction undoes the advance. -/
theorem State.setPc_sub_advance : s.advance.setPc (s.advance.pc - 2#16) = s := by
  rw [State.advance_pc, BitVec.add_sub_cancel]
  rfl

/-! ### Sound (R295) -/

theorem State.soundOn_iff : s.soundOn = true ↔ 0 < s.st.toNat := by
  rw [State.soundOn, decide_eq_true_iff, Nat.pos_iff_ne_zero, ne_eq, ne_eq, ← BitVec.toNat_inj]
  rfl

/-- After the tick of a sound timer set to `n`, sound is on exactly when `n` is at least 2. -/
theorem State.soundOn_iff_of_ticked {n : Nat} (ticked : s.st.toNat = n - 1) :
    s.soundOn = true ↔ 2 ≤ n := by
  rw [State.soundOn_iff, ticked]
  omega

end

/-! ### The obligations -/

/-- Settles O44: each effect is one write, made before the tick that completes the Step (`step_of_effect`). -/
theorem timerWriteIsTickedInItsOwnCycle : Obligations.TimerWriteIsTickedInItsOwnCycle := by
  refine fun s x => ⟨fun next => ?_, fun next => ?_, fun next => ?_⟩
  · exact ⟨_, step_of_effect next rfl rfl, rfl, tick_toNat (s.getV x)⟩
  · have ticked := tick_toNat (s.getV x)
    exact ⟨_, step_of_effect next rfl rfl, rfl, ticked, State.soundOn_iff_of_ticked _ ticked⟩
  · exact ⟨_, step_of_effect next rfl rfl, rfl, s.advance.getV_setV_same x s.dt, tick_toNat s.dt⟩

/-- Settles O45: the wait undoes the advance (`State.setPc_sub_advance`), so what is left of the Step is the end of its cycle. -/
theorem waitingStepOnlyTicks : Obligations.WaitingStepOnlyTicks := by
  intro s x next nothing
  have waits : exec (.ldRegKey x) s.advance = .next s := by
    rw [exec_ldRegKey_wait s.advance x nothing, State.setPc_sub_advance]
  exact ⟨_, step_of_effect next waits rfl, rfl, rfl, tick_toNat s.dt, tick_toNat s.st,
    s.keptBut_complete_useSample⟩

/-- Settles O41: with a key code both effects are a skip on the key's bit of the sample, above 0xF both are a raise and nothing else. -/
theorem keySkipsReadTheHeldKeys : Obligations.KeySkipsReadTheHeldKeys := by
  refine fun x d s => ⟨fun key => ⟨?_, ?_⟩, fun large =>
    ⟨raisesIn_of_exec_raise (exec_skp_fault s x d large),
      raisesIn_of_exec_raise (exec_sknp_fault s x d large)⟩⟩
  · exact ⟨_, exec_skp_ok s x d key, s.sameBut_setPc _, rfl⟩
  · refine ⟨_, exec_sknp_ok s x d key, s.sameBut_setPc _, ?_⟩
    rw [State.skipIf_pc, State.held]
    cases s.sample.held.getLsbD (s.getV x).toNat <;> rfl

/-- Settles O42: by cases on the sample's key, the effect is one write of it or the move of the PC. -/
theorem keyWaitWritesTheKeyOrRetries : Obligations.KeyWaitWritesTheKeyOrRetries := by
  refine ⟨rowDecodes (.ldRegKey 0), fun x s => ?_⟩
  cases h : s.sample.pressed with
  | none =>
    exact ⟨_, exec_ldRegKey_wait s x h, nofun, fun _ => ⟨rfl, s.sameBut_setPc _⟩⟩
  | some k =>
    refine ⟨_, exec_ldRegKey_pressed s x h, ?_, nofun⟩
    rintro _ ⟨⟩
    refine ⟨?_, s.regsKeptBut_setV x _, s.sameBut_withV _⟩
    rw [State.getV_setV_same, BitVec.toNat_setWidth_of_le (by decide)]

/-- Settles O43: each effect is one write of a register or of a timer. -/
theorem timerMoves : Obligations.TimerMoves :=
  ⟨rowDecodes (.ldRegDt 0), rowDecodes (.ldDtReg 0), rowDecodes (.ldStReg 0), fun x s =>
    ⟨⟨_, rfl, s.getV_setV_same x s.dt, s.regsKeptBut_setV x _, s.sameBut_withV _⟩,
      ⟨_, rfl, rfl, s.sameBut_setDt _⟩, ⟨_, rfl, rfl, s.sameBut_setSt _⟩⟩⟩

end Sys2Proof.Machine
end

section
/-! PROOFS. Exceptions (spec/60_exceptions.md): a Step of a decoded instruction ends in RUNNING or in the record of R261, as R263 lists no fault or one. -/

namespace Sys2Proof.Machine

/-- The end of a cycle keeps the record of a fault. -/
theorem State.run_endCycle_of_faulted {t : State} {r : FaultRecord} (h : t.run = .faulted r) :
    t.endCycle.run = .faulted r := by
  rw [t.endCycle_of_faulted h, State.useSample_run, h]

/-- A cycle that did not fault ends in RUNNING. -/
theorem State.run_endCycle_of_not_faulted {t : State} (h : t.run.isFaulted = false) :
    t.endCycle.run = .running := by
  rcases t.endCycle_cases with ⟨faulted, _⟩ | ⟨_, e⟩
  · exact absurd (h.symm.trans faulted) (by decide)
  · rw [e]
    rfl

/-- An effect run on the advanced state records the Step's own PC and the word it fetched (R261). -/
theorem Effect.run_faulted_of_nextIs {s t : State} {i : Instr} {f : Fault} (next : s.nextIs i)
    (effect : Effect i s.advance t) (hf : s.ownFault i = some f) :
    t.run = .faulted { fault := f, pc := s.pc, opcode := some s.opcodeAtPc } := by
  obtain ⟨_, _, decodes⟩ := next
  rw [effect.run_fault f ((s.ownFault_advance i).trans hf), State.advance_pc,
    BitVec.add_sub_cancel, encode_of_decodeWord decodes]

/-- Settles O47: the Step is the instruction's effect on the advanced state, which R263 decides (`Effect.run_ok`, `Effect.run_fault`); the end of the cycle keeps a record and makes anything else RUNNING. -/
theorem stepFaultsExactlyWhenListed : Obligations.StepFaultsExactlyWhenListed := by
  intro s i next
  obtain ⟨t, ht, effect⟩ := exec_effect i s.advance
  refine ⟨t.endCycle, step_of_exec next ht, ⟨fun running => ?_, fun completes => ?_⟩,
    fun f hf => State.run_endCycle_of_faulted (effect.run_faulted_of_nextIs next hf)⟩
  · rw [← s.ownFault_advance i]
    exact effect.ownFault_eq_none (State.not_faulted_of_endCycle_running running)
  · apply State.run_endCycle_of_not_faulted
    rw [effect.run_ok ((s.ownFault_advance i).trans completes)]
    exact next.not_faulted

end Sys2Proof.Machine
end

section
/-! PROOFS. The end of a run (spec/70_reset_and_hazards.md R300, 92 D28): a halt loop is left by no Step, so the first one a run reaches is its end state. -/

namespace Sys2Proof.Machine

/-! ### One Step at a halt loop -/

/-- The next Step of an accepted halt loop is the jump to where it stands. -/
theorem State.haltLoop.exists_nextIs_jp {s : State} (loop : s.haltLoop)
    (accepted : s.run = .loaded ∨ s.run = .running) :
    ∃ nnn, zextAddr nnn = s.pc ∧ s.nextIs (.jp nnn) := by
  obtain ⟨inside, nnn, target, word⟩ := loop
  refine ⟨nnn, target, accepted, inside, ?_⟩
  rw [State.opcodeAtPc, word]
  exact decodeWord_encode (.jp nnn)

/-- A jump to its own address undoes the advance. -/
theorem exec_jp_advance_self {s : State} {nnn : Addr12} (target : zextAddr nnn = s.pc) :
    exec (.jp nnn) s.advance = .next s := by
  change Host.Outcome.next (s.setPc (zextAddr nnn)) = .next s
  rw [target]
  rfl

/-- At a halt loop the Step is the end of its cycle alone. -/
theorem State.haltLoop.step_eq {s : State} (loop : s.haltLoop)
    (accepted : s.run = .loaded ∨ s.run = .running) :
    step s = .next s.complete.useSample := by
  obtain ⟨nnn, target, next⟩ := loop.exists_nextIs_jp accepted
  exact step_of_effect next (exec_jp_advance_self target) rfl

/-- Whether a state is a halt loop depends on its PC and its memory alone. -/
theorem State.haltLoop.of_keptBut {s t : State} (loop : s.haltLoop)
    (kept : KeptBut [.dt, .st, .run] s t) : t.haltLoop := by
  have pc : t.pc = s.pc := kept .pc (by decide)
  have bytes : ∀ a, t.readByte a = s.readByte a := kept .mem (by decide)
  unfold State.haltLoop
  rw [pc, bytes, bytes]
  exact loop

/-! ### Runs -/

theorem Part.Kept.refl (s : State) (p : Part) : p.Kept s s := by
  cases p with
  | v | mem => exact fun _ => rfl
  | fb => exact fun _ _ => rfl
  | stack => exact ⟨rfl, rfl⟩
  | _ => rfl

/-- A run that starts at a halt loop moves DT, ST and RUN alone, however long it is. -/
theorem State.haltLoop.keptBut_of_runsTo : ∀ {n : Nat} {s u : State}, s.haltLoop →
    (s.run = .loaded ∨ s.run = .running) → s.runsTo n u → KeptBut [.dt, .st, .run] s u
  | 0, s, _, _, _, rfl => fun p _ => Part.Kept.refl s p
  | n + 1, s, u, loop, accepted, ⟨v, stepped, running, rest⟩ => by
    obtain rfl := Host.Outcome.next.inj ((loop.step_eq accepted).symm.trans stepped)
    have kept := s.keptBut_complete_useSample
    exact kept.trans ((loop.of_keptBut kept).keptBut_of_runsTo (.inr running) rest)

/-- An end state is a halt loop that the run reaches with no fault. -/
theorem State.endsIn.runsTo_haltLoop : ∀ {n : Nat} {s t : State}, s.endsIn n t →
    s.runsTo n t ∧ t.haltLoop
  | 0, _, _, ⟨rfl, _, loop⟩ => ⟨rfl, loop⟩
  | _ + 1, _, _, ⟨_, v, stepped, running, rest⟩ =>
    have ⟨runs, loop⟩ := rest.runsTo_haltLoop
    ⟨⟨v, stepped, running, runs⟩, loop⟩

/-- No state before the end state is a halt loop. -/
theorem State.endsIn.not_haltLoop {n m : Nat} {s t u : State} (ends : s.endsIn n t)
    (before : m < n) (runs : s.runsTo m u) : ¬ u.haltLoop := by
  induction n generalizing s m with
  | zero => exact absurd before (Nat.not_lt_zero m)
  | succ n ih =>
    obtain ⟨no, v, stepped, _, rest⟩ := ends
    cases m with
    | zero =>
      obtain rfl := runs
      exact no
    | succ m =>
      obtain ⟨v', stepped', _, runs⟩ := runs
      obtain rfl := Host.Outcome.next.inj (stepped.symm.trans stepped')
      exact ih rest (Nat.lt_of_succ_lt_succ before) runs

/-- The end state and the number of Steps to it are unique: neither of two can come before the other, and a run is deterministic. -/
theorem State.endsIn.unique : ∀ {n n' : Nat} {s t t' : State}, s.endsIn n t → s.endsIn n' t' →
    n = n' ∧ t = t'
  | 0, 0, _, _, _, ⟨rfl, _⟩, ⟨rfl, _⟩ => ⟨rfl, rfl⟩
  | 0, _ + 1, _, _, _, ⟨_, _, loop⟩, ⟨no, _⟩ => absurd loop no
  | _ + 1, 0, _, _, _, ⟨no, _⟩, ⟨_, _, loop⟩ => absurd loop no
  | n + 1, n' + 1, s, t, t', ⟨_, v, stepped, _, rest⟩, ⟨_, v', stepped', _, rest'⟩ => by
    obtain rfl := Host.Outcome.next.inj (stepped.symm.trans stepped')
    obtain ⟨rfl, rfl⟩ := rest.unique rest'
    exact ⟨rfl, rfl⟩

/-- A run that reaches a halt loop has reached its end state, and what follows moves DT, ST and RUN alone. -/
theorem State.runsTo.exists_endsIn {n : Nat} {s u : State}
    (accepted : s.run = .loaded ∨ s.run = .running) (runs : s.runsTo n u) (loop : u.haltLoop) :
    ∃ k t, k ≤ n ∧ s.endsIn k t ∧ KeptBut [.dt, .st, .run] t u := by
  induction n generalizing s with
  | zero =>
    obtain rfl := runs
    exact ⟨0, u, Nat.le_refl 0, ⟨rfl, accepted, loop⟩, fun p _ => Part.Kept.refl u p⟩
  | succ n ih =>
    by_cases start : s.haltLoop
    · exact ⟨0, s, Nat.zero_le _, ⟨rfl, accepted, start⟩, start.keptBut_of_runsTo accepted runs⟩
    · obtain ⟨v, stepped, running, rest⟩ := runs
      obtain ⟨k, t, hk, ends, kept⟩ := ih (.inr running) rest
      exact ⟨k + 1, t, Nat.succ_le_succ hk, ⟨start, v, stepped, running, ends⟩, kept⟩

/-- Settles O59: at a halt loop the Step is a tick (`State.haltLoop.step_eq`), so no Step leaves it and the first one ends the run. -/
theorem haltLoopOnlyTicks : Obligations.HaltLoopOnlyTicks := by
  refine ⟨fun s accepted loop => ?_, fun s t n ends => ?_, fun _ _ _ _ _ => State.endsIn.unique,
    fun _ _ _ => State.runsTo.exists_endsIn⟩
  · have kept := s.keptBut_complete_useSample
    exact ⟨_, loop.step_eq accepted, rfl, loop.of_keptBut kept, tick_toNat s.dt, tick_toNat s.st,
      kept⟩
  · obtain ⟨runs, loop⟩ := ends.runsTo_haltLoop
    exact ⟨runs, loop, fun _ before _ => ends.not_haltLoop before⟩

end Sys2Proof.Machine
end
